-- ==== Sys2Proof/Word.lean ====
section
/-! DEFINITION. The word types of LSBCODEC: all values are unsigned (00_scope.md R11). -/

namespace Sys2Proof

/-- A register of the REG space, and a command word: `XLEN` = 32 bits (00_scope.md R8). -/
abbrev Word := BitVec 32

/-- A channel of a pixel, or a character of a Payload: 8 bits (00_scope.md R7). -/
abbrev Byte := BitVec 8

/-- The two byte memories of the block (20_memory.md R50). -/
inductive MemSpace where
  /-- the message memory MSG (20_memory.md R53) -/
  | msg
  /-- the pixel memory PIX (20_memory.md R51) -/
  | pix
  deriving DecidableEq, Repr

end Sys2Proof
end

