-- ==== Sys2Proof/Config.lean ====
section
/-! DEFINITION. What an implementation of LSBCODEC fixes, and the one free value of the model. -/

namespace Sys2Proof

/-- The parameter of the block (00_scope.md R8): "A model takes `PIX_CAP` as a configuration argument".
State carries it, and no step changes it, so a statement about every state holds for every capacity
(log 4). -/
structure Config where
  /-- `PIX_CAP`, the number of pixels the PIX memory holds -/
  pixCap : Nat
  deriving DecidableEq, Repr

/-- The constraint of 00_scope.md R8: `1 <= PIX_CAP <= 2^30 - 1`. -/
abbrev Config.wf (c : Config) : Prop := 1 ≤ c.pixCap ∧ c.pixCap ≤ 2 ^ 30 - 1

/-- The reference value of 00_scope.md R8: 1048576 = 2^20 pixels. -/
def Config.reference : Config := { pixCap := 1048576 }

/-- FREE VALUE. The byte an address of MSG or PIX holds from power-on until something writes it:
"a fixed but unknown value" (10_state.md R33; 93_implementation_defined.md U4). It has no body, so
nothing can be proved of it and every statement holds whatever it is. The first argument names the
power-up (log 2, log 3). -/
opaque Config.powerOnByte : Nat → MemSpace → Nat → Byte

end Sys2Proof
end

