-- ==== Sys2Proof/Syntax.lean ====
section
/-! DEFINITION. The commands of the block (`Instr`, one constructor per row of the opcode table), what the
outside world can do to it (`Input`), and the host-script lines of 30_encoding.md (`HostLine`). -/

namespace Sys2Proof

/-- The three commands (30_encoding.md R72). A command word carries no operand (R71). -/
inductive Instr where
  /-- `CHKCAP`, OP 0x1 (40_capacity.md R91) -/
  | chkcap
  /-- `EMBED`, OP 0x2 (41_embed.md R100) -/
  | embed
  /-- `EXTRACT`, OP 0x3 (42_extract.md R120) -/
  | extract
  deriving DecidableEq, Repr

/-- One thing the outside world does, or lets happen, next. The host-port transactions are the tuples of
30_encoding.md R75, with the value's width fixed by the space. -/
inductive Input where
  /-- `HostRead(REG, i)` (43_host_access.md R150) -/
  | readReg (i : Nat)
  /-- `HostRead(MSG, a)` or `HostRead(PIX, a)` (43_host_access.md R153) -/
  | readMem (sp : MemSpace) (a : Nat)
  /-- `HostWrite(REG, i, v)` (43_host_access.md R151); index 0 is command acceptance (R152) -/
  | writeReg (i : Nat) (v : Word)
  /-- `HostWrite(MSG, a, v)` or `HostWrite(PIX, a, v)` (43_host_access.md R154) -/
  | writeMem (sp : MemSpace) (a : Nat) (v : Byte)
  /-- an `EngineStep` scheduled here (43_host_access.md R157) -/
  | engine
  /-- a `Reset` step (70_reset_and_hazards.md R190) -/
  | reset
  /-- a power-on with its reset (10_state.md R33: "After a power-on reset each byte holds a fixed but unknown
  value"; log 14) -/
  | powerOn
  /-- the pseudo-instruction `wait` (30_encoding.md R77): read STATUS until BUSY reads 0 -/
  | wait
  /-- a write of a command word taken at the RESULT level: acceptance and all the ENGINE steps of the
  command together are one transition (43_host_access.md R152, last paragraph; log 1) -/
  | command (w : Word)
  deriving DecidableEq, Repr

/-- What an `expect <what> = <v>` line states (30_encoding.md R77, as the programs of 95_test_vectors.md use it):
the value of a register, the byte at an address of MSG or PIX, or the value the last host read returned. -/
inductive Expectation where
  /-- `expect <REG> = <v>`, the register by its index in the REG space -/
  | reg (i : Nat) (v : Word)
  /-- `expect MSG[<a>] = <v>` and `expect PIX[<a>] = <v>` -/
  | mem (sp : MemSpace) (a : Nat) (v : Byte)
  /-- after an `rd` or a `wait`: `expect <v>`, the word just read -/
  | lastWord (v : Word)
  /-- after an `rdb`: `expect <v>`, the byte just read -/
  | lastByte (v : Byte)
  deriving DecidableEq, Repr

/-- One line of the host-script notation (30_encoding.md R76, R77; `wait` and `expect` included).
A register is given by its index in the REG space. -/
inductive HostLine where
  /-- `wr <REG>, <v>` -/
  | wr (reg : Nat) (v : Word)
  /-- `rd <REG>` -/
  | rd (reg : Nat)
  /-- `wrb MSG, <a>, <v>` and `wrb PIX, <a>, <v>` -/
  | wrb (sp : MemSpace) (a : Nat) (v : Byte)
  /-- `rdb MSG, <a>` and `rdb PIX, <a>` -/
  | rdb (sp : MemSpace) (a : Nat)
  /-- `chkcap`, `embed`, `extract` -/
  | cmd (i : Instr)
  /-- `ldpix <b0> ... <bn-1>` -/
  | ldpix (bytes : List Byte)
  /-- `setn <N>` -/
  | setn (n : Word)
  /-- `ldmsg "<text>"` -/
  | ldmsg (text : List Char)
  /-- `ldmsgb <b0> ... <bn-1>` -/
  | ldmsgb (bytes : List Byte)
  /-- `setbits <B>` -/
  | setbits (b : Word)
  /-- `wait` -/
  | wait
  /-- `expect <what> = <v>`: not a host step; it states a value (`State.meets` says when it is right) -/
  | expect (e : Expectation)
  deriving DecidableEq, Repr

end Sys2Proof
end

