-- ==== Sys2Proof/WellFormed.lean ====
section
/-! DEFINITION. Which terms of the syntax are well formed. -/

namespace Sys2Proof

/-- Every command is well formed: a command word carries no operand field (30_encoding.md R70, R71), so
there is nothing in an `Instr` that could be out of range. -/
def Instr.wf : Instr → Bool
  | .chkcap => true
  | .embed => true
  | .extract => true

/-- The checks of the host-script notation (30_encoding.md R77): `ldpix` takes a multiple of three bytes;
the characters of `ldmsg` are ASCII, for no other character has a byte the spec gives
(93_implementation_defined.md U1: a host model refuses a code point above 127; log 13); the length a
line writes to a register fits its 32 bits. `State.scriptHolds` refuses a script with a line that fails them;
the definitions that run a single line or a source call do not ask for them (log 18). -/
def HostLine.wf : HostLine → Bool
  | .wr _ _ => true
  | .rd _ => true
  | .wrb _ _ _ => true
  | .rdb _ _ => true
  | .cmd i => i.wf
  | .ldpix bytes => bytes.length % 3 == 0
  | .setn _ => true
  | .ldmsg text => text.all (fun c => decide (c.toNat ≤ 127)) && decide (text.length < 2 ^ 32)
  | .ldmsgb bytes => decide (bytes.length < 2 ^ 32)
  | .setbits _ => true
  | .wait => true
  | .expect _ => true

/-- A host script is well formed when each of its lines is. -/
def scriptWf (script : List HostLine) : Bool := script.all HostLine.wf

end Sys2Proof
end

