-- ==== Sys2Proof/Decode.lean ====
section
/-! DEFINITION. The decoder of command words and, after it, the encoder (30_encoding.md R70 to R74). -/

namespace Sys2Proof

/-- Why a word is no command (30_encoding.md R73). -/
inductive DecodeError where
  /-- a bit of `RSVD` = w[31:4] is not 0 -/
  | reservedBits
  /-- `RSVD` is 0 and `OP` = w[3:0] is 0 or 4 to 15 -/
  | illegalOp (op : BitVec 4)
  deriving DecidableEq, Repr

/-- The field `OP` = w[3:0] (30_encoding.md R70). -/
def opField (w : Word) : BitVec 4 := w.extractLsb' 0 4

/-- The field `RSVD` = w[31:4] (30_encoding.md R70). -/
def rsvdField (w : Word) : BitVec 28 := w.extractLsb' 4 28

/-- The opcode map (30_encoding.md R72). -/
def ofOp : BitVec 4 → Option Instr
  | 0x1 => some .chkcap
  | 0x2 => some .embed
  | 0x3 => some .extract
  | _ => none

/-- The operation code of a command (30_encoding.md R72). -/
def opOf : Instr → BitVec 4
  | .chkcap => 0x1
  | .embed => 0x2
  | .extract => 0x3

/-- The decoder: "A word is a legal command if and only if `RSVD = 0` and `OP` is 1, 2 or 3"
(30_encoding.md R72); every other word is rejected by name (R73). -/
def decode (w : Word) : Except DecodeError Instr :=
  if rsvdField w ≠ 0 then .error .reservedBits
  else match ofOp (opField w) with
    | some i => .ok i
    | none => .error (.illegalOp (opField w))

/-- The encoder: the word of a command, `RSVD` = 0 above its `OP` (30_encoding.md R70, R72). -/
def encode (i : Instr) : Word := (0 : BitVec 28) ++ opOf i

/-- The decoder on a word numbered as the opcode table numbers it: there is one 32-bit format
(30_encoding.md R74), bit 0 its least significant bit; bits above `nbits` are 0, and a number that does
not fit 32 bits is no command word. -/
def decodeTableWord (nbits w : Nat) : Option Instr :=
  if w % 2 ^ nbits < 2 ^ 32 then
    match decode (BitVec.ofNat 32 (w % 2 ^ nbits)) with
    | .ok i => some i
    | .error _ => none
  else none

end Sys2Proof
end

