-- ==== Sys2Proof/Machine/State.lean ====
section
/-! DEFINITION. The state of LSBCODEC, its value after reset, and the reasons a step can stop. -/

namespace Sys2Proof.Machine

/-- A byte memory as the list of the bytes written since power-on, addresses strictly rising
(`Memory.wf` in Ops.lean). An unlisted address is one nothing has written (log 2). -/
abbrev Memory := List Host.Cell

/-- The values of `STATUS.RESULT` (60_exceptions.md R170). Codes 6 and 7 are "never produced", so "a
model's outcome type has exactly six values" (93_implementation_defined.md U7). -/
inductive ResultCode where
  /-- 0 `NONE`: no command has ended since reset, or one is running -/
  | none
  /-- 1 `OK`: the command did what it is for -/
  | ok
  /-- 2 `CAPACITY_ERROR` (60_exceptions.md R171) -/
  | capacityError
  /-- 3 `NOT_FOUND` (60_exceptions.md R172) -/
  | notFound
  /-- 4 `BAD_CMD` (60_exceptions.md R173) -/
  | badCmd
  /-- 5 `BAD_CONFIG` (60_exceptions.md R174) -/
  | badConfig
  deriving DecidableEq, Repr

/-- The internal register `PHASE` (10_state.md R28). -/
inductive Phase where
  /-- `START` (0): the command has been accepted and its checks have not run -/
  | start
  /-- `RUN` (1): the channel walk is in progress -/
  | run
  deriving DecidableEq, Repr

/-- A value a HostRead returned: 32 bits for REG, 8 bits for MSG and PIX (30_encoding.md R75). -/
inductive HostData where
  | word (v : Word)
  | byte (v : Byte)
  deriving DecidableEq, Repr

/-- Everything the spec gives the block (10_state.md), its configuration, and the model's own record of
what the outside does. `CMD` "stores nothing" (10_state.md R21) and the reserved bits of `STATUS` read 0
(R22), so neither has a field. -/
@[ext]
structure State where
  /-- the parameter `PIX_CAP` (00_scope.md R8); no step changes it (log 4) -/
  cfg : Config
  /-- MODEL'S OWN: the name of this power-up, to which the free memory contents are applied (log 3) -/
  powerUp : Nat
  /-- `STATUS.BUSY` (10_state.md R22) -/
  busy : Bool
  /-- `STATUS.CAP` (10_state.md R22) -/
  cap : Bool
  /-- `STATUS.RESULT` (10_state.md R22) -/
  result : ResultCode
  /-- `STATUS.OP` (10_state.md R22) -/
  op : BitVec 4
  /-- `PIXEL_COUNT` (10_state.md R23) -/
  pixelCount : Word
  /-- `MSG_LEN` (10_state.md R24) -/
  msgLen : Word
  /-- `BIT_COUNT` (10_state.md R25) -/
  bitCount : Word
  /-- `PHASE` (10_state.md R28) -/
  phase : Phase
  /-- the scan cursor `K` (10_state.md R26, R28) -/
  k : Word
  /-- EXTRACT's shift register `SH` (10_state.md R28) -/
  sh : Byte
  /-- EXTRACT's run counter `RUNCNT` (10_state.md R28) -/
  runcnt : BitVec 3
  /-- the message memory MSG (20_memory.md R53) -/
  msg : Memory
  /-- the pixel memory PIX (20_memory.md R51) -/
  pix : Memory
  /-- MODEL'S OWN: what the outside does next, first entry first (log 5) -/
  inputs : List Input
  /-- MODEL'S OWN: the values host reads have returned, newest first (log 12) -/
  outputs : List HostData
  deriving DecidableEq, Repr

/-- There is no fault: "every command word, every register value and every memory content leads to a
defined next state" (93_implementation_defined.md, end of part 1). An exception of this block is an
outcome code in `STATUS.RESULT` (60_exceptions.md), which is a next state. -/
inductive Fault where
  deriving DecidableEq, Repr

/-- The refusals. No meaning of this model refuses. -/
inductive Refusal where
  /-- raised by an arm of `exec` whose command has no meaning yet (no arm of this model); safe -/
  | notModelled (mnemonic : String)
  deriving DecidableEq, Repr

/-- The machine right after (power-on) reset (10_state.md R33): every register 0, both memories with
nothing written since power-on. The capacity is the spec's reference value (log 4); `powerUp`, `inputs`
and `outputs` are the model's own (log 3, log 5, log 12). -/
def State.reset : State where
  cfg := Config.reference
  powerUp := 0
  busy := false
  cap := false
  result := .none
  op := 0
  pixelCount := 0
  msgLen := 0
  bitCount := 0
  phase := .start
  k := 0
  sh := 0
  runcnt := 0
  msg := []
  pix := []
  inputs := []
  outputs := []

end Sys2Proof.Machine
end

