-- ==== Sys2Proof/Machine/Ops.lean ====
section
/-! DEFINITION. The named operations over memory and registers that the meanings share: reading and writing a
byte, accepting a command, raising an outcome (this block's "taking an exception"), and the reset input. -/

namespace Sys2Proof.Machine

/-! ## Memories -/

/-- The canonical form of a memory: addresses strictly rising, so no address twice. An unlisted address
has no entry to be equal to (log 2). -/
abbrev Memory.wf (m : Memory) : Prop := m.Pairwise (fun c d => c.1 < d.1)

/-- Every listed address lies below `n`. -/
abbrev Memory.below (m : Memory) (n : Nat) : Prop := ∀ c ∈ m, c.1 < n

/-- What has been written at address `a` since power-on, if anything. -/
def Memory.byteAt? : Memory → Nat → Option Byte
  | [], _ => none
  | (b, v) :: m, a => if a = b then some v else Memory.byteAt? m a

/-- The memory with `v` stored at address `a`, in the canonical form. -/
def Memory.store : Memory → Nat → Byte → Memory
  | [], a, v => [(a, v)]
  | (b, w) :: m, a, v =>
    if a < b then (a, v) :: (b, w) :: m
    else if a = b then (a, v) :: m
    else (b, w) :: Memory.store m a v

/-- The number of bytes of a memory: `PIX_BYTES = 3 * PIX_CAP` and
`MSG_CAP = floor(3 * PIX_CAP / 8)` (00_scope.md R8; 20_memory.md R50). -/
def memSize (c : Config) : MemSpace → Nat
  | .msg => 3 * c.pixCap / 8
  | .pix => 3 * c.pixCap

/-- The memory of a space. -/
def State.mem (s : State) : MemSpace → Memory
  | .msg => s.msg
  | .pix => s.pix

/-- `MemRead(space, a, 1)` (00_scope.md R12), for both agents. An existing byte that nothing has written
since power-on holds its fixed unknown value (10_state.md R33, 93 U4); a byte that does not exist reads 0
(43_host_access.md R156; for the ENGINE log 10). -/
def State.readByte (s : State) (sp : MemSpace) (a : Nat) : Byte :=
  if a < memSize s.cfg sp then
    ((s.mem sp).byteAt? a).getD (Config.powerOnByte s.powerUp sp a)
  else 0

/-- `MemWrite(space, a, 1, v)` (00_scope.md R12), for both agents. A write to a byte that does not exist
is ignored (43_host_access.md R156; for the ENGINE log 10). -/
def State.writeByte (s : State) (sp : MemSpace) (a : Nat) (v : Byte) : State :=
  if a < memSize s.cfg sp then
    match sp with
    | .msg => { s with msg := s.msg.store a v }
    | .pix => { s with pix := s.pix.store a v }
  else s

/-! ## Bits -/

/-- A bit as the byte 0 or 1. -/
def bitByte (b : Bool) : Byte := if b then 1 else 0

/-- The LSB of a channel, `channel & 1` (42_extract.md R121). -/
def lsbByte (v : Byte) : Byte := v &&& 1

/-- `new_channel = (old_channel & 0xFE) | bit` (41_embed.md R105). -/
def substitute (old : Byte) (bit : Bool) : Byte := (old &&& 0xFE) ||| bitByte bit

/-- Shift a collected bit in: `(ch << 1) | bit` in 8 bits (42_extract.md R120, R133). -/
def shiftIn (ch bit : Byte) : Byte := (ch <<< 1) ||| bit

/-! ## Accepting a command, raising an outcome, reset -/

/-- Acceptance of a legal word with operation code `op` (43_host_access.md R152, the `else` branch). -/
def State.accept (s : State) (op : BitVec 4) : State :=
  { s with op := op, cap := false, result := .none, busy := true,
           phase := .start, k := 0, sh := 0, runcnt := 0 }

/-- `CAP <- b`. -/
def State.setCap (s : State) (b : Bool) : State := { s with cap := b }

/-- `MSG_LEN <- n`, of a natural number that fits the register. -/
def State.setMsgLen (s : State) (n : Nat) : State := { s with msgLen := BitVec.ofNat 32 n }

/-- `RUNCNT <- r`. -/
def State.setRuncnt (s : State) (r : BitVec 3) : State := { s with runcnt := r }

/-- `PHASE <- RUN`: the checks have passed and the channel walk begins (41_embed.md R111;
42_extract.md R133). -/
def State.toRun (s : State) : State := { s with phase := .run }

/-- What the outside does next becomes `l` (log 5). -/
def State.setInputs (s : State) (l : List Input) : State := { s with inputs := l }

/-- TAKING AN EXCEPTION, in this block's sense: `raise <Outcome>` ends the command with
`STATUS.RESULT <- code`, `STATUS.BUSY <- 0` and nothing else; there is no vector, nothing is saved and no
mode changes (00_scope.md R12; 60_exceptions.md R179). There is no return instruction: the outcome stays
in `STATUS` until the next accepted `CMD` write (60_exceptions.md R180). -/
def State.raise (s : State) (r : ResultCode) : State :=
  { s with result := r, busy := false }

/-- An illegal command word, written while idle, raises `BAD_CMD` in the write itself: `OP` takes the low
four bits, `CAP` is cleared, nothing starts (30_encoding.md R73; 43_host_access.md R152;
60_exceptions.md R173). -/
def State.rejectCommand (s : State) (w : Word) : State :=
  ({ s with op := opField w, cap := false } : State).raise .badCmd

/-- The `Reset` step (70_reset_and_hazards.md R190): every register, field and internal register takes the
value of 10_state.md R33; the memories keep what they hold (R192). The configuration, and what the
outside does next, are not the block's to reset (log 14). -/
def State.resetInput (s : State) : State :=
  { s with busy := false, cap := false, result := .none, op := 0,
           pixelCount := 0, msgLen := 0, bitCount := 0,
           phase := .start, k := 0, sh := 0, runcnt := 0 }

/-- A power-on with its reset: the registers as after any reset, and every byte of both memories a fixed
unknown value again (10_state.md R33), that of the next power-up (log 3, log 14). -/
def State.powerOnReset (s : State) : State :=
  { s.resetInput with powerUp := s.powerUp + 1, msg := [], pix := [] }

/-- Busy gating of a host write (43_host_access.md R155; 60_exceptions.md R178 item 1): while `BUSY` is 1
it is ignored. -/
def State.whenIdle (s : State) (t : State) : State := if s.busy then s else t

end Sys2Proof.Machine
end

