-- ==== Sys2Proof/Machine/Operands.lean ====
section
/-! DEFINITION. The operands of the commands (30_encoding.md R71): the counts, the Framed Payload, the Bit
Stream, and the chunks of the collected bits. All counts are natural numbers: no rule lets one wrap
(40_capacity.md R92). -/

namespace Sys2Proof.Machine

/-! ## The constants of 00_scope.md R7 -/

/-- `CHANNELS`: channels per pixel. -/
def channelsPerPixel : Nat := 3

/-- `CHAR_BITS`: bits per payload character. -/
def charBits : Nat := 8

/-- `TERM_LEN`: characters in the terminator. -/
def termLen : Nat := 4

/-- The byte value of the terminator's character `#` (00_scope.md R7; log 13). -/
def hashChar : Byte := 0x23

/-! ## Addresses -/

/-- The byte address in PIX, and channel index, of channel `c` of pixel `p` (20_memory.md R52). -/
def channelIndex (p c : Nat) : Nat := 3 * p + c

/-! ## Operand registers -/

/-- `N`, the number of pixels of the Pixel Sequence (10_state.md R23). -/
def State.pixels (s : State) : Nat := s.pixelCount.toNat

/-- `L`, the Payload length of EMBED (10_state.md R24). -/
def State.payloadLen (s : State) : Nat := s.msgLen.toNat

/-- `B = 8 * (L + 4)`, the bit count of the Framed Payload (41_embed.md R102; 40_capacity.md R95). -/
def State.framedBits (s : State) : Nat := charBits * (s.payloadLen + termLen)

/-- `C = (3 * N) div 8`, the number of whole chunks (42_extract.md). -/
def State.wholeChunks (s : State) : Nat := channelsPerPixel * s.pixels / charBits

/-- `M = 8 * C`, the number of channel bits in whole chunks (42_extract.md); the bits from `M` up are
discarded (R128, log 11). -/
def State.chunkBits (s : State) : Nat := charBits * s.wholeChunks

/-! ## EMBED's input -/

/-- `F[j]`, character `j` of the Framed Payload: `MSG[j]` below `L`, then the terminator, which the ENGINE
supplies itself (41_embed.md R101). -/
def State.framedByte (s : State) (j : Nat) : Byte :=
  if j < s.payloadLen then s.readByte .msg j else hashChar

/-- `S[k] = F[k div 8][7 - (k mod 8)]`, bit number `k` of the Bit Stream (41_embed.md R103). -/
def State.streamBit (s : State) (k : Nat) : Bool :=
  (s.framedByte (k / 8)).getLsbD (7 - k % 8)

/-! ## EXTRACT's input -/

/-- Chunk `j` of the collected bits: `PIX[8j + i] & 1` for `i` from 0 to 7 shifted in, the first one ending
as the MSB (42_extract.md R120, R122). -/
def State.chunk (s : State) (j : Nat) : Byte :=
  (List.range 8).foldl (fun ch i => shiftIn ch (lsbByte (s.readByte .pix (8 * j + i)))) 0

end Sys2Proof.Machine
end

