-- ==== Sys2Proof/Machine/Flags.lean ====
section
/-! DEFINITION. The flags: the fields of `STATUS` and its word (10_state.md R22, R27), the Capacity Planner's
answer, and EXTRACT's terminator checks. -/

namespace Sys2Proof.Machine

/-- The code of an outcome (60_exceptions.md R170). -/
def ResultCode.code : ResultCode → BitVec 3
  | .none => 0
  | .ok => 1
  | .capacityError => 2
  | .notFound => 3
  | .badCmd => 4
  | .badConfig => 5

/-- `STATUS = BUSY | (CAP << 1) | (RESULT << 4) | (OP << 8)`; every other bit reads 0 (10_state.md R22). -/
def State.statusWord (s : State) : Word :=
  (BitVec.ofBool s.busy).setWidth 32
    ||| ((BitVec.ofBool s.cap).setWidth 32 <<< 1)
    ||| (s.result.code.setWidth 32 <<< 4)
    ||| (s.op.setWidth 32 <<< 8)

/-- The Capacity Planner, `cap_ok(bits, pixels) = (bits <= 3 * pixels)`, exact over the natural numbers
(40_capacity.md R90, R92). -/
def capOk (bits pixels : Nat) : Bool := decide (bits ≤ channelsPerPixel * pixels)

/-- EXTRACT's run counter after a chunk of value `ch` (42_extract.md R133: `rc`). -/
def nextRun (runcnt : BitVec 3) (ch : Byte) : BitVec 3 := if ch = hashChar then runcnt + 1 else 0

/-- The terminator check after chunk `j` (42_extract.md R124): at least four characters accumulated, and
the trailing four all 0x23. -/
def State.terminatorAt (s : State) (j : Nat) : Bool :=
  decide (3 ≤ j) && (s.readByte .msg (j - 3) == hashChar) && (s.readByte .msg (j - 2) == hashChar)
    && (s.readByte .msg (j - 1) == hashChar) && (s.readByte .msg j == hashChar)

/-- The check of EMBED and EXTRACT that guards the memories, `PIXEL_COUNT > PIX_CAP`
(60_exceptions.md R174). -/
def State.tooManyPixels (s : State) : Bool := decide (s.cfg.pixCap < s.pixels)

end Sys2Proof.Machine
end

