-- ==== Sys2Proof/Machine/Capacity.lean ====
section
/-! DEFINITION. The command CHKCAP at both levels (40_capacity.md). -/

namespace Sys2Proof.Machine

/-- What CHKCAP does once accepted: `CAP` takes the planner's answer on `BIT_COUNT` and `PIXEL_COUNT`, any
two 32-bit values, and the outcome is `OK` either way (40_capacity.md R91, R93). -/
def State.reportCapacity (s : State) : State :=
  (s.setCap (capOk s.bitCount.toNat s.pixels)).raise .ok

/-- `CHKCAP`, result level (40_capacity.md R91), with the busy gating of every `CMD` write. -/
def execChkcap (s : State) : Host.Outcome State Fault Refusal :=
  .next (s.whenIdle (s.accept (opOf .chkcap)).reportCapacity)

/-- The one ENGINE step of CHKCAP (40_capacity.md R94). In phase `RUN`, which CHKCAP never reaches, it is
the same step (log 9). -/
def chkcapEngineStep (s : State) : State := s.reportCapacity

end Sys2Proof.Machine
end

