-- ==== Sys2Proof/Machine/Embed.lean ====
section
/-! DEFINITION. The command EMBED at both levels (41_embed.md). -/

namespace Sys2Proof.Machine

/-- One channel of the walk (41_embed.md R104, R105): bit `S[k]` of the stream goes to bit 0 of `PIX[k]`,
and the cursor moves on. -/
def State.embedChannel (s : State) (k : Nat) : State :=
  { s.writeByte .pix k (substitute (s.readByte .pix k) (s.streamBit k)) with k := s.k + 1 }

/-- The channel walk of 41_embed.md R100: `k` = 0, 1, ..., `n - 1` in ascending order. -/
def State.embedWalk (s : State) (n : Nat) : State := (List.range n).foldl State.embedChannel s

/-- EMBED's checks in the order of 60_exceptions.md R178: `BAD_CONFIG` (41_embed.md R108), then
`CAPACITY_ERROR` (R102), each before any write but to `STATUS`; else `CAP` is set, the walk may begin, and
the command goes on as `go` says. -/
def State.embedChecked (s : State) (go : State → State) : State :=
  if s.tooManyPixels then s.raise .badConfig
  else if !capOk s.framedBits s.pixels then s.raise .capacityError
  else go (s.setCap true).toRun

/-- The effect of an accepted EMBED, result level (41_embed.md R100). -/
def State.embedResult (s : State) : State :=
  s.embedChecked fun t => (t.embedWalk t.framedBits).raise .ok

/-- `EMBED`, result level (41_embed.md R100), with the busy gating of every `CMD` write. -/
def execEmbed (s : State) : Host.Outcome State Fault Refusal :=
  .next (s.whenIdle (s.accept (opOf .embed)).embedResult)

/-- One ENGINE step of EMBED (41_embed.md R111): the checks in phase `START`; in phase `RUN` one channel,
and the end after bit `B - 1`. -/
def embedEngineStep (s : State) : State :=
  match s.phase with
  | .start => s.embedChecked id
  | .run =>
    let t := s.embedChannel s.k.toNat
    if s.k.toNat = s.framedBits - 1 then t.raise .ok else t

end Sys2Proof.Machine
end

