-- ==== Sys2Proof/Machine/Extract.lean ====
section
/-! DEFINITION. The command EXTRACT at both levels (42_extract.md). -/

namespace Sys2Proof.Machine

/-- The end of an EXTRACT whose terminator ends at chunk `j`: `MSG_LEN <- j - 3` and outcome `OK`; the
terminator is stripped by the length alone (42_extract.md R125). -/
def State.matchedAt (s : State) (j : Nat) : State :=
  (s.setMsgLen (j - 3)).raise .ok

/-- The end of an EXTRACT that found no terminator: `MSG_LEN <- 0` and outcome `NOT_FOUND`
(42_extract.md R126). -/
def State.exhausted (s : State) : State :=
  (s.setMsgLen 0).raise .notFound

/-- A decoded character `ch` is appended to the accumulator, `MSG[j] <- ch` (42_extract.md R123, R124). The
internal registers take the values the ENGINE has after the chunk's last channel (R133; log 8). -/
def State.appendChunk (s : State) (j : Nat) (ch : Byte) : State :=
  { s.writeByte .msg j ch with
      k := BitVec.ofNat 32 (8 * (j + 1)), sh := ch, runcnt := nextRun s.runcnt ch }

/-- The loop of 42_extract.md R120 from chunk `j` on, `n` chunks being left: decode a chunk, append it,
check the trailing four characters; stop at the first match, and report exhaustion when no chunk is
left. -/
def State.extractScan : Nat → Nat → State → State
  | 0, _, s => s.exhausted
  | n + 1, j, s =>
    if (s.appendChunk j (s.chunk j)).terminatorAt j then (s.appendChunk j (s.chunk j)).matchedAt j
    else State.extractScan n (j + 1) (s.appendChunk j (s.chunk j))

/-- EXTRACT's one check (42_extract.md R130): `BAD_CONFIG` before any PIX byte is read; else the scan may
begin, and the command goes on as `go` says. -/
def State.extractChecked (s : State) (go : State → State) : State :=
  if s.tooManyPixels then s.raise .badConfig else go s.toRun

/-- The effect of an accepted EXTRACT, result level (42_extract.md R120). -/
def State.extractResult (s : State) : State :=
  s.extractChecked fun t => State.extractScan t.wholeChunks 0 t

/-- `EXTRACT`, result level (42_extract.md R120), with the busy gating of every `CMD` write. -/
def execExtract (s : State) : Host.Outcome State Fault Refusal :=
  .next (s.whenIdle (s.accept (opOf .extract)).extractResult)

/-- One channel collected (42_extract.md R133): its LSB is shifted into `SH`, the cursor moves on. -/
def State.collect (s : State) : State :=
  { s with sh := shiftIn s.sh (lsbByte (s.readByte .pix s.k.toNat)), k := s.k + 1 }

/-- `SH` holds a complete chunk, number `j`: it is stored, the run is counted, and four in a row end the
command (42_extract.md R133). -/
def State.completeChunk (s : State) (j : Nat) : State :=
  let t := (s.writeByte .msg j s.sh).setRuncnt (nextRun s.runcnt s.sh)
  if nextRun s.runcnt s.sh = 4 then t.matchedAt j else t

/-- One ENGINE step of EXTRACT (42_extract.md R133): the check in phase `START`; in phase `RUN` exhaustion
at `K = M`, or one channel and, after the eighth of a chunk, the chunk. -/
def extractEngineStep (s : State) : State :=
  match s.phase with
  | .start => s.extractChecked id
  | .run =>
    if s.k.toNat = s.chunkBits then s.exhausted
    else if s.k.toNat % 8 = 7 then s.collect.completeChunk (s.k.toNat / 8)
    else s.collect

end Sys2Proof.Machine
end

