-- ==== Sys2Proof/Machine/Engine.lean ====
section
/-! DEFINITION. The ENGINE: one `EngineStep`, and a number of them in a row (43_host_access.md R157). -/

namespace Sys2Proof.Machine

/-- The ENGINE step of a command. -/
def engineStepOf : Instr → State → State
  | .chkcap => chkcapEngineStep
  | .embed => embedEngineStep
  | .extract => extractEngineStep

/-- One `EngineStep` (43_host_access.md R157): with `BUSY = 0` the ENGINE does nothing; with `BUSY = 1`
`STATUS.OP` selects the operation (10_state.md R27). No state a run reaches has `BUSY = 1` and another
`OP`; there the ENGINE does nothing (log 9). -/
def State.engineStep (s : State) : State :=
  if s.busy then
    match ofOp s.op with
    | some i => engineStepOf i s
    | none => s
  else s

/-- `n` ENGINE steps in a row. -/
def State.engineRun : Nat → State → State
  | 0, s => s
  | n + 1, s => State.engineRun n s.engineStep

end Sys2Proof.Machine
end

