-- ==== Sys2Proof/Machine/Port.lean ====
section
/-! DEFINITION. The host port: register and memory accesses, command acceptance (43_host_access.md), and the
host-script notation with the source's calls as host steps (30_encoding.md R76, R77; R159). -/

namespace Sys2Proof.Machine

/-- `HostRead(REG, i)` (43_host_access.md R150, R156): allowed at any time, returns the current value. -/
def State.readReg (s : State) : Nat → Word
  | 0 => 0
  | 1 => s.statusWord
  | 2 => s.pixelCount
  | 3 => s.msgLen
  | 4 => s.bitCount
  | _ + 5 => 0

/-- A value a host read returned goes to the HOST; the block is unchanged (43_host_access.md R150, R153). -/
def State.output (s : State) (v : HostData) : State := { s with outputs := v :: s.outputs }

/-- Command acceptance, the step level (43_host_access.md R152): a legal word starts its command, an
illegal one raises `BAD_CMD`. -/
def State.writeCmd (s : State) (w : Word) : State :=
  match decode w with
  | .ok i => s.accept (opOf i)
  | .error _ => s.rejectCommand w

/-- `HostWrite(REG, i, v)` (43_host_access.md R151, R155, R156). `STATUS` is read only and indexes 5 and
above are reserved: writes there are ignored. -/
def State.writeReg (s : State) (i : Nat) (v : Word) : State :=
  s.whenIdle <| match i with
    | 0 => s.writeCmd v
    | 1 => s
    | 2 => { s with pixelCount := v }
    | 3 => { s with msgLen := v }
    | 4 => { s with bitCount := v }
    | _ + 5 => s

/-- `HostWrite(MSG, a, v)` or `HostWrite(PIX, a, v)` (43_host_access.md R154, R155, R156). -/
def State.writeMem (s : State) (sp : MemSpace) (a : Nat) (v : Byte) : State :=
  s.whenIdle (s.writeByte sp a v)

/-- One round of `wait` (30_encoding.md R77): a read of `STATUS`; if it shows `BUSY = 1` the HOST reads
again, and one ENGINE step is scheduled in between (log 7). -/
def State.poll (s : State) : State :=
  if s.busy then (s.output (.word s.statusWord)).setInputs (.engine :: .wait :: s.inputs)
  else s.output (.word s.statusWord)

/-! ## Host scripts -/

/-- `wrb <space>, a, b0`; `wrb <space>, a + 1, b1`; ... -/
def storeBytes (sp : MemSpace) : Nat → List Byte → List Input
  | _, [] => []
  | a, v :: vs => .writeMem sp a v :: storeBytes sp (a + 1) vs

/-- The expansion of a host-script line into host steps (30_encoding.md R76, R77). DESIGN CHOICE (log 18): of a line
that fails `HostLine.wf`, for which the spec gives no host steps, it is still what the table reads like: an
`ldpix` of any number of bytes stores them all, an `ldmsg` stores each character's code mod 256, and a length
beyond 32 bits is written mod 2^32. Unsafe for such a line. -/
def expandLine : HostLine → List Input
  | .wr reg v => [.writeReg reg v]
  | .rd reg => [.readReg reg]
  | .wrb sp a v => [.writeMem sp a v]
  | .rdb sp a => [.readMem sp a]
  | .cmd i => [.writeReg 0 (encode i)]
  | .ldpix bytes => storeBytes .pix 0 bytes
  | .setn n => [.writeReg 2 n]
  | .ldmsg text =>
    storeBytes .msg 0 (text.map fun c => BitVec.ofNat 8 c.toNat)
      ++ [.writeReg 3 (BitVec.ofNat 32 text.length)]
  | .ldmsgb bytes => storeBytes .msg 0 bytes ++ [.writeReg 3 (BitVec.ofNat 32 bytes.length)]
  | .setbits b => [.writeReg 4 b]
  | .wait => [.wait]
  | .expect _ => []

/-- Whether what an `expect` line states is right in `s`: "states the value the rules give at that point"
(30_encoding.md R77). Of a register or a byte it is the value a host read would return there
(43_host_access.md R150, R153). -/
def State.meets (s : State) : Expectation → Bool
  | .reg i v => s.readReg i == v
  | .mem sp a v => s.readByte sp a == v
  | .lastWord v => s.outputs.head? == some (.word v)
  | .lastByte v => s.outputs.head? == some (.byte v)

/-- Whether a line states nothing wrong in `s`; only an `expect` line states anything. -/
def State.lineHolds (s : State) : HostLine → Bool
  | .wr _ _ => true
  | .rd _ => true
  | .wrb _ _ _ => true
  | .rdb _ _ => true
  | .cmd _ => true
  | .ldpix _ => true
  | .setn _ => true
  | .ldmsg _ => true
  | .ldmsgb _ => true
  | .setbits _ => true
  | .wait => true
  | .expect e => s.meets e

/-- The host steps of a script. -/
def expandScript (script : List HostLine) : List Input := script.flatMap expandLine

/-- The source call `check_capacity(b, n)` as host steps (43_host_access.md R159). -/
def checkCapacityCall (b n : Word) : List HostLine := [.setbits b, .setn n, .cmd .chkcap, .wait]

/-- The source call `embed(pixels, message)` as host steps, up to its outcome (43_host_access.md R159).
DESIGN CHOICE (log 15): the spec gives no step for a Pixel Sequence of 2^32 or more pixels, whose count does
not fit `PIXEL_COUNT`, nor for a message of 2^32 or more bytes, whose length does not fit `MSG_LEN`; here the count or
length written is then taken mod 2^32. A list of channels that is no whole number of pixels is written whole and
counted without the rest (log 18). Unsafe for such calls. -/
def embedCall (channels message : List Byte) : List HostLine :=
  [.ldpix channels, .setn (BitVec.ofNat 32 (channels.length / 3)), .ldmsgb message, .cmd .embed, .wait]

/-- The source call `extract(pixels)` as host steps, up to its outcome (43_host_access.md R159). DESIGN CHOICE
(log 15): the count of 2^32 or more pixels is written mod 2^32, as in `embedCall`, and so is a list of channels
that is no whole number of pixels treated as there (log 18). Unsafe for such calls. -/
def extractCall (channels : List Byte) : List HostLine :=
  [.ldpix channels, .setn (BitVec.ofNat 32 (channels.length / 3)), .cmd .extract, .wait]

/-- Reading `n` bytes of a memory back from address 0, as the HOST does after an `OK` outcome
(43_host_access.md R159). -/
def readBack (sp : MemSpace) (n : Nat) : List HostLine := (List.range n).map (HostLine.rdb sp)

end Sys2Proof.Machine
end

