-- ==== Sys2Proof/Machine/Events.lean ====
section
/-! DEFINITION. What one entry of `inputs` does to the block: the four kinds of step of 43_host_access.md, the
`wait` of the host notation, and a command taken at the result level. -/

namespace Sys2Proof.Machine

/-- A command word at the result level (43_host_access.md R152, last paragraph): a legal word runs its
command whole, an illegal one raises `BAD_CMD`; while `BUSY` is 1 the write is ignored (R155). -/
def State.command (s : State) (w : Word) : Host.Outcome State Fault Refusal :=
  match decode w with
  | .ok i => exec i s
  | .error _ => .next (s.whenIdle (s.rejectCommand w))

/-- The step of one input, which has been taken off the list. -/
def State.consume (s : State) : Input → Host.Outcome State Fault Refusal
  | .readReg i => .next (s.output (.word (s.readReg i)))
  | .readMem sp a => .next (s.output (.byte (s.readByte sp a)))
  | .writeReg i v => .next (s.writeReg i v)
  | .writeMem sp a v => .next (s.writeMem sp a v)
  | .engine => .next s.engineStep
  | .reset => .next s.resetInput
  | .powerOn => .next s.powerOnReset
  | .wait => .next s.poll
  | .command w => s.command w

/-- The next step of the machine: the outside's next entry; with none left, the ENGINE steps while `BUSY`
is 1 and the block stays idle otherwise (43_host_access.md R157; 60_exceptions.md R183; log 5). -/
def State.advance (s : State) : Host.Outcome State Fault Refusal :=
  match s.inputs with
  | [] => .next s.engineStep
  | i :: rest => (s.setInputs rest).consume i

/-- The state in which the very next step runs the command word `w`: the block idle, for a busy one ignores
the write (43_host_access.md R155), and the word's write the outside's next entry (log 6). -/
def State.presentWord (s : State) (w : Word) : State :=
  ({ s with busy := false } : State).setInputs (.command w :: s.inputs)

end Sys2Proof.Machine
end

