-- ==== Sys2Proof/Machine/Step.lean ====
section
/-! DEFINITION. One step of the machine, and how a command word is put where the next step takes it. -/

namespace Sys2Proof.Machine

/-- One atomic step (20_memory.md R60). -/
def step (s : State) : Host.Outcome State Fault Refusal := s.advance

/-- `s` with the table word `w` presented as the next command (log 6). -/
def State.withFetchWord (s : State) (nbits w : Nat) : State :=
  s.presentWord (BitVec.ofNat 32 (w % 2 ^ nbits))

end Sys2Proof.Machine
end

