-- ==== Sys2Proof/Machine/Script.lean ====
section
/-! DEFINITION. Running host-script lines one after another, and whether what their `expect` lines state is
right where they stand (30_encoding.md R76, R77). -/

namespace Sys2Proof.Machine

/-- At most `n` steps, until the outside has nothing left to do. No step faults or refuses. -/
def State.drain : Nat → State → State
  | 0, s => s
  | n + 1, s =>
    match s.inputs with
    | [] => s
    | _ :: _ =>
      match step s with
      | .next t => State.drain n t
      | .fault _ => s
      | .refused _ => s

/-- Steps enough for the host steps of a line: one each, and two for every ENGINE step a `wait` can meet, of
which there are at most `2 + 3 * PIX_CAP` (70_reset_and_hazards.md R204; log 7). -/
def lineSteps (c : Config) (line : HostLine) : Nat :=
  (expandLine line).length + 2 * (2 + 3 * c.pixCap)

/-- The state after the host steps of one line, with nothing left for the outside to do. DESIGN CHOICE (log 18): a
line that fails `HostLine.wf` is run as `expandLine` expands it; whoever runs single lines checks them first. Unsafe
for such a line. -/
def State.runLine (s : State) (line : HostLine) : State :=
  State.drain (lineSteps s.cfg line) (s.setInputs (expandLine line))

/-- Whether every `expect` line of a script states the value the rules give at its point, the lines before it
having run from `s`. A script with an ill-formed line is refused: it holds in no state
(93_implementation_defined.md U1 for a character above 127; for the other checks DESIGN CHOICE, log 18). -/
def State.scriptHolds (s : State) : List HostLine → Bool
  | [] => true
  | line :: rest => line.wf && s.lineHolds line && (s.runLine line).scriptHolds rest

end Sys2Proof.Machine
end

