-- ==== Sys2Proof/Machine/Calls.lean ====
section
/-! DEFINITION. The call AND RETURN of the source's three functions as host steps (43_host_access.md R159): the
lines of the call up to its `wait`, then what the HOST does and reports by the outcome it read. -/

namespace Sys2Proof.Machine

/-! ## What the HOST makes of the values it has read -/

/-- The field `CAP` of a `STATUS` word (10_state.md R22). -/
def capOf (status : Word) : Bool := status.getLsbD 1

/-- The field `RESULT` of a `STATUS` word (10_state.md R22). -/
def resultOf (status : Word) : BitVec 3 := status.extractLsb' 4 3

/-- The word the last host read returned; after a `wait` it is "the command's status" (30_encoding.md R77). The
calls ask for it only after a `wait` or an `rd`, so the value for "no word" is never used. -/
def State.lastWord (s : State) : Word :=
  match s.outputs with
  | .word w :: _ => w
  | .byte _ :: _ => 0
  | [] => 0

/-- The byte of a value read from MSG or PIX. -/
def HostData.byte? : HostData → Option Byte
  | .word _ => none
  | .byte v => some v

/-- The bytes the last `n` host reads returned, in the order of the reads. -/
def State.lastBytes (s : State) (n : Nat) : List Byte := ((s.outputs.take n).filterMap HostData.byte?).reverse

/-- The state after the lines of a script, one after another. -/
def State.runLines (s : State) (lines : List HostLine) : State := lines.foldl State.runLine s

/-! ## Returns -/

/-- What a source call returns (43_host_access.md R159). -/
inductive CallReturn where
  /-- the `bool` of `check_capacity` -/
  | bool (b : Bool)
  /-- the new Pixel Sequence of `embed`, channel by channel -/
  | pixels (channels : List Byte)
  /-- the string of `extract` -/
  | payload (chars : List Byte)
  /-- `CapacityError` -/
  | capacityError
  /-- `NotFound` -/
  | notFound
  /-- an outcome for which R159 gives no return, by its code: `BAD_CONFIG` (log 17) -/
  | otherOutcome (code : BitVec 3)
  deriving DecidableEq, Repr

/-- The return of `check_capacity`: "the `bool` is `STATUS.CAP`". -/
def State.checkCapacityReturn (s : State) : CallReturn × State := (.bool (capOf s.lastWord), s)

/-- The return of `embed` on `n` pixels: on `OK` the HOST reads `PIX[0 .. 3n - 1]` back as the new Pixel Sequence,
on `CAPACITY_ERROR` it reports `CapacityError`. DESIGN CHOICE (log 17): any other outcome is reported by its
code. -/
def State.embedReturn (s : State) (n : Nat) : CallReturn × State :=
  if resultOf s.lastWord = ResultCode.ok.code then
    (.pixels ((s.runLines (readBack .pix (3 * n))).lastBytes (3 * n)), s.runLines (readBack .pix (3 * n)))
  else if resultOf s.lastWord = ResultCode.capacityError.code then (.capacityError, s)
  else (.otherOutcome (resultOf s.lastWord), s)

/-- The read-back of a Payload: `MSG[0 .. MSG_LEN - 1]`, `MSG_LEN` being the word just read. -/
def State.payloadReturn (s : State) : CallReturn × State :=
  (.payload ((s.runLines (readBack .msg s.lastWord.toNat)).lastBytes s.lastWord.toNat),
    s.runLines (readBack .msg s.lastWord.toNat))

/-- The return of `extract`: on `OK` the HOST reads `MSG_LEN`, then `MSG[0 .. MSG_LEN - 1]` as the string, on
`NOT_FOUND` it reports `NotFound`. DESIGN CHOICE (log 17): any other outcome is reported by its code. -/
def State.extractReturn (s : State) : CallReturn × State :=
  if resultOf s.lastWord = ResultCode.ok.code then (s.runLine (.rd 3)).payloadReturn
  else if resultOf s.lastWord = ResultCode.notFound.code then (.notFound, s)
  else (.otherOutcome (resultOf s.lastWord), s)

/-! ## Calls -/

/-- The source call `check_capacity(b, n)`, its return and the state it leaves. -/
def State.callCheckCapacity (s : State) (b n : Word) : CallReturn × State :=
  (s.runLines (checkCapacityCall b n)).checkCapacityReturn

/-- The source call `embed(pixels, message)`, its return and the state it leaves. DESIGN CHOICE (log 15, log 18): the
lines of the call are run without asking `HostLine.wf`. For a message of 2^32 or more bytes the spec gives no
`wr MSG_LEN`; the length is written mod 2^32 and the call goes on, as it does with the number of pixels. Unsafe for
such a call. -/
def State.callEmbed (s : State) (channels message : List Byte) : CallReturn × State :=
  (s.runLines (embedCall channels message)).embedReturn (channels.length / 3)

/-- The source call `extract(pixels)`, its return and the state it leaves. DESIGN CHOICE (log 15, log 18): the lines of
the call are run without asking `HostLine.wf`, and 2^32 or more pixels are counted mod 2^32. Unsafe for such a
call. -/
def State.callExtract (s : State) (channels : List Byte) : CallReturn × State :=
  (s.runLines (extractCall channels)).extractReturn

/-- `extract` of the Pixel Sequence already in PIX, for example the result of an EMBED, which "need not be written
again before an EXTRACT" (43_host_access.md R159). -/
def State.callExtractInPlace (s : State) : CallReturn × State :=
  (s.runLines [.cmd .extract, .wait]).extractReturn

end Sys2Proof.Machine
end

