-- ==== Sys2Proof/Safety.lean ====
section
/-! DEFINITION. What a state must satisfy for the block to be in a legal situation: the invariant every step
keeps, and the terms the statements use. -/

namespace Sys2Proof.Machine

/-- The terminator ends at chunk `e` of the collected bits: "`j >= 3` and `MSG[j - 3]`, `MSG[j - 2]`,
`MSG[j - 1]`, `MSG[j]` are all 0x23" (42_extract.md R124), said of the chunks themselves. -/
abbrev State.closesAt (s : State) (e : Nat) : Prop := 3 ≤ e ∧ ∀ i < 4, s.chunk (e - i) = hashChar

/-- The same of the Framed Payload `F` of an EMBED (42_extract.md R137, R138). -/
abbrev State.framedClosesAt (s : State) (e : Nat) : Prop :=
  3 ≤ e ∧ ∀ i < 4, s.framedByte (e - i) = hashChar

/-- Character `j` of the Framed Payload of a message given as a list (41_embed.md R101). -/
abbrev framedChar (message : List Byte) (j : Nat) : Byte := message.getD j hashChar

/-- Chunk `j` of the LSBs of a Pixel Sequence given as a list of channels (42_extract.md R122). -/
def listChunk (channels : List Byte) (j : Nat) : Byte :=
  (List.range 8).foldl (fun ch i => shiftIn ch (lsbByte (channels.getD (8 * j + i) 0))) 0

/-- The terminator ends at chunk `e` of such a Pixel Sequence (42_extract.md R124). -/
abbrev listClosesAt (channels : List Byte) (e : Nat) : Prop :=
  3 ≤ e ∧ ∀ i < 4, listChunk channels (e - i) = hashChar

/-- Both memories are in the canonical form and list only bytes that exist. -/
abbrev State.MemoryOk (s : State) : Prop :=
  s.msg.wf ∧ s.msg.below (memSize s.cfg .msg) ∧ s.pix.wf ∧ s.pix.below (memSize s.cfg .pix)

/-- `STATUS` is one of the words of 10_state.md R22 and 60_exceptions.md R170: which `RESULT` can stand
beside which `OP`, `CAP` and `BUSY`. -/
abbrev State.StatusOk (s : State) : Prop :=
  (s.busy = true → s.result = .none ∧ (s.op = 1 ∨ s.op = 2 ∨ s.op = 3)
    ∧ (s.cap = true ↔ s.op = 2 ∧ s.phase = .run))
  ∧ (s.busy = false →
      (s.result = .none → s.op = 0 ∧ s.cap = false)
      ∧ (s.result = .ok → s.op = 1 ∨ (s.op = 2 ∧ s.cap = true) ∨ (s.op = 3 ∧ s.cap = false))
      ∧ (s.result = .capacityError → s.op = 2 ∧ s.cap = false)
      ∧ (s.result = .notFound → s.op = 3 ∧ s.cap = false)
      ∧ (s.result = .badCmd → s.cap = false)
      ∧ (s.result = .badConfig → (s.op = 2 ∨ s.op = 3) ∧ s.cap = false))

/-- The ranges of the internal registers (10_state.md R28): `K` is 0 to `3 * PIX_CAP`, `RUNCNT` 0 to 4. -/
abbrev State.RangesOk (s : State) : Prop := s.k.toNat ≤ 3 * s.cfg.pixCap ∧ s.runcnt.toNat ≤ 4

/-- Phase `START` of a running command: acceptance has cleared the internal registers (10_state.md R28),
and CHKCAP is in no other phase (40_capacity.md R94). -/
abbrev State.StartOk (s : State) : Prop :=
  s.busy = true →
    (s.phase = .start → s.k = 0 ∧ s.sh = 0 ∧ s.runcnt = 0) ∧ (s.op = 1 → s.phase = .start)

/-- Phase `RUN` of an EMBED (41_embed.md R111, R112): the checks have passed, `K < B`, and the channels
below `K` carry their bits of the stream. -/
abbrev State.EmbedRunOk (s : State) : Prop :=
  s.busy = true → s.op = 2 → s.phase = .run →
    s.pixels ≤ s.cfg.pixCap ∧ s.framedBits ≤ 3 * s.pixels ∧ s.k.toNat < s.framedBits
    ∧ ∀ i < s.k.toNat, (s.readByte .pix i).getLsbD 0 = s.streamBit i

/-- `RUNCNT` is the number of consecutive decoded characters equal to 0x23 that end at the last of `c`
characters, and no more than 3 while the scan goes on (42_extract.md R135). -/
abbrev State.RunCounts (s : State) (c : Nat) : Prop :=
  s.runcnt.toNat ≤ 3 ∧ s.runcnt.toNat ≤ c
  ∧ (∀ i < s.runcnt.toNat, s.chunk (c - 1 - i) = hashChar)
  ∧ (s.runcnt.toNat < c → s.chunk (c - 1 - s.runcnt.toNat) ≠ hashChar)

/-- Phase `RUN` of an EXTRACT (42_extract.md R133 to R135): the check has passed, `K <= M`, `SH` ends in
the bits collected of the current chunk, MSG holds the decoded characters, no terminator has ended yet,
and `RUNCNT` counts the run. -/
abbrev State.ExtractRunOk (s : State) : Prop :=
  s.busy = true → s.op = 3 → s.phase = .run →
    s.pixels ≤ s.cfg.pixCap ∧ s.k.toNat ≤ s.chunkBits
    ∧ (∀ i < s.k.toNat % 8, s.sh.getLsbD (s.k.toNat % 8 - 1 - i)
        = (s.readByte .pix (8 * (s.k.toNat / 8) + i)).getLsbD 0)
    ∧ (∀ j < s.k.toNat / 8, s.readByte .msg j = s.chunk j)
    ∧ (∀ e < s.k.toNat / 8, ¬ s.closesAt e)
    ∧ s.RunCounts (s.k.toNat / 8)

/-- THE INVARIANT: the parameter is in its range, the memories are canonical, `STATUS` is a legal word, the
internal registers are in their ranges, and a running command is where the step level says it is. -/
abbrev State.Inv (s : State) : Prop :=
  s.cfg.wf ∧ s.MemoryOk ∧ s.StatusOk ∧ s.RangesOk ∧ s.StartOk ∧ s.EmbedRunOk ∧ s.ExtractRunOk

/-- The block alone: everything but what the outside does and has seen. Two states with equal blocks
differ at most in `inputs` and `outputs`. -/
def State.block (s : State) : State := { s with inputs := [], outputs := [] }

end Sys2Proof.Machine
end

