-- ==== Sys2Proof/Certificates/Slice0/Obligations.lean ====
section
/-! DEFINITION. The statements of this model for the provers, one `def Obligations.<Name> : Prop` each. "Idle"
is `busy = false`. Statements about "the next state" are equations with a written-out state, so that they
say what changes and that nothing else does. -/

open Sys2Proof Sys2Proof.Machine

/-! ## Command words -/

/-- 30_encoding.md R72: the opcode map as a set of words, and as match and mask. -/
def Obligations.LegalCommandWordsAreOneTwoThree : Prop :=
  (∀ w : Word, (∃ i, decode w = .ok i) ↔
    (w.toNat / 16 = 0 ∧ (w.toNat % 16 = 1 ∨ w.toNat % 16 = 2 ∨ w.toNat % 16 = 3)))
  ∧ (∀ w : Word, (∃ i, decode w = .ok i) ↔
    (w = 0x00000001#32 ∨ w = 0x00000002#32 ∨ w = 0x00000003#32))
  ∧ (∀ w : Word, decode w = .ok .chkcap ↔ w &&& 0xFFFFFFFF#32 = 0x00000001#32)
  ∧ (∀ w : Word, decode w = .ok .embed ↔ w &&& 0xFFFFFFFF#32 = 0x00000002#32)
  ∧ (∀ w : Word, decode w = .ok .extract ↔ w &&& 0xFFFFFFFF#32 = 0x00000003#32)

/-- Decoder and encoder agree in both directions, and the decoder reads the opcode table's words. -/
def Obligations.EncodeAndDecodeAgree : Prop :=
  (∀ i : Instr, i.wf = true → decode (encode i) = .ok i)
  ∧ (∀ (w : Word) (i : Instr), decode w = .ok i → encode i = w)
  ∧ (∀ (n : Nat) (i : Instr), decodeTableWord 32 n = some i ↔ n % 2 ^ 32 = (encode i).toNat)

/-- A few words written out from the spec's encodings decode to what they stand for, or are rejected by
name (30_encoding.md sections 2 and 3). -/
def Obligations.SampleWordsDecode : Prop :=
  decode 0b00000000000000000000000000000001#32 = .ok .chkcap
  ∧ decode 0b00000000000000000000000000000010#32 = .ok .embed
  ∧ decode 0b00000000000000000000000000000011#32 = .ok .extract
  ∧ decode 0x00000000#32 = .error (.illegalOp 0)
  ∧ decode 0x00000004#32 = .error (.illegalOp 4)
  ∧ decode 0x0000000F#32 = .error (.illegalOp 15)
  ∧ decode 0x00000011#32 = .error .reservedBits
  ∧ decode 0x80000002#32 = .error .reservedBits

/-! ## Steps and the host port -/

/-- A step whose next input is a legal command word at the result level runs the decoded command on the
state with that input taken off; nothing else is added. -/
def Obligations.StepRunsDecodedCommand : Prop :=
  ∀ (s : State) (w : Word) (i : Instr) (rest : List Input),
    s.inputs = .command w :: rest → decode w = .ok i → i.wf = true →
      step s = exec i (s.setInputs rest)

/-- 60_exceptions.md R173: an illegal word written to `CMD` while idle raises `BAD_CMD` in the write step
itself, at both levels. -/
def Obligations.IllegalWordRaisesBadCmd : Prop :=
  ∀ (s : State) (w : Word) (rest : List Input), s.busy = false →
    (w.toNat / 16 ≠ 0 ∨ ¬ (w.toNat % 16 = 1 ∨ w.toNat % 16 = 2 ∨ w.toNat % 16 = 3)) →
    (s.inputs = .writeReg 0 w :: rest ∨ s.inputs = .command w :: rest) →
      step s = .next { s with
        inputs := rest, result := .badCmd, cap := false, op := BitVec.ofNat 4 (w.toNat % 16),
        busy := false }

/-- 43_host_access.md R152: command acceptance of a legal word, at the step level. -/
def Obligations.LegalWordStartsItsCommand : Prop :=
  ∀ (s : State) (w : Word) (rest : List Input), s.busy = false →
    w.toNat / 16 = 0 → (w.toNat % 16 = 1 ∨ w.toNat % 16 = 2 ∨ w.toNat % 16 = 3) →
    s.inputs = .writeReg 0 w :: rest →
      step s = .next { s with
        inputs := rest, op := BitVec.ofNat 4 (w.toNat % 16), cap := false, result := .none, busy := true,
        phase := .start, k := 0, sh := 0, runcnt := 0 }

/-- 43_host_access.md R155: while `BUSY` is 1 every host write is ignored, a command too, at both levels;
and no input but an ENGINE step or a reset changes the block. -/
def Obligations.BusyIgnoresEveryHostWrite : Prop :=
  ∀ s : State, s.busy = true →
    (∀ (i : Nat) (v : Word) (rest : List Input), s.inputs = .writeReg i v :: rest →
      step s = .next (s.setInputs rest))
    ∧ (∀ (sp : MemSpace) (a : Nat) (v : Byte) (rest : List Input), s.inputs = .writeMem sp a v :: rest →
      step s = .next (s.setInputs rest))
    ∧ (∀ (w : Word) (rest : List Input), s.inputs = .command w :: rest →
      step s = .next (s.setInputs rest))
    ∧ (∀ i : Instr, exec i s = .next s)
    ∧ (∀ (i : Input) (rest : List Input) (t : State), s.inputs = i :: rest →
      i ≠ .engine → i ≠ .reset → i ≠ .powerOn → step s = .next t → t.block = s.block)

/-- 43_host_access.md R150: what a read of each register index returns, and that it changes nothing (the
outside gets the value); an EXTRACT leaves `MSG_LEN` as it was until the step that ends it. -/
def Obligations.RegisterReadsReturnCurrentValues : Prop :=
  (∀ (s : State) (i : Nat) (rest : List Input), s.inputs = .readReg i :: rest →
    step s = .next { s with
      inputs := rest
      outputs := .word (
        if i = 1 then
          BitVec.ofNat 32 (s.busy.toNat + 2 * s.cap.toNat + 16 * s.result.code.toNat + 256 * s.op.toNat)
        else if i = 2 then s.pixelCount
        else if i = 3 then s.msgLen
        else if i = 4 then s.bitCount
        else 0) :: s.outputs })
  ∧ (∀ s : State, s.busy = true → s.op = 3 → s.engineStep.busy = true →
    s.engineStep.msgLen = s.msgLen)

/-- 43_host_access.md R151: what a write of each register index does. -/
def Obligations.RegisterWritesStoreOrAreIgnored : Prop :=
  ∀ (s : State) (i : Nat) (v : Word) (rest : List Input), s.inputs = .writeReg i v :: rest →
    (s.busy = false → i = 2 → step s = .next { s with inputs := rest, pixelCount := v })
    ∧ (s.busy = false → i = 3 → step s = .next { s with inputs := rest, msgLen := v })
    ∧ (s.busy = false → i = 4 → step s = .next { s with inputs := rest, bitCount := v })
    ∧ (s.busy = false → i = 0 →
        (∀ j, decode v = .ok j → step s = .next ((s.setInputs rest).accept (opOf j)))
        ∧ (∀ e, decode v = .error e →
            step s = .next ((s.setInputs rest).rejectCommand v)))
    ∧ (i = 1 ∨ 5 ≤ i → step s = .next (s.setInputs rest))
    ∧ (s.busy = true → step s = .next (s.setInputs rest))

/-- 43_host_access.md R153 and 10_state.md R33: a read of an existing byte returns what was last written
there, or the byte's fixed power-on value if nothing was; it changes nothing. -/
def Obligations.MemoryReadsReturnCurrentByte : Prop :=
  ∀ (s : State) (sp : MemSpace) (a : Nat) (rest : List Input), s.MemoryOk →
    s.inputs = .readMem sp a :: rest → a < memSize s.cfg sp →
      (∀ v, (a, v) ∈ s.mem sp →
        step s = .next { s with inputs := rest, outputs := .byte v :: s.outputs })
      ∧ ((∀ v, (a, v) ∉ s.mem sp) →
        step s = .next { s with
          inputs := rest, outputs := .byte (Config.powerOnByte s.powerUp sp a) :: s.outputs })

/-- 43_host_access.md R154: a write of an existing byte while idle stores it, and nothing else changes: no
other byte of either memory, and no register. While busy the write is ignored. -/
def Obligations.MemoryWritesStoreOneByte : Prop :=
  ∀ (s : State) (sp : MemSpace) (a : Nat) (v : Byte) (rest : List Input),
    s.inputs = .writeMem sp a v :: rest → a < memSize s.cfg sp →
      (s.busy = false → s.MemoryOk →
        ∃ t, step s = .next t
          ∧ t = { s with inputs := rest, msg := t.msg, pix := t.pix }
          ∧ t.readByte sp a = v
          ∧ ∀ (sq : MemSpace) (b : Nat), (sq, b) ≠ (sp, a) → t.readByte sq b = s.readByte sq b)
      ∧ (s.busy = true → step s = .next (s.setInputs rest))

/-- 43_host_access.md R156: locations that do not exist read 0 and ignore writes, with no outcome; the
bytes of PIX above the current Pixel Sequence do exist. -/
def Obligations.AbsentLocationsReadZeroIgnoreWrites : Prop :=
  ∀ (s : State) (rest : List Input),
    (∀ i, 5 ≤ i → s.inputs = .readReg i :: rest →
      step s = .next { s with inputs := rest, outputs := .word 0 :: s.outputs })
    ∧ (∀ i v, 5 ≤ i → s.inputs = .writeReg i v :: rest → step s = .next (s.setInputs rest))
    ∧ (∀ a, 3 * s.cfg.pixCap / 8 ≤ a → s.inputs = .readMem .msg a :: rest →
      step s = .next { s with inputs := rest, outputs := .byte 0 :: s.outputs })
    ∧ (∀ a v, 3 * s.cfg.pixCap / 8 ≤ a → s.inputs = .writeMem .msg a v :: rest →
      step s = .next (s.setInputs rest))
    ∧ (∀ a, 3 * s.cfg.pixCap ≤ a → s.inputs = .readMem .pix a :: rest →
      step s = .next { s with inputs := rest, outputs := .byte 0 :: s.outputs })
    ∧ (∀ a v, 3 * s.cfg.pixCap ≤ a → s.inputs = .writeMem .pix a v :: rest →
      step s = .next (s.setInputs rest))
    ∧ (∀ a v, s.MemoryOk → s.busy = false → 3 * s.pixelCount.toNat ≤ a → a < 3 * s.cfg.pixCap →
      s.inputs = .writeMem .pix a v :: rest → ∃ t, step s = .next t ∧ t.readByte .pix a = v)

/-- 43_host_access.md R157: an ENGINE step is enabled exactly while `BUSY` is 1; with `BUSY = 0` the ENGINE
does nothing; with nothing left for the outside to do the ENGINE steps. -/
def Obligations.EngineStepsExactlyWhileBusy : Prop :=
  (∀ s : State, s.inputs = [] → step s = .next s.engineStep)
  ∧ (∀ (s : State) (rest : List Input), s.inputs = .engine :: rest →
    step s = .next (s.setInputs rest).engineStep)
  ∧ (∀ s : State, s.busy = false → s.engineStep = s)
  ∧ (∀ s : State, s.Inv → s.busy = true → s.engineStep ≠ s)

/-- 70_reset_and_hazards.md R190: the Reset step in any state sets every register, field and internal register
to its reset value and touches no memory; and `State.reset` has those values. -/
def Obligations.ResetGivesTheResetValues : Prop :=
  (∀ (s : State) (rest : List Input), s.inputs = .reset :: rest →
    step s = .next { s with
      inputs := rest, busy := false, cap := false, result := .none, op := 0, pixelCount := 0, msgLen := 0,
      bitCount := 0, phase := .start, k := 0, sh := 0, runcnt := 0 })
  ∧ (State.reset.busy = false ∧ State.reset.cap = false ∧ State.reset.result = .none
    ∧ State.reset.op = 0 ∧ State.reset.statusWord = 0 ∧ State.reset.readReg 0 = 0
    ∧ State.reset.pixelCount = 0 ∧ State.reset.msgLen = 0
    ∧ State.reset.bitCount = 0 ∧ State.reset.phase = .start ∧ State.reset.k = 0 ∧ State.reset.sh = 0
    ∧ State.reset.runcnt = 0)

/-- 10_state.md R33, as the model reads it (log 2, log 3, log 14): after a power-on with its reset every byte
of both memories holds its unknown value and every register its reset value; so it is in `State.reset`. -/
def Obligations.PowerOnLeavesUnknownMemories : Prop :=
  (∀ (s : State) (rest : List Input), s.inputs = .powerOn :: rest →
    ∃ t, step s = .next t
      ∧ (∀ sp a, a < memSize s.cfg sp → t.readByte sp a = Config.powerOnByte t.powerUp sp a)
      ∧ t = { s with
          inputs := rest, busy := false, cap := false, result := .none, op := 0, pixelCount := 0,
          msgLen := 0, bitCount := 0, phase := .start, k := 0, sh := 0, runcnt := 0,
          msg := t.msg, pix := t.pix, powerUp := t.powerUp })
  ∧ (∀ sp a, a < memSize State.reset.cfg sp →
    State.reset.readByte sp a = Config.powerOnByte State.reset.powerUp sp a)

/-- 70_reset_and_hazards.md R192: a reset in phase `RUN` of an EMBED leaves a partial embedding (the first
`K` bits of the stream in the LSBs, whatever the bits above), in phase `RUN` of an EXTRACT the decoded
bytes, `MSG_LEN` 0; in both the memories stay what the finished steps left, and no outcome is
reported. -/
def Obligations.ResetInMidCommandKeepsMemories : Prop :=
  ∀ (s : State) (rest : List Input), s.Inv → s.busy = true → s.phase = .run →
    s.inputs = .reset :: rest →
      ∃ t, step s = .next t ∧ t.busy = false ∧ t.result = .none ∧ t.msgLen = 0
        ∧ (∀ sp a, t.readByte sp a = s.readByte sp a)
        ∧ (s.op = 2 → ∀ k < s.k.toNat, (t.readByte .pix k).getLsbD 0 = s.streamBit k)
        ∧ (s.op = 3 → ∀ j < s.k.toNat / 8, t.readByte .msg j = s.chunk j)

/-- 93_implementation_defined.md, end of part 1: every state has a defined next state. -/
def Obligations.EveryStepAnswersANextState : Prop :=
  ∀ s : State, ∃ t, step s = .next t

/-- `PIX_CAP` is fixed for the machine, and only a power-on changes which unknown contents the unwritten
bytes have. -/
def Obligations.StepKeepsConfiguration : Prop :=
  ∀ s t : State, step s = .next t →
    t.cfg = s.cfg ∧ (s.inputs.head? ≠ some .powerOn → t.powerUp = s.powerUp)

/-! ## CHKCAP -/

/-- 40_capacity.md R91: CHKCAP from any idle state, whatever the two registers hold. -/
def Obligations.ChkcapReportsTheCapacity : Prop :=
  encode .chkcap = 0x00000001#32
  ∧ ∀ s : State, s.busy = false →
    exec .chkcap s = .next { s with
      op := 1, cap := decide (s.bitCount.toNat ≤ 3 * s.pixelCount.toNat), result := .ok, busy := false,
      phase := .start, k := 0, sh := 0, runcnt := 0 }

/-- 40_capacity.md R96: the boundary is exact, for CHKCAP and for EMBED. -/
def Obligations.CapacityBoundaryIsExact : Prop :=
  ∀ s : State, s.busy = false →
    (s.bitCount.toNat = 3 * s.pixelCount.toNat →
      ∃ t, exec .chkcap s = .next t ∧ t.cap = true ∧ t.result = .ok)
    ∧ (s.bitCount.toNat = 3 * s.pixelCount.toNat + 1 →
      ∃ t, exec .chkcap s = .next t ∧ t.cap = false ∧ t.result = .ok)
    ∧ (s.pixelCount.toNat ≤ s.cfg.pixCap → 8 * (s.msgLen.toNat + 4) = 3 * s.pixelCount.toNat →
      ∃ t, exec .embed s = .next t ∧ t.cap = true ∧ t.result = .ok)
    ∧ (s.pixelCount.toNat ≤ s.cfg.pixCap → 8 * (s.msgLen.toNat + 4) = 3 * s.pixelCount.toNat + 1 →
      ∃ t, exec .embed s = .next t ∧ t.cap = false ∧ t.result = .capacityError)

/-! ## EMBED -/

/-- 41_embed.md R108: EMBED of more pixels than PIX holds, whatever the message. -/
def Obligations.EmbedRefusesTooManyPixels : Prop :=
  ∀ s : State, s.busy = false → s.cfg.pixCap < s.pixelCount.toNat →
    exec .embed s = .next { s with
      op := 2, cap := false, result := .badConfig, busy := false, phase := .start, k := 0, sh := 0,
      runcnt := 0 }

/-- 41_embed.md R102: the capacity check, exact over the natural numbers; a shortfall changes nothing but
`STATUS` (and the cleared internal registers). -/
def Obligations.EmbedChecksCapacityFirst : Prop :=
  ∀ s : State, s.busy = false → s.pixelCount.toNat ≤ s.cfg.pixCap →
    (3 * s.pixelCount.toNat < 8 * (s.msgLen.toNat + 4) →
      exec .embed s = .next { s with
        op := 2, cap := false, result := .capacityError, busy := false, phase := .start, k := 0, sh := 0,
        runcnt := 0 })
    ∧ (8 * (s.msgLen.toNat + 4) ≤ 3 * s.pixelCount.toNat →
      ∃ t, exec .embed s = .next t ∧ t.cap = true ∧ t.result = .ok ∧ t.busy = false)

/-- 41_embed.md R101, R103, R105: a successful EMBED. Bit `k` of the stream is bit `7 - k mod 8` of
character `k div 8` of the payload followed by four 0x23; it replaces the LSB of channel `k`; every other
byte of PIX, all of MSG and every operand register are unchanged. -/
def Obligations.EmbedWritesTheBitStream : Prop :=
  ∀ s : State, s.busy = false → s.pix.wf → s.pixelCount.toNat ≤ s.cfg.pixCap →
    8 * (s.msgLen.toNat + 4) ≤ 3 * s.pixelCount.toNat →
    ∃ t, exec .embed s = .next t
      ∧ t = { s with
          op := 2, cap := true, result := .ok, busy := false, pix := t.pix, phase := t.phase, k := t.k,
          sh := t.sh, runcnt := t.runcnt }
      ∧ ∀ a, t.readByte .pix a =
          if a < 8 * (s.msgLen.toNat + 4) then
            (s.readByte .pix a &&& 0xFE#8) ||| (BitVec.ofBool
              ((if a / 8 < s.msgLen.toNat then s.readByte .msg (a / 8) else 0x23#8).getLsbD
                (7 - a % 8))).setWidth 8
          else s.readByte .pix a

/-- 41_embed.md R113, minimal perturbation, in every case and for every byte. -/
def Obligations.EmbedPerturbsOnlyLsbs : Prop :=
  ∀ s t : State, s.pix.wf → exec .embed s = .next t →
    ∀ a, (t.readByte .pix a ^^^ s.readByte .pix a = 0 ∨ t.readByte .pix a ^^^ s.readByte .pix a = 1)
      ∧ (t.readByte .pix a).toNat ≤ (s.readByte .pix a).toNat + 1
      ∧ (s.readByte .pix a).toNat ≤ (t.readByte .pix a).toNat + 1
      ∧ ((s.readByte .pix a).toNat % 2 = 0 → (s.readByte .pix a).toNat ≤ (t.readByte .pix a).toNat)
      ∧ ((s.readByte .pix a).toNat % 2 = 1 → (t.readByte .pix a).toNat ≤ (s.readByte .pix a).toNat)

/-- 41_embed.md R113, last point: a second EMBED of the same message on the result of the first changes
nothing at all. -/
def Obligations.EmbedTwiceIsEmbedOnce : Prop :=
  ∀ s t : State, s.busy = false → s.pix.wf → exec .embed s = .next t → t.result = .ok →
    exec .embed t = .next t

/-- 41_embed.md R112: the state after the START step and `n` RUN steps of a successful EMBED. -/
def Obligations.EmbedStepsFollowTheWalk : Prop :=
  ∀ s : State, s.busy = false → s.cfg.wf → s.pix.wf → s.pixelCount.toNat ≤ s.cfg.pixCap →
    8 * (s.msgLen.toNat + 4) ≤ 3 * s.pixelCount.toNat →
    ∃ t, exec .embed s = .next t
      ∧ State.engineRun (1 + 8 * (s.msgLen.toNat + 4)) (s.accept 2) = t
      ∧ ∀ n < 8 * (s.msgLen.toNat + 4), ∃ u, State.engineRun (1 + n) (s.accept 2) = u
        ∧ u.busy = true ∧ u.phase = .run ∧ u.k.toNat = n
        ∧ u.pixelCount = s.pixelCount ∧ u.msgLen = s.msgLen ∧ u.msg = s.msg
        ∧ (∀ a < n, u.readByte .pix a = t.readByte .pix a)
        ∧ (∀ a, n ≤ a → u.readByte .pix a = s.readByte .pix a)

/-! ## EXTRACT -/

/-- 42_extract.md R122 (and R121): the value of a chunk; only bit 0 of each channel counts. -/
def Obligations.ChunkIsMostSignificantBitFirst : Prop :=
  ∀ (s : State) (j : Nat), (s.chunk j).toNat =
    ((List.range 8).map fun i => ((s.readByte .pix (8 * j + i)).toNat % 2) * 2 ^ (7 - i)).sum

/-- 42_extract.md R130: EXTRACT of more pixels than PIX holds. -/
def Obligations.ExtractRefusesTooManyPixels : Prop :=
  ∀ s : State, s.busy = false → s.cfg.pixCap < s.pixelCount.toNat →
    exec .extract s = .next { s with
      op := 3, cap := false, result := .badConfig, busy := false, phase := .start, k := 0, sh := 0,
      runcnt := 0 }

/-- 42_extract.md R125: the first chunk `e` at which the last four are 0x23 ends the command; the payload
length is `e - 3`, MSG holds the chunks 0 to `e` and is unchanged above, PIX and the operand registers
are unchanged. -/
def Obligations.ExtractStopsAtTheFirstTerminator : Prop :=
  ∀ (s : State) (e : Nat), s.busy = false → s.msg.wf → s.pixelCount.toNat ≤ s.cfg.pixCap →
    e < 3 * s.pixelCount.toNat / 8 → 3 ≤ e →
    s.chunk (e - 3) = 0x23 → s.chunk (e - 2) = 0x23 → s.chunk (e - 1) = 0x23 → s.chunk e = 0x23 →
    (∀ d < e, ¬ (3 ≤ d ∧ s.chunk (d - 3) = 0x23 ∧ s.chunk (d - 2) = 0x23 ∧ s.chunk (d - 1) = 0x23
      ∧ s.chunk d = 0x23)) →
    ∃ t, exec .extract s = .next t
      ∧ t = { s with
          op := 3, cap := false, result := .ok, busy := false, msgLen := BitVec.ofNat 32 (e - 3),
          msg := t.msg, phase := t.phase, k := t.k, sh := t.sh, runcnt := t.runcnt }
      ∧ ∀ a, t.readByte .msg a = if a ≤ e then s.chunk a else s.readByte .msg a

/-- 42_extract.md R126: if the terminator ends at no whole chunk, the outcome is `NOT_FOUND` with
`MSG_LEN` 0, and MSG holds the decoded chunks; bits that fill no chunk do not count (R128). So it is for
every carrier of at most 10 pixels, and with no pixel at all MSG is not written. -/
def Obligations.ExtractReportsNotFound : Prop :=
  (∀ s : State, s.busy = false → s.msg.wf → s.pixelCount.toNat ≤ s.cfg.pixCap →
    s.pixelCount.toNat ≤ 10 →
    ∃ t, exec .extract s = .next t ∧ t.result = .notFound ∧ t.msgLen = 0
      ∧ (s.pixelCount = 0 → t.msg = s.msg))
  ∧ ∀ s : State, s.busy = false → s.msg.wf → s.pixelCount.toNat ≤ s.cfg.pixCap →
    (∀ d < 3 * s.pixelCount.toNat / 8, ¬ (3 ≤ d ∧ s.chunk (d - 3) = 0x23 ∧ s.chunk (d - 2) = 0x23
      ∧ s.chunk (d - 1) = 0x23 ∧ s.chunk d = 0x23)) →
    ∃ t, exec .extract s = .next t
      ∧ t = { s with
          op := 3, cap := false, result := .notFound, busy := false, msgLen := 0,
          msg := t.msg, phase := t.phase, k := t.k, sh := t.sh, runcnt := t.runcnt }
      ∧ ∀ a, t.readByte .msg a
          = if a < 3 * s.pixelCount.toNat / 8 then s.chunk a else s.readByte .msg a

/-- 42_extract.md R136: what EXTRACT reports and decodes depends on `PIXEL_COUNT` and PIX alone, whatever
MSG, `MSG_LEN`, `BIT_COUNT` and `STATUS` held before. (With `BAD_CONFIG` nothing is decoded and `MSG_LEN`
is not written, R130.) -/
def Obligations.ExtractDependsOnPixelsAlone : Prop :=
  ∀ s s' t t' : State, s.busy = false → s'.busy = false → s.msg.wf → s'.msg.wf →
    s'.cfg = s.cfg → s'.pixelCount = s.pixelCount →
    (∀ a, s'.readByte .pix a = s.readByte .pix a) →
    exec .extract s = .next t → exec .extract s' = .next t' →
      t'.result = t.result ∧ t'.statusWord = t.statusWord
      ∧ (s.pixelCount.toNat ≤ s.cfg.pixCap → t'.msgLen = t.msgLen)
      ∧ (t.result = .ok → ∀ j < t.msgLen.toNat + 4, t'.readByte .msg j = t.readByte .msg j)
      ∧ (t.result = .notFound → ∀ j < 3 * s.pixelCount.toNat / 8,
          t'.readByte .msg j = t.readByte .msg j)

/-- 42_extract.md R134: while an EXTRACT runs, after the START step and `n` RUN steps, MSG holds the
characters of the chunks completed so far and is otherwise unchanged, and `MSG_LEN` and PIX are as
before. -/
def Obligations.ExtractStepsFollowTheChunks : Prop :=
  ∀ (s : State) (n : Nat), s.busy = false → s.cfg.wf → s.msg.wf →
    s.pixelCount.toNat ≤ s.cfg.pixCap →
    (State.engineRun (1 + n) (s.accept 3)).busy = true →
    ∃ u, State.engineRun (1 + n) (s.accept 3) = u
      ∧ u.phase = .run ∧ u.k.toNat = n ∧ u.msgLen = s.msgLen ∧ u.pix = s.pix
      ∧ u.pixelCount = s.pixelCount
      ∧ ∀ a, u.readByte .msg a = if a < n / 8 then s.chunk a else s.readByte .msg a

/-! ## EXTRACT after EMBED -/

/-- 42_extract.md R137: after a successful EMBED the first `L + 4` chunks of PIX are the Framed Payload, so an
EXTRACT on the same pixels matches at or before chunk `L + 3` and never reports `NOT_FOUND`. It returns
exactly the embedded payload if and only if no window of four 0x23 ends in the Framed Payload before index
`L + 3`, which is if and only if the payload holds no four consecutive 0x23 and does not end in 0x23. All
this whatever MSG and `MSG_LEN` hold in between. -/
def Obligations.RoundTripOfUnambiguousPayloads : Prop :=
  ∀ (s : State) (m : Memory) (l : Word), s.busy = false → s.pix.wf → m.wf →
    s.pixelCount.toNat ≤ s.cfg.pixCap → 8 * (s.msgLen.toNat + 4) ≤ 3 * s.pixelCount.toNat →
    ∃ t v, exec .embed s = .next t ∧ exec .extract { t with msg := m, msgLen := l } = .next v
      ∧ (∀ j < s.msgLen.toNat + 4, t.chunk j = s.framedByte j)
      ∧ v.result = .ok ∧ v.msgLen.toNat ≤ s.msgLen.toNat
      ∧ ((v.msgLen = s.msgLen ∧ ∀ j < s.msgLen.toNat, v.readByte .msg j = s.readByte .msg j) ↔
          ∀ e < s.msgLen.toNat + 3, ¬ s.framedClosesAt e)
      ∧ ((∀ e < s.msgLen.toNat + 3, ¬ s.framedClosesAt e) ↔
          ((∀ j, j + 4 ≤ s.msgLen.toNat → ¬ (s.readByte .msg j = 0x23 ∧ s.readByte .msg (j + 1) = 0x23
              ∧ s.readByte .msg (j + 2) = 0x23 ∧ s.readByte .msg (j + 3) = 0x23))
            ∧ (0 < s.msgLen.toNat → s.readByte .msg (s.msgLen.toNat - 1) ≠ 0x23)))

/-- 42_extract.md R138: the framing ambiguity. With `e` the first index at which four 0x23 end in the
Framed Payload, EXTRACT returns the characters before them: a payload that holds the marker is cut before
its first one, and a payload that holds none but ends in `r` bytes 0x23 (1 to 3) loses those. -/
def Obligations.FramingAmbiguityCutsThePayload : Prop :=
  ∀ (s : State) (m : Memory) (l : Word), s.busy = false → s.pix.wf → m.wf →
    s.pixelCount.toNat ≤ s.cfg.pixCap → 8 * (s.msgLen.toNat + 4) ≤ 3 * s.pixelCount.toNat →
    ∃ t v, exec .embed s = .next t ∧ exec .extract { t with msg := m, msgLen := l } = .next v
      ∧ v.result = .ok
      ∧ (∀ e, s.framedClosesAt e → (∀ d < e, ¬ s.framedClosesAt d) → e < s.msgLen.toNat + 4 →
          v.msgLen.toNat = e - 3 ∧ ∀ j < e - 3, v.readByte .msg j = s.framedByte j)
      ∧ (∀ e, e < s.msgLen.toNat → s.framedClosesAt e → (∀ d < e, ¬ s.framedClosesAt d) →
          v.msgLen.toNat = e - 3 ∧ ∀ j < e - 3, v.readByte .msg j = s.readByte .msg j)
      ∧ (∀ r, 1 ≤ r → r ≤ 3 → r ≤ s.msgLen.toNat →
          (∀ e < s.msgLen.toNat, ¬ s.framedClosesAt e) →
          (∀ i < r, s.readByte .msg (s.msgLen.toNat - 1 - i) = 0x23) →
          (r < s.msgLen.toNat → s.readByte .msg (s.msgLen.toNat - 1 - r) ≠ 0x23) →
          v.msgLen.toNat = s.msgLen.toNat - r
            ∧ ∀ j < s.msgLen.toNat - r, v.readByte .msg j = s.readByte .msg j)

/-! ## The two levels -/

/-- 00_scope.md R10: running the step machine from acceptance until `BUSY` returns to 0 gives exactly the
end state of the result level, for every command and every outcome. -/
def Obligations.StepLevelReachesTheResultLevel : Prop :=
  ∀ (i : Instr) (s : State), s.busy = false → s.cfg.wf → s.msg.wf →
    ∃ n t, exec i s = .next t ∧ State.engineRun n (s.accept (opOf i)) = t ∧ t.busy = false
      ∧ ∀ m < n, (State.engineRun m (s.accept (opOf i))).busy = true

/-- 70_reset_and_hazards.md R204: how many ENGINE steps each command takes with each outcome: `BUSY` is 1
before the last of them and 0 after it. -/
def Obligations.EngineStepCounts : Prop :=
  ∀ s : State, s.busy = false → s.cfg.wf → s.msg.wf →
    let ends (o : BitVec 4) (r : ResultCode) (n : Nat) : Prop :=
      (State.engineRun n (s.accept o)).busy = false ∧ (State.engineRun n (s.accept o)).result = r
        ∧ ∀ m < n, (State.engineRun m (s.accept o)).busy = true
    ends 1 .ok 1
    ∧ (s.cfg.pixCap < s.pixelCount.toNat → ends 2 .badConfig 1 ∧ ends 3 .badConfig 1)
    ∧ (s.pixelCount.toNat ≤ s.cfg.pixCap →
      (3 * s.pixelCount.toNat < 8 * (s.msgLen.toNat + 4) → ends 2 .capacityError 1)
      ∧ (8 * (s.msgLen.toNat + 4) ≤ 3 * s.pixelCount.toNat →
          ends 2 .ok (1 + 8 * (s.msgLen.toNat + 4)))
      ∧ (∀ j < 3 * s.pixelCount.toNat / 8, s.closesAt j → (∀ d < j, ¬ s.closesAt d) →
          ends 3 .ok (1 + 8 * (j + 1)))
      ∧ ((∀ d < 3 * s.pixelCount.toNat / 8, ¬ s.closesAt d) →
          ends 3 .notFound (2 + 8 * (3 * s.pixelCount.toNat / 8)))
      ∧ (8 * (s.msgLen.toNat + 4) ≤ 3 * s.pixelCount.toNat →
          1 + 8 * (s.msgLen.toNat + 4) ≤ 2 + 3 * s.cfg.pixCap)
      ∧ 2 + 8 * (3 * s.pixelCount.toNat / 8) ≤ 2 + 3 * s.cfg.pixCap)

/-- 43_host_access.md R157 with 70_reset_and_hazards.md R204: from anywhere inside a command it ends within
`2 + 3 * PIX_CAP` ENGINE steps. -/
def Obligations.RunningCommandEnds : Prop :=
  ∀ s : State, s.Inv → ∃ n ≤ 2 + 3 * s.cfg.pixCap, (State.engineRun n s).busy = false

/-- 43_host_access.md R158: a HOST that waits gets there: `wait` is over after finitely many steps, its last
read shows `BUSY = 0`, and the block is what ENGINE steps alone make of it. -/
def Obligations.WaitReturnsWhenTheCommandHasEnded : Prop :=
  ∀ (s : State) (rest : List Input), s.Inv → s.inputs = .wait :: rest →
    ∃ (n m : Nat) (t : State), Host.Core.run Sys2Proof.core n s = .next t ∧ t.inputs = rest ∧ t.busy = false
      ∧ t.outputs.head? = some (.word t.statusWord)
      ∧ t.block = (State.engineRun m s).block

/-! ## The whole machine -/

/-- Every step keeps the invariant: from any state that meets it, whatever the outside does. -/
def Obligations.StepKeepsTheInvariant : Prop :=
  ∀ s t : State, s.Inv → step s = .next t → t.Inv

/-- The machine after reset meets the invariant. -/
def Obligations.ResetMeetsTheInvariant : Prop := State.reset.Inv

/-- 10_state.md R22 and the table of 95_test_vectors.md: in a state that meets the invariant `STATUS` reads
as one of the words the spec lists. -/
def Obligations.StatusReadsAsAListedWord : Prop :=
  ∀ s : State, s.Inv →
    s.statusWord ∈ [0x00000000#32, 0x00000101#32, 0x00000110#32, 0x00000112#32, 0x00000201#32,
      0x00000203#32, 0x00000212#32, 0x00000220#32, 0x00000250#32, 0x00000301#32, 0x00000310#32,
      0x00000330#32, 0x00000350#32]
    ∨ ∃ o : BitVec 4, s.statusWord = 0x00000040#32 ||| (o.setWidth 32 <<< 8)

/-- 60_exceptions.md R180: an outcome stays in `STATUS` until the next accepted `CMD` write or a reset; no read
and no other write, and no ENGINE step, clears it. -/
def Obligations.OutcomeStaysUntilTheNextCommand : Prop :=
  ∀ s t : State, s.busy = false → step s = .next t →
    (∀ (w : Word) (rest : List Input), s.inputs ≠ .writeReg 0 w :: rest ∧ s.inputs ≠ .command w :: rest) →
    (∀ rest : List Input, s.inputs ≠ .reset :: rest ∧ s.inputs ≠ .powerOn :: rest) →
      t.statusWord = s.statusWord ∧ t.busy = false ∧ t.cap = s.cap ∧ t.result = s.result ∧ t.op = s.op

/-- 60_exceptions.md R179, last point: no outcome is raised part-way through EMBED's channel walk; once the walk
has started, ENGINE steps finish it with `OK` after the channels that are left. -/
def Obligations.EmbedWalkOnceStartedEndsWithOk : Prop :=
  ∀ s : State, s.Inv → s.busy = true → s.op = 2 → s.phase = .run →
    (State.engineRun (8 * (s.msgLen.toNat + 4) - s.k.toNat) s).busy = false
    ∧ (State.engineRun (8 * (s.msgLen.toNat + 4) - s.k.toNat) s).result = .ok
    ∧ ∀ m < 8 * (s.msgLen.toNat + 4) - s.k.toNat,
        (State.engineRun m s).busy = true ∧ (State.engineRun m s).result = .none

/-- 41_embed.md R109 and 42_extract.md R131: in phase `RUN` every access of the ENGINE is to a byte that
exists, and neither `K` nor, in an EXTRACT, `RUNCNT` wraps in its register. -/
def Obligations.EngineAccessesStayInRange : Prop :=
  ∀ s : State, s.Inv → s.busy = true → s.phase = .run →
    (s.op = 2 → s.k.toNat < 3 * s.cfg.pixCap ∧ s.msgLen.toNat + 4 ≤ 3 * s.cfg.pixCap / 8
      ∧ (s.k.toNat / 8 < s.msgLen.toNat → s.k.toNat / 8 < 3 * s.cfg.pixCap / 8))
    ∧ (s.op = 3 → s.k.toNat ≠ s.chunkBits →
        s.k.toNat < 3 * s.cfg.pixCap ∧ s.k.toNat / 8 < 3 * s.cfg.pixCap / 8)
    ∧ s.k.toNat + 1 < 2 ^ 32
    ∧ (s.op = 3 → s.runcnt.toNat + 1 < 2 ^ 3)

/-- 10_state.md R30: the end state of a command does not depend on `STATUS` before acceptance, nor on the
internal registers before acceptance. -/
def Obligations.CommandsForgetEarlierCommands : Prop :=
  ∀ (i : Instr) (s : State) (cap : Bool) (result : ResultCode) (op : BitVec 4) (phase : Phase) (k : Word)
    (sh : Byte) (runcnt : BitVec 3), s.busy = false →
    exec i { s with cap := cap, result := result, op := op, phase := phase, k := k, sh := sh,
                    runcnt := runcnt } = exec i s

/-- 20_memory.md R63 with 41_embed.md R110, 42_extract.md R132 and 10_state.md R23, R25: the frame of every command
at both levels. No command writes `PIXEL_COUNT` or `BIT_COUNT`; only EXTRACT writes `MSG_LEN` and MSG; only
EMBED writes PIX; what the outside does is untouched. A whole EMBED writes PIX only below `B` and only if it
ends `OK`, a whole EXTRACT writes MSG only below `C`, only below `m = MSG_LEN + 4` if it ends `OK` after `m`
characters, and nowhere if it ends `BAD_CONFIG`. One ENGINE step writes no byte of PIX but the one at `K` and
no byte of MSG but the one at `K div 8`. -/
def Obligations.CommandsWriteOnlyTheirLocations : Prop :=
  let framed (i : Instr) (s t : State) : Prop :=
    t.pixelCount = s.pixelCount ∧ t.bitCount = s.bitCount ∧ t.cfg = s.cfg ∧ t.powerUp = s.powerUp
    ∧ t.inputs = s.inputs ∧ t.outputs = s.outputs
    ∧ (i ≠ .extract → t.msgLen = s.msgLen ∧ t.msg = s.msg)
    ∧ (i ≠ .embed → t.pix = s.pix)
    ∧ (∀ a, 3 * s.pixelCount.toNat ≤ a → t.readByte .pix a = s.readByte .pix a)
  ∀ (i : Instr) (s : State), s.Inv →
    (∃ t, exec i s = .next t ∧ framed i s t
      ∧ (∀ a, s.framedBits ≤ a → t.readByte .pix a = s.readByte .pix a)
      ∧ (∀ a, s.wholeChunks ≤ a → t.readByte .msg a = s.readByte .msg a)
      ∧ (s.busy = false → t.result ≠ .ok → t.pix = s.pix)
      ∧ (s.busy = false → i = .extract → t.result = .ok →
          ∀ a, t.msgLen.toNat + 4 ≤ a → t.readByte .msg a = s.readByte .msg a)
      ∧ (s.busy = false → t.result = .badConfig → t.msgLen = s.msgLen ∧ t.msg = s.msg))
    ∧ (s.busy = true → s.op = opOf i →
      framed i s s.engineStep
      ∧ (∀ a, a ≠ s.k.toNat → s.engineStep.readByte .pix a = s.readByte .pix a)
      ∧ (∀ a, a ≠ s.k.toNat / 8 → s.engineStep.readByte .msg a = s.readByte .msg a))

/-! ## Host scripts -/

/-- 30_encoding.md R77: the three load lines of the notation, run step by step from an idle block: `ldpix` leaves
its bytes in PIX from address 0, `ldmsgb` its bytes and `ldmsg` the codes of its characters (log 13) in MSG,
and their number in `MSG_LEN`; nothing else changes. Bytes beyond the end of the memory are not stored. -/
def Obligations.LoadLinesStoreTheirBytes : Prop :=
  ∀ (s : State) (rest : List Input), s.busy = false → s.MemoryOk →
    (∀ bytes : List Byte, (HostLine.ldpix bytes).wf = true → s.inputs = expandLine (.ldpix bytes) ++ rest →
      ∃ t : State, Host.Core.run Sys2Proof.core bytes.length s = .next t
        ∧ t = { s with inputs := rest, pix := t.pix }
        ∧ ∀ a < 3 * s.cfg.pixCap, t.readByte .pix a = bytes.getD a (s.readByte .pix a))
    ∧ (∀ bytes : List Byte, (HostLine.ldmsgb bytes).wf = true → s.inputs = expandLine (.ldmsgb bytes) ++ rest →
      ∃ t : State, Host.Core.run Sys2Proof.core (bytes.length + 1) s = .next t
        ∧ t = { s with inputs := rest, msg := t.msg, msgLen := BitVec.ofNat 32 bytes.length }
        ∧ ∀ a < 3 * s.cfg.pixCap / 8, t.readByte .msg a = bytes.getD a (s.readByte .msg a))
    ∧ (∀ text : List Char, (HostLine.ldmsg text).wf = true → s.inputs = expandLine (.ldmsg text) ++ rest →
      ∃ t : State, Host.Core.run Sys2Proof.core (text.length + 1) s = .next t
        ∧ t = { s with inputs := rest, msg := t.msg, msgLen := BitVec.ofNat 32 text.length }
        ∧ ∀ a < 3 * s.cfg.pixCap / 8, t.readByte .msg a
            = (text.map fun c => BitVec.ofNat 8 c.toNat).getD a (s.readByte .msg a))

/-- 43_host_access.md R159: the source call `check_capacity(b, n)` as host steps: after finitely many steps
it is over, and what its last read of `STATUS` shows is the planner's answer. -/
def Obligations.CheckCapacityCallAnswersThePlanner : Prop :=
  ∀ (s : State) (b n : Word) (rest : List Input), s.busy = false →
    s.inputs = expandScript (checkCapacityCall b n) ++ rest →
    ∃ (m : Nat) (t : State), Host.Core.run Sys2Proof.core m s = .next t ∧ t.inputs = rest ∧ t.busy = false
      ∧ t.bitCount = b ∧ t.pixelCount = n ∧ t.msgLen = s.msgLen ∧ t.msg = s.msg ∧ t.pix = s.pix
      ∧ t.outputs.head? = some (.word (if b.toNat ≤ 3 * n.toNat then 0x112 else 0x110))

/-- 30_encoding.md R77: `expect` is no host step, and what it states of a register or a byte is right exactly
when a host read there returns that value; after the read, so is what it states of the value just read (the
reading of `<what>` is the model's, log 16). -/
def Obligations.ExpectLinesStateWhatReadsReturn : Prop :=
  ∀ s : State,
    (∀ e : Expectation, expandLine (.expect e) = [] ∧ (s.inputs = [] → s.runLine (.expect e) = s))
    ∧ (∀ (i : Nat) (v : Word) (rest : List Input), s.inputs = .readReg i :: rest →
      ∃ t, step s = .next t ∧ t.meets (.lastWord v) = s.meets (.reg i v)
        ∧ (s.meets (.reg i v) = true ↔ t.outputs = .word v :: s.outputs))
    ∧ (∀ (sp : MemSpace) (a : Nat) (v : Byte) (rest : List Input), s.inputs = .readMem sp a :: rest →
      ∃ t, step s = .next t ∧ t.meets (.lastByte v) = s.meets (.mem sp a v)
        ∧ (s.meets (.mem sp a v) = true ↔ t.outputs = .byte v :: s.outputs))

/-- Every line of the host notation runs to its end in the steps `State.runLine` allows it, from every state
that meets the invariant, and leaves such a state for the next line; a `wait` ends with `BUSY = 0`
(30_encoding.md R77, 70_reset_and_hazards.md R204). An ill-formed line too, as the model runs it (log 18). -/
def Obligations.ScriptLinesRunToTheirEnd : Prop :=
  ∀ (s : State) (line : HostLine), s.Inv →
    (s.runLine line).inputs = [] ∧ (s.runLine line).Inv ∧ (line = .wait → (s.runLine line).busy = false)

/-! ## The source's calls and returns -/

/-- 43_host_access.md R159: what the three source calls return, from an idle block. `check_capacity` the planner's
answer; `embed` the carrier with the bit stream in its LSBs, or `CapacityError` with PIX still the input;
`extract` the characters before the first terminator, or `NotFound`; and the latter two the code of
`BAD_CONFIG` for more pixels than PIX holds (log 17). Of calls whose number of pixels or of characters does not fit 32
bits it says nothing (log 15). -/
def Obligations.SourceCallsReturnByOutcome : Prop :=
  ∀ s : State, s.Inv → s.busy = false →
    (∀ b n : Word, (s.callCheckCapacity b n).1 = .bool (decide (b.toNat ≤ 3 * n.toNat)))
    ∧ (∀ (channels message : List Byte) (n : Nat), channels.length = 3 * n → message.length < 2 ^ 32 →
      (n ≤ s.cfg.pixCap → 3 * n < 8 * (message.length + 4) →
        (s.callEmbed channels message).1 = .capacityError
        ∧ ∀ a < 3 * n, (s.callEmbed channels message).2.readByte .pix a = channels.getD a 0)
      ∧ (n ≤ s.cfg.pixCap → 8 * (message.length + 4) ≤ 3 * n →
        (s.callEmbed channels message).1 = .pixels ((List.range (3 * n)).map fun k =>
          if k < 8 * (message.length + 4) then
            substitute (channels.getD k 0) ((framedChar message (k / 8)).getLsbD (7 - k % 8))
          else channels.getD k 0))
      ∧ (s.cfg.pixCap < n → n < 2 ^ 32 → (s.callEmbed channels message).1 = .otherOutcome 5))
    ∧ (∀ (channels : List Byte) (n : Nat), channels.length = 3 * n →
      (n ≤ s.cfg.pixCap →
        (∀ e < 3 * n / 8, listClosesAt channels e → (∀ d < e, ¬ listClosesAt channels d) →
          (s.callExtract channels).1 = .payload ((List.range (e - 3)).map (listChunk channels)))
        ∧ ((∀ d < 3 * n / 8, ¬ listClosesAt channels d) → (s.callExtract channels).1 = .notFound))
      ∧ (s.cfg.pixCap < n → n < 2 ^ 32 → (s.callExtract channels).1 = .otherOutcome 5))

/-- 42_extract.md R137 for the source's calls: `extract(embed(pixels, M)) == M`, whether the pixels `embed`
returned are given to `extract` on any other idle block of the capacity or are still in PIX, for every message
that fits, holds no four consecutive 0x23 and does not end in 0x23. -/
def Obligations.SourceRoundTrip : Prop :=
  ∀ (s u : State) (channels message : List Byte) (n : Nat), s.Inv → s.busy = false → u.Inv → u.busy = false →
    u.cfg = s.cfg → channels.length = 3 * n → n ≤ s.cfg.pixCap → 8 * (message.length + 4) ≤ 3 * n →
    (∀ j, j + 4 ≤ message.length → ¬ (message.getD j 0 = 0x23 ∧ message.getD (j + 1) 0 = 0x23
      ∧ message.getD (j + 2) 0 = 0x23 ∧ message.getD (j + 3) 0 = 0x23)) →
    (0 < message.length → message.getD (message.length - 1) 0 ≠ 0x23) →
      ∃ pixels, (s.callEmbed channels message).1 = .pixels pixels
        ∧ (u.callExtract pixels).1 = .payload message
        ∧ ((s.callEmbed channels message).2.callExtractInPlace).1 = .payload message
end

