-- ==== Sys2Proof/Laws/State.lean ====
section
/-! SUPPORT. One lemma per field per update of the state, and the form of a byte write as an update of one
memory. -/

namespace Sys2Proof.Machine

variable (s : State)

/-! ### accept -/

@[simp] theorem State.accept_cfg (o : BitVec 4) : (s.accept o).cfg = s.cfg := rfl
@[simp] theorem State.accept_powerUp (o : BitVec 4) : (s.accept o).powerUp = s.powerUp := rfl
@[simp] theorem State.accept_busy (o : BitVec 4) : (s.accept o).busy = true := rfl
@[simp] theorem State.accept_cap (o : BitVec 4) : (s.accept o).cap = false := rfl
@[simp] theorem State.accept_result (o : BitVec 4) : (s.accept o).result = .none := rfl
@[simp] theorem State.accept_op (o : BitVec 4) : (s.accept o).op = o := rfl
@[simp] theorem State.accept_pixelCount (o : BitVec 4) : (s.accept o).pixelCount = s.pixelCount := rfl
@[simp] theorem State.accept_msgLen (o : BitVec 4) : (s.accept o).msgLen = s.msgLen := rfl
@[simp] theorem State.accept_bitCount (o : BitVec 4) : (s.accept o).bitCount = s.bitCount := rfl
@[simp] theorem State.accept_phase (o : BitVec 4) : (s.accept o).phase = .start := rfl
@[simp] theorem State.accept_k (o : BitVec 4) : (s.accept o).k = 0 := rfl
@[simp] theorem State.accept_sh (o : BitVec 4) : (s.accept o).sh = 0 := rfl
@[simp] theorem State.accept_runcnt (o : BitVec 4) : (s.accept o).runcnt = 0 := rfl
@[simp] theorem State.accept_msg (o : BitVec 4) : (s.accept o).msg = s.msg := rfl
@[simp] theorem State.accept_pix (o : BitVec 4) : (s.accept o).pix = s.pix := rfl
@[simp] theorem State.accept_inputs (o : BitVec 4) : (s.accept o).inputs = s.inputs := rfl
@[simp] theorem State.accept_outputs (o : BitVec 4) : (s.accept o).outputs = s.outputs := rfl

/-! ### raise -/

@[simp] theorem State.raise_cfg (r : ResultCode) : (s.raise r).cfg = s.cfg := rfl
@[simp] theorem State.raise_powerUp (r : ResultCode) : (s.raise r).powerUp = s.powerUp := rfl
@[simp] theorem State.raise_busy (r : ResultCode) : (s.raise r).busy = false := rfl
@[simp] theorem State.raise_cap (r : ResultCode) : (s.raise r).cap = s.cap := rfl
@[simp] theorem State.raise_result (r : ResultCode) : (s.raise r).result = r := rfl
@[simp] theorem State.raise_op (r : ResultCode) : (s.raise r).op = s.op := rfl
@[simp] theorem State.raise_pixelCount (r : ResultCode) : (s.raise r).pixelCount = s.pixelCount := rfl
@[simp] theorem State.raise_msgLen (r : ResultCode) : (s.raise r).msgLen = s.msgLen := rfl
@[simp] theorem State.raise_bitCount (r : ResultCode) : (s.raise r).bitCount = s.bitCount := rfl
@[simp] theorem State.raise_phase (r : ResultCode) : (s.raise r).phase = s.phase := rfl
@[simp] theorem State.raise_k (r : ResultCode) : (s.raise r).k = s.k := rfl
@[simp] theorem State.raise_sh (r : ResultCode) : (s.raise r).sh = s.sh := rfl
@[simp] theorem State.raise_runcnt (r : ResultCode) : (s.raise r).runcnt = s.runcnt := rfl
@[simp] theorem State.raise_msg (r : ResultCode) : (s.raise r).msg = s.msg := rfl
@[simp] theorem State.raise_pix (r : ResultCode) : (s.raise r).pix = s.pix := rfl
@[simp] theorem State.raise_inputs (r : ResultCode) : (s.raise r).inputs = s.inputs := rfl
@[simp] theorem State.raise_outputs (r : ResultCode) : (s.raise r).outputs = s.outputs := rfl

/-! ### rejectCommand -/

@[simp] theorem State.rejectCommand_cfg (w : Word) : (s.rejectCommand w).cfg = s.cfg := rfl
@[simp] theorem State.rejectCommand_powerUp (w : Word) : (s.rejectCommand w).powerUp = s.powerUp := rfl
@[simp] theorem State.rejectCommand_busy (w : Word) : (s.rejectCommand w).busy = false := rfl
@[simp] theorem State.rejectCommand_cap (w : Word) : (s.rejectCommand w).cap = false := rfl
@[simp] theorem State.rejectCommand_result (w : Word) : (s.rejectCommand w).result = .badCmd := rfl
@[simp] theorem State.rejectCommand_op (w : Word) : (s.rejectCommand w).op = opField w := rfl
@[simp] theorem State.rejectCommand_pixelCount (w : Word) : (s.rejectCommand w).pixelCount = s.pixelCount := rfl
@[simp] theorem State.rejectCommand_msgLen (w : Word) : (s.rejectCommand w).msgLen = s.msgLen := rfl
@[simp] theorem State.rejectCommand_bitCount (w : Word) : (s.rejectCommand w).bitCount = s.bitCount := rfl
@[simp] theorem State.rejectCommand_phase (w : Word) : (s.rejectCommand w).phase = s.phase := rfl
@[simp] theorem State.rejectCommand_k (w : Word) : (s.rejectCommand w).k = s.k := rfl
@[simp] theorem State.rejectCommand_sh (w : Word) : (s.rejectCommand w).sh = s.sh := rfl
@[simp] theorem State.rejectCommand_runcnt (w : Word) : (s.rejectCommand w).runcnt = s.runcnt := rfl
@[simp] theorem State.rejectCommand_msg (w : Word) : (s.rejectCommand w).msg = s.msg := rfl
@[simp] theorem State.rejectCommand_pix (w : Word) : (s.rejectCommand w).pix = s.pix := rfl
@[simp] theorem State.rejectCommand_inputs (w : Word) : (s.rejectCommand w).inputs = s.inputs := rfl
@[simp] theorem State.rejectCommand_outputs (w : Word) : (s.rejectCommand w).outputs = s.outputs := rfl

/-! ### resetInput -/

@[simp] theorem State.resetInput_cfg : (s.resetInput).cfg = s.cfg := rfl
@[simp] theorem State.resetInput_powerUp : (s.resetInput).powerUp = s.powerUp := rfl
@[simp] theorem State.resetInput_busy : (s.resetInput).busy = false := rfl
@[simp] theorem State.resetInput_cap : (s.resetInput).cap = false := rfl
@[simp] theorem State.resetInput_result : (s.resetInput).result = .none := rfl
@[simp] theorem State.resetInput_op : (s.resetInput).op = 0 := rfl
@[simp] theorem State.resetInput_pixelCount : (s.resetInput).pixelCount = 0 := rfl
@[simp] theorem State.resetInput_msgLen : (s.resetInput).msgLen = 0 := rfl
@[simp] theorem State.resetInput_bitCount : (s.resetInput).bitCount = 0 := rfl
@[simp] theorem State.resetInput_phase : (s.resetInput).phase = .start := rfl
@[simp] theorem State.resetInput_k : (s.resetInput).k = 0 := rfl
@[simp] theorem State.resetInput_sh : (s.resetInput).sh = 0 := rfl
@[simp] theorem State.resetInput_runcnt : (s.resetInput).runcnt = 0 := rfl
@[simp] theorem State.resetInput_msg : (s.resetInput).msg = s.msg := rfl
@[simp] theorem State.resetInput_pix : (s.resetInput).pix = s.pix := rfl
@[simp] theorem State.resetInput_inputs : (s.resetInput).inputs = s.inputs := rfl
@[simp] theorem State.resetInput_outputs : (s.resetInput).outputs = s.outputs := rfl

/-! ### powerOnReset -/

@[simp] theorem State.powerOnReset_cfg : (s.powerOnReset).cfg = s.cfg := rfl
@[simp] theorem State.powerOnReset_powerUp : (s.powerOnReset).powerUp = s.powerUp + 1 := rfl
@[simp] theorem State.powerOnReset_busy : (s.powerOnReset).busy = false := rfl
@[simp] theorem State.powerOnReset_cap : (s.powerOnReset).cap = false := rfl
@[simp] theorem State.powerOnReset_result : (s.powerOnReset).result = .none := rfl
@[simp] theorem State.powerOnReset_op : (s.powerOnReset).op = 0 := rfl
@[simp] theorem State.powerOnReset_pixelCount : (s.powerOnReset).pixelCount = 0 := rfl
@[simp] theorem State.powerOnReset_msgLen : (s.powerOnReset).msgLen = 0 := rfl
@[simp] theorem State.powerOnReset_bitCount : (s.powerOnReset).bitCount = 0 := rfl
@[simp] theorem State.powerOnReset_phase : (s.powerOnReset).phase = .start := rfl
@[simp] theorem State.powerOnReset_k : (s.powerOnReset).k = 0 := rfl
@[simp] theorem State.powerOnReset_sh : (s.powerOnReset).sh = 0 := rfl
@[simp] theorem State.powerOnReset_runcnt : (s.powerOnReset).runcnt = 0 := rfl
@[simp] theorem State.powerOnReset_msg : (s.powerOnReset).msg = [] := rfl
@[simp] theorem State.powerOnReset_pix : (s.powerOnReset).pix = [] := rfl
@[simp] theorem State.powerOnReset_inputs : (s.powerOnReset).inputs = s.inputs := rfl
@[simp] theorem State.powerOnReset_outputs : (s.powerOnReset).outputs = s.outputs := rfl

/-! ### output -/

@[simp] theorem State.output_cfg (v : HostData) : (s.output v).cfg = s.cfg := rfl
@[simp] theorem State.output_powerUp (v : HostData) : (s.output v).powerUp = s.powerUp := rfl
@[simp] theorem State.output_busy (v : HostData) : (s.output v).busy = s.busy := rfl
@[simp] theorem State.output_cap (v : HostData) : (s.output v).cap = s.cap := rfl
@[simp] theorem State.output_result (v : HostData) : (s.output v).result = s.result := rfl
@[simp] theorem State.output_op (v : HostData) : (s.output v).op = s.op := rfl
@[simp] theorem State.output_pixelCount (v : HostData) : (s.output v).pixelCount = s.pixelCount := rfl
@[simp] theorem State.output_msgLen (v : HostData) : (s.output v).msgLen = s.msgLen := rfl
@[simp] theorem State.output_bitCount (v : HostData) : (s.output v).bitCount = s.bitCount := rfl
@[simp] theorem State.output_phase (v : HostData) : (s.output v).phase = s.phase := rfl
@[simp] theorem State.output_k (v : HostData) : (s.output v).k = s.k := rfl
@[simp] theorem State.output_sh (v : HostData) : (s.output v).sh = s.sh := rfl
@[simp] theorem State.output_runcnt (v : HostData) : (s.output v).runcnt = s.runcnt := rfl
@[simp] theorem State.output_msg (v : HostData) : (s.output v).msg = s.msg := rfl
@[simp] theorem State.output_pix (v : HostData) : (s.output v).pix = s.pix := rfl
@[simp] theorem State.output_inputs (v : HostData) : (s.output v).inputs = s.inputs := rfl
@[simp] theorem State.output_outputs (v : HostData) : (s.output v).outputs = v :: s.outputs := rfl

/-! ### setCap -/

@[simp] theorem State.setCap_cfg (b : Bool) : (s.setCap b).cfg = s.cfg := rfl
@[simp] theorem State.setCap_powerUp (b : Bool) : (s.setCap b).powerUp = s.powerUp := rfl
@[simp] theorem State.setCap_busy (b : Bool) : (s.setCap b).busy = s.busy := rfl
@[simp] theorem State.setCap_cap (b : Bool) : (s.setCap b).cap = b := rfl
@[simp] theorem State.setCap_result (b : Bool) : (s.setCap b).result = s.result := rfl
@[simp] theorem State.setCap_op (b : Bool) : (s.setCap b).op = s.op := rfl
@[simp] theorem State.setCap_pixelCount (b : Bool) : (s.setCap b).pixelCount = s.pixelCount := rfl
@[simp] theorem State.setCap_msgLen (b : Bool) : (s.setCap b).msgLen = s.msgLen := rfl
@[simp] theorem State.setCap_bitCount (b : Bool) : (s.setCap b).bitCount = s.bitCount := rfl
@[simp] theorem State.setCap_phase (b : Bool) : (s.setCap b).phase = s.phase := rfl
@[simp] theorem State.setCap_k (b : Bool) : (s.setCap b).k = s.k := rfl
@[simp] theorem State.setCap_sh (b : Bool) : (s.setCap b).sh = s.sh := rfl
@[simp] theorem State.setCap_runcnt (b : Bool) : (s.setCap b).runcnt = s.runcnt := rfl
@[simp] theorem State.setCap_msg (b : Bool) : (s.setCap b).msg = s.msg := rfl
@[simp] theorem State.setCap_pix (b : Bool) : (s.setCap b).pix = s.pix := rfl
@[simp] theorem State.setCap_inputs (b : Bool) : (s.setCap b).inputs = s.inputs := rfl
@[simp] theorem State.setCap_outputs (b : Bool) : (s.setCap b).outputs = s.outputs := rfl

/-! ### setMsgLen -/

@[simp] theorem State.setMsgLen_cfg (n : Nat) : (s.setMsgLen n).cfg = s.cfg := rfl
@[simp] theorem State.setMsgLen_powerUp (n : Nat) : (s.setMsgLen n).powerUp = s.powerUp := rfl
@[simp] theorem State.setMsgLen_busy (n : Nat) : (s.setMsgLen n).busy = s.busy := rfl
@[simp] theorem State.setMsgLen_cap (n : Nat) : (s.setMsgLen n).cap = s.cap := rfl
@[simp] theorem State.setMsgLen_result (n : Nat) : (s.setMsgLen n).result = s.result := rfl
@[simp] theorem State.setMsgLen_op (n : Nat) : (s.setMsgLen n).op = s.op := rfl
@[simp] theorem State.setMsgLen_pixelCount (n : Nat) : (s.setMsgLen n).pixelCount = s.pixelCount := rfl
@[simp] theorem State.setMsgLen_msgLen (n : Nat) : (s.setMsgLen n).msgLen = BitVec.ofNat 32 n := rfl
@[simp] theorem State.setMsgLen_bitCount (n : Nat) : (s.setMsgLen n).bitCount = s.bitCount := rfl
@[simp] theorem State.setMsgLen_phase (n : Nat) : (s.setMsgLen n).phase = s.phase := rfl
@[simp] theorem State.setMsgLen_k (n : Nat) : (s.setMsgLen n).k = s.k := rfl
@[simp] theorem State.setMsgLen_sh (n : Nat) : (s.setMsgLen n).sh = s.sh := rfl
@[simp] theorem State.setMsgLen_runcnt (n : Nat) : (s.setMsgLen n).runcnt = s.runcnt := rfl
@[simp] theorem State.setMsgLen_msg (n : Nat) : (s.setMsgLen n).msg = s.msg := rfl
@[simp] theorem State.setMsgLen_pix (n : Nat) : (s.setMsgLen n).pix = s.pix := rfl
@[simp] theorem State.setMsgLen_inputs (n : Nat) : (s.setMsgLen n).inputs = s.inputs := rfl
@[simp] theorem State.setMsgLen_outputs (n : Nat) : (s.setMsgLen n).outputs = s.outputs := rfl

/-! ### toRun -/

@[simp] theorem State.toRun_cfg : (s.toRun).cfg = s.cfg := rfl
@[simp] theorem State.toRun_powerUp : (s.toRun).powerUp = s.powerUp := rfl
@[simp] theorem State.toRun_busy : (s.toRun).busy = s.busy := rfl
@[simp] theorem State.toRun_cap : (s.toRun).cap = s.cap := rfl
@[simp] theorem State.toRun_result : (s.toRun).result = s.result := rfl
@[simp] theorem State.toRun_op : (s.toRun).op = s.op := rfl
@[simp] theorem State.toRun_pixelCount : (s.toRun).pixelCount = s.pixelCount := rfl
@[simp] theorem State.toRun_msgLen : (s.toRun).msgLen = s.msgLen := rfl
@[simp] theorem State.toRun_bitCount : (s.toRun).bitCount = s.bitCount := rfl
@[simp] theorem State.toRun_phase : (s.toRun).phase = .run := rfl
@[simp] theorem State.toRun_k : (s.toRun).k = s.k := rfl
@[simp] theorem State.toRun_sh : (s.toRun).sh = s.sh := rfl
@[simp] theorem State.toRun_runcnt : (s.toRun).runcnt = s.runcnt := rfl
@[simp] theorem State.toRun_msg : (s.toRun).msg = s.msg := rfl
@[simp] theorem State.toRun_pix : (s.toRun).pix = s.pix := rfl
@[simp] theorem State.toRun_inputs : (s.toRun).inputs = s.inputs := rfl
@[simp] theorem State.toRun_outputs : (s.toRun).outputs = s.outputs := rfl

/-! ### setRuncnt -/

@[simp] theorem State.setRuncnt_cfg (r : BitVec 3) : (s.setRuncnt r).cfg = s.cfg := rfl
@[simp] theorem State.setRuncnt_powerUp (r : BitVec 3) : (s.setRuncnt r).powerUp = s.powerUp := rfl
@[simp] theorem State.setRuncnt_busy (r : BitVec 3) : (s.setRuncnt r).busy = s.busy := rfl
@[simp] theorem State.setRuncnt_cap (r : BitVec 3) : (s.setRuncnt r).cap = s.cap := rfl
@[simp] theorem State.setRuncnt_result (r : BitVec 3) : (s.setRuncnt r).result = s.result := rfl
@[simp] theorem State.setRuncnt_op (r : BitVec 3) : (s.setRuncnt r).op = s.op := rfl
@[simp] theorem State.setRuncnt_pixelCount (r : BitVec 3) : (s.setRuncnt r).pixelCount = s.pixelCount := rfl
@[simp] theorem State.setRuncnt_msgLen (r : BitVec 3) : (s.setRuncnt r).msgLen = s.msgLen := rfl
@[simp] theorem State.setRuncnt_bitCount (r : BitVec 3) : (s.setRuncnt r).bitCount = s.bitCount := rfl
@[simp] theorem State.setRuncnt_phase (r : BitVec 3) : (s.setRuncnt r).phase = s.phase := rfl
@[simp] theorem State.setRuncnt_k (r : BitVec 3) : (s.setRuncnt r).k = s.k := rfl
@[simp] theorem State.setRuncnt_sh (r : BitVec 3) : (s.setRuncnt r).sh = s.sh := rfl
@[simp] theorem State.setRuncnt_runcnt (r : BitVec 3) : (s.setRuncnt r).runcnt = r := rfl
@[simp] theorem State.setRuncnt_msg (r : BitVec 3) : (s.setRuncnt r).msg = s.msg := rfl
@[simp] theorem State.setRuncnt_pix (r : BitVec 3) : (s.setRuncnt r).pix = s.pix := rfl
@[simp] theorem State.setRuncnt_inputs (r : BitVec 3) : (s.setRuncnt r).inputs = s.inputs := rfl
@[simp] theorem State.setRuncnt_outputs (r : BitVec 3) : (s.setRuncnt r).outputs = s.outputs := rfl

/-! ### setInputs -/

@[simp] theorem State.setInputs_cfg (l : List Input) : (s.setInputs l).cfg = s.cfg := rfl
@[simp] theorem State.setInputs_powerUp (l : List Input) : (s.setInputs l).powerUp = s.powerUp := rfl
@[simp] theorem State.setInputs_busy (l : List Input) : (s.setInputs l).busy = s.busy := rfl
@[simp] theorem State.setInputs_cap (l : List Input) : (s.setInputs l).cap = s.cap := rfl
@[simp] theorem State.setInputs_result (l : List Input) : (s.setInputs l).result = s.result := rfl
@[simp] theorem State.setInputs_op (l : List Input) : (s.setInputs l).op = s.op := rfl
@[simp] theorem State.setInputs_pixelCount (l : List Input) : (s.setInputs l).pixelCount = s.pixelCount := rfl
@[simp] theorem State.setInputs_msgLen (l : List Input) : (s.setInputs l).msgLen = s.msgLen := rfl
@[simp] theorem State.setInputs_bitCount (l : List Input) : (s.setInputs l).bitCount = s.bitCount := rfl
@[simp] theorem State.setInputs_phase (l : List Input) : (s.setInputs l).phase = s.phase := rfl
@[simp] theorem State.setInputs_k (l : List Input) : (s.setInputs l).k = s.k := rfl
@[simp] theorem State.setInputs_sh (l : List Input) : (s.setInputs l).sh = s.sh := rfl
@[simp] theorem State.setInputs_runcnt (l : List Input) : (s.setInputs l).runcnt = s.runcnt := rfl
@[simp] theorem State.setInputs_msg (l : List Input) : (s.setInputs l).msg = s.msg := rfl
@[simp] theorem State.setInputs_pix (l : List Input) : (s.setInputs l).pix = s.pix := rfl
@[simp] theorem State.setInputs_inputs (l : List Input) : (s.setInputs l).inputs = l := rfl
@[simp] theorem State.setInputs_outputs (l : List Input) : (s.setInputs l).outputs = s.outputs := rfl

/-! ### whenIdle -/

theorem State.whenIdle_of_idle {s : State} (h : s.busy = false) (t : State) : s.whenIdle t = t := by
  simp [State.whenIdle, h]

theorem State.whenIdle_of_busy {s : State} (h : s.busy = true) (t : State) : s.whenIdle t = s := by
  simp [State.whenIdle, h]

@[simp] theorem State.whenIdle_self (s : State) : s.whenIdle s = s := by simp [State.whenIdle]

/-! ### writeByte -/

/-- A write to MSG changes nothing but MSG. -/
theorem State.writeByte_msg_eq (a : Nat) (v : Byte) :
    s.writeByte .msg a v = { s with msg := (s.writeByte .msg a v).msg } := by
  unfold State.writeByte; split <;> rfl

/-- A write to PIX changes nothing but PIX. -/
theorem State.writeByte_pix_eq (a : Nat) (v : Byte) :
    s.writeByte .pix a v = { s with pix := (s.writeByte .pix a v).pix } := by
  unfold State.writeByte; split <;> rfl

@[simp] theorem State.writeByte_cfg (sp : MemSpace) (a : Nat) (v : Byte) :
    (s.writeByte sp a v).cfg = s.cfg := by
  unfold State.writeByte; split <;> cases sp <;> rfl
@[simp] theorem State.writeByte_powerUp (sp : MemSpace) (a : Nat) (v : Byte) :
    (s.writeByte sp a v).powerUp = s.powerUp := by
  unfold State.writeByte; split <;> cases sp <;> rfl
@[simp] theorem State.writeByte_busy (sp : MemSpace) (a : Nat) (v : Byte) :
    (s.writeByte sp a v).busy = s.busy := by
  unfold State.writeByte; split <;> cases sp <;> rfl
@[simp] theorem State.writeByte_cap (sp : MemSpace) (a : Nat) (v : Byte) :
    (s.writeByte sp a v).cap = s.cap := by
  unfold State.writeByte; split <;> cases sp <;> rfl
@[simp] theorem State.writeByte_result (sp : MemSpace) (a : Nat) (v : Byte) :
    (s.writeByte sp a v).result = s.result := by
  unfold State.writeByte; split <;> cases sp <;> rfl
@[simp] theorem State.writeByte_op (sp : MemSpace) (a : Nat) (v : Byte) :
    (s.writeByte sp a v).op = s.op := by
  unfold State.writeByte; split <;> cases sp <;> rfl
@[simp] theorem State.writeByte_pixelCount (sp : MemSpace) (a : Nat) (v : Byte) :
    (s.writeByte sp a v).pixelCount = s.pixelCount := by
  unfold State.writeByte; split <;> cases sp <;> rfl
@[simp] theorem State.writeByte_msgLen (sp : MemSpace) (a : Nat) (v : Byte) :
    (s.writeByte sp a v).msgLen = s.msgLen := by
  unfold State.writeByte; split <;> cases sp <;> rfl
@[simp] theorem State.writeByte_bitCount (sp : MemSpace) (a : Nat) (v : Byte) :
    (s.writeByte sp a v).bitCount = s.bitCount := by
  unfold State.writeByte; split <;> cases sp <;> rfl
@[simp] theorem State.writeByte_phase (sp : MemSpace) (a : Nat) (v : Byte) :
    (s.writeByte sp a v).phase = s.phase := by
  unfold State.writeByte; split <;> cases sp <;> rfl
@[simp] theorem State.writeByte_k (sp : MemSpace) (a : Nat) (v : Byte) :
    (s.writeByte sp a v).k = s.k := by
  unfold State.writeByte; split <;> cases sp <;> rfl
@[simp] theorem State.writeByte_sh (sp : MemSpace) (a : Nat) (v : Byte) :
    (s.writeByte sp a v).sh = s.sh := by
  unfold State.writeByte; split <;> cases sp <;> rfl
@[simp] theorem State.writeByte_runcnt (sp : MemSpace) (a : Nat) (v : Byte) :
    (s.writeByte sp a v).runcnt = s.runcnt := by
  unfold State.writeByte; split <;> cases sp <;> rfl
@[simp] theorem State.writeByte_msg (a : Nat) (v : Byte) : (s.writeByte .pix a v).msg = s.msg := by
  rw [State.writeByte_pix_eq]
@[simp] theorem State.writeByte_pix (a : Nat) (v : Byte) : (s.writeByte .msg a v).pix = s.pix := by
  rw [State.writeByte_msg_eq]
@[simp] theorem State.writeByte_inputs (sp : MemSpace) (a : Nat) (v : Byte) :
    (s.writeByte sp a v).inputs = s.inputs := by
  unfold State.writeByte; split <;> cases sp <;> rfl
@[simp] theorem State.writeByte_outputs (sp : MemSpace) (a : Nat) (v : Byte) :
    (s.writeByte sp a v).outputs = s.outputs := by
  unfold State.writeByte; split <;> cases sp <;> rfl

end Sys2Proof.Machine
end

