-- ==== Sys2Proof/Laws/Memory.lean ====
section
/-! SUPPORT. The laws of the byte memories: a read after a write, the canonical form, and the bound on the
addresses. -/

namespace Sys2Proof.Machine

/-! ## The list of cells -/

/-- An address below every listed one is unlisted. -/
theorem Memory.byteAt?_eq_none_of_lt {m : Memory} {a : Nat} (h : ∀ c ∈ m, a < c.1) :
    m.byteAt? a = none := by
  induction m with
  | nil => rfl
  | cons c m ih =>
    obtain ⟨b, w⟩ := c
    have hb : a < b := h (b, w) (by simp)
    simp only [Memory.byteAt?, Nat.ne_of_lt hb, if_false]
    exact ih fun c hc => h c (by simp [hc])

/-- In a canonical memory, what an address holds is what is listed for it. -/
theorem Memory.byteAt?_eq_some_iff {m : Memory} (hm : m.wf) {a : Nat} {v : Byte} :
    m.byteAt? a = some v ↔ (a, v) ∈ m := by
  induction m with
  | nil => simp [Memory.byteAt?]
  | cons c m ih =>
    obtain ⟨b, w⟩ := c
    have hb := (List.pairwise_cons.1 hm).1
    unfold Memory.byteAt?
    split
    · subst_vars
      simp only [Option.some.injEq, List.mem_cons, Prod.mk.injEq, true_and]
      exact ⟨fun h => .inl h.symm, fun h => h.elim Eq.symm fun h => absurd (hb _ h) (by simp)⟩
    · rename_i hne
      rw [ih (List.Pairwise.of_cons hm)]; simp [hne]

/-- Reading any address after a store. -/
theorem Memory.byteAt?_store {m : Memory} (hm : m.wf) (a b : Nat) (v : Byte) :
    (m.store a v).byteAt? b = if b = a then some v else m.byteAt? b := by
  induction m with
  | nil => rfl
  | cons c m ih =>
    obtain ⟨e, w⟩ := c
    have ih := ih (List.Pairwise.of_cons hm)
    unfold Memory.store
    split
    · rfl
    · split
      · subst_vars
        simp only [Memory.byteAt?]
        split <;> rfl
      · simp only [Memory.byteAt?, ih]
        grind

/-- The addresses listed after a store. -/
theorem Memory.mem_store {m : Memory} {a : Nat} {v : Byte} {c : Host.Cell} (h : c ∈ m.store a v) :
    c = (a, v) ∨ c ∈ m := by
  induction m with
  | nil => exact .inl (by simpa [Memory.store] using h)
  | cons e m ih =>
    obtain ⟨b, w⟩ := e
    unfold Memory.store at h
    split at h
    · simpa using h
    · split at h
      · rcases List.mem_cons.1 h with h | h <;> simp [h]
      · rcases List.mem_cons.1 h with h | h
        · simp [h]
        · rcases ih h with h | h <;> simp [h]

/-- A store keeps the canonical form. -/
theorem Memory.wf_store {m : Memory} (hm : m.wf) (a : Nat) (v : Byte) : (m.store a v).wf := by
  induction m with
  | nil => simp [Memory.store, Memory.wf]
  | cons e m ih =>
    obtain ⟨b, w⟩ := e
    have hb := (List.pairwise_cons.1 hm).1
    have hm' := List.Pairwise.of_cons hm
    unfold Memory.store
    split
    · rename_i hlt
      refine List.pairwise_cons.2 ⟨fun c hc => ?_, hm⟩
      rcases List.mem_cons.1 hc with rfl | hc
      · exact hlt
      · exact Nat.lt_trans hlt (hb c hc)
    · split
      · subst_vars
        exact List.pairwise_cons.2 ⟨fun c hc => hb c hc, hm'⟩
      · refine List.pairwise_cons.2 ⟨fun c hc => ?_, ih hm'⟩
        rcases Memory.mem_store hc with rfl | hc
        · show b < a
          omega
        · exact hb c hc

/-- A store below the bound keeps the bound. -/
theorem Memory.below_store {m : Memory} {n : Nat} (hm : m.below n) {a : Nat} (ha : a < n) (v : Byte) :
    (m.store a v).below n := by
  intro c hc
  rcases Memory.mem_store hc with rfl | hc
  · exact ha
  · exact hm c hc

/-- Storing what an address already holds changes nothing. -/
theorem Memory.store_self {m : Memory} (hm : m.wf) {a : Nat} {v : Byte} (h : m.byteAt? a = some v) :
    m.store a v = m := by
  induction m with
  | nil => simp [Memory.byteAt?] at h
  | cons e m ih =>
    obtain ⟨b, w⟩ := e
    have hb := (List.pairwise_cons.1 hm).1
    unfold Memory.store
    unfold Memory.byteAt? at h
    split at h
    · simp_all
    · rename_i hne
      have : ¬ a < b := fun hlt => by
        rw [Memory.byteAt?_eq_none_of_lt fun c hc => Nat.lt_trans hlt (hb c hc)] at h
        cases h
      simp [this, hne, ih (List.Pairwise.of_cons hm) h]

/-! ## A byte of the state -/

/-- A read depends on nothing but the configuration, the power-up and that memory. -/
theorem State.readByte_congr {s t : State} {sp : MemSpace} (hc : t.cfg = s.cfg)
    (hp : t.powerUp = s.powerUp) (hm : t.mem sp = s.mem sp) (a : Nat) :
    t.readByte sp a = s.readByte sp a := by
  unfold State.readByte; rw [hc, hp, hm]

/-- What the outside does next is not seen in a read. -/
@[simp] theorem State.readByte_setInputs (s : State) (l : List Input) (sp : MemSpace) (a : Nat) :
    (s.setInputs l).readByte sp a = s.readByte sp a :=
  State.readByte_congr rfl rfl (by cases sp <;> rfl) a

@[simp] theorem State.mem_setInputs (s : State) (l : List Input) (sp : MemSpace) :
    (s.setInputs l).mem sp = s.mem sp := by cases sp <;> rfl

/-! ## Reads through the updates that touch no memory -/

@[simp] theorem State.readByte_accept (s : State) (o : BitVec 4) (sp : MemSpace) (a : Nat) :
    (s.accept o).readByte sp a = s.readByte sp a :=
  State.readByte_congr rfl rfl (by cases sp <;> rfl) a

@[simp] theorem State.readByte_raise (s : State) (r : ResultCode) (sp : MemSpace) (a : Nat) :
    (s.raise r).readByte sp a = s.readByte sp a :=
  State.readByte_congr rfl rfl (by cases sp <;> rfl) a

@[simp] theorem State.readByte_rejectCommand (s : State) (w : Word) (sp : MemSpace) (a : Nat) :
    (s.rejectCommand w).readByte sp a = s.readByte sp a :=
  State.readByte_congr rfl rfl (by cases sp <;> rfl) a

@[simp] theorem State.readByte_resetInput (s : State) (sp : MemSpace) (a : Nat) :
    (s.resetInput).readByte sp a = s.readByte sp a :=
  State.readByte_congr rfl rfl (by cases sp <;> rfl) a

@[simp] theorem State.readByte_setCap (s : State) (b : Bool) (sp : MemSpace) (a : Nat) :
    (s.setCap b).readByte sp a = s.readByte sp a :=
  State.readByte_congr rfl rfl (by cases sp <;> rfl) a

@[simp] theorem State.readByte_setMsgLen (s : State) (n : Nat) (sp : MemSpace) (a : Nat) :
    (s.setMsgLen n).readByte sp a = s.readByte sp a :=
  State.readByte_congr rfl rfl (by cases sp <;> rfl) a

@[simp] theorem State.readByte_setRuncnt (s : State) (r : BitVec 3) (sp : MemSpace) (a : Nat) :
    (s.setRuncnt r).readByte sp a = s.readByte sp a :=
  State.readByte_congr rfl rfl (by cases sp <;> rfl) a

@[simp] theorem State.readByte_toRun (s : State) (sp : MemSpace) (a : Nat) :
    (s.toRun).readByte sp a = s.readByte sp a :=
  State.readByte_congr rfl rfl (by cases sp <;> rfl) a

@[simp] theorem State.readByte_output (s : State) (v : HostData) (sp : MemSpace) (a : Nat) :
    (s.output v).readByte sp a = s.readByte sp a :=
  State.readByte_congr rfl rfl (by cases sp <;> rfl) a

/-! ## Reads and writes -/

/-- A location that does not exist reads 0 (43_host_access.md R156). -/
theorem State.readByte_of_size_le {s : State} {sp : MemSpace} {a : Nat} (h : memSize s.cfg sp ≤ a) :
    s.readByte sp a = 0 := by
  unfold State.readByte; rw [if_neg (Nat.not_lt.2 h)]

/-- The memory after a write to a location that exists. -/
theorem State.mem_writeByte {s : State} {sp : MemSpace} {a : Nat} (h : a < memSize s.cfg sp) (v : Byte) :
    (s.writeByte sp a v).mem sp = (s.mem sp).store a v := by
  unfold State.writeByte; rw [if_pos h]; cases sp <;> rfl

/-- The other memory after a write. -/
theorem State.mem_writeByte_of_ne {s : State} {sp sq : MemSpace} (h : sq ≠ sp) (a : Nat) (v : Byte) :
    (s.writeByte sp a v).mem sq = s.mem sq := by
  cases sp <;> cases sq <;> simp_all [State.mem]

/-- A write to a location that does not exist is ignored (43_host_access.md R156). -/
theorem State.writeByte_of_size_le {s : State} {sp : MemSpace} {a : Nat} (h : memSize s.cfg sp ≤ a)
    (v : Byte) : s.writeByte sp a v = s := by
  unfold State.writeByte; rw [if_neg (Nat.not_lt.2 h)]

/-- Reading any byte of a memory after a write to it. -/
theorem State.readByte_writeByte {s : State} {sp : MemSpace} (hm : (s.mem sp).wf) (a b : Nat) (v : Byte) :
    (s.writeByte sp a v).readByte sp b
      = if b = a ∧ a < memSize s.cfg sp then v else s.readByte sp b := by
  by_cases ha : a < memSize s.cfg sp
  · unfold State.readByte
    rw [State.mem_writeByte ha, Memory.byteAt?_store hm]
    by_cases hb : b = a
    · subst hb; simp [ha]
    · simp [hb]
  · rw [State.writeByte_of_size_le (Nat.not_lt.1 ha)]; simp [ha]

/-- A write to one memory is not seen in the other. -/
theorem State.readByte_writeByte_of_ne {s : State} {sp sq : MemSpace} (h : sq ≠ sp) (a b : Nat) (v : Byte) :
    (s.writeByte sp a v).readByte sq b = s.readByte sq b :=
  State.readByte_congr (by simp) (by simp) (State.mem_writeByte_of_ne h a v) b

/-- A write keeps the canonical form of every memory. -/
theorem State.wf_writeByte {s : State} {sp sq : MemSpace} (hm : (s.mem sq).wf) (a : Nat) (v : Byte) :
    ((s.writeByte sp a v).mem sq).wf := by
  by_cases h : sq = sp
  · subst h
    by_cases ha : a < memSize s.cfg sq
    · rw [State.mem_writeByte ha]; exact Memory.wf_store hm a v
    · rwa [State.writeByte_of_size_le (Nat.not_lt.1 ha)]
  · rwa [State.mem_writeByte_of_ne h]

/-- A write keeps every listed address inside its memory. -/
theorem State.below_writeByte {s : State} {sp sq : MemSpace} (hm : (s.mem sq).below (memSize s.cfg sq))
    (a : Nat) (v : Byte) : ((s.writeByte sp a v).mem sq).below (memSize s.cfg sq) := by
  by_cases h : sq = sp
  · subst h
    by_cases ha : a < memSize s.cfg sq
    · rw [State.mem_writeByte ha]; exact Memory.below_store hm ha v
    · rwa [State.writeByte_of_size_le (Nat.not_lt.1 ha)]
  · rwa [State.mem_writeByte_of_ne h]

end Sys2Proof.Machine
end

