-- ==== Sys2Proof/Laws/Bits.lean ====
section
/-! SUPPORT. The bit operations: substitution, shifting in, and the chunks of collected bits. -/

namespace Sys2Proof.Machine

/-! ## Substitution (41_embed.md R105) -/

/-- Bit 0 of a substituted channel is the stream's bit. -/
@[simp] theorem substitute_lsb (old : Byte) (b : Bool) : (substitute old b).getLsbD 0 = b := by
  cases b <;> simp [substitute, bitByte]

/-- Bits 7 to 1 of a substituted channel are the old ones. -/
theorem substitute_upper (old : Byte) (b : Bool) {i : Nat} (h : 0 < i) :
    (substitute old b).getLsbD i = old.getLsbD i := by
  by_cases hi : i < 8
  · have : i = 1 ∨ i = 2 ∨ i = 3 ∨ i = 4 ∨ i = 5 ∨ i = 6 ∨ i = 7 := by omega
    rcases this with rfl | rfl | rfl | rfl | rfl | rfl | rfl <;> cases b <;>
      simp [substitute, bitByte]
  · simp [BitVec.getLsbD_of_ge, Nat.not_lt.1 hi]

/-- Substituting the bit a channel already holds changes nothing. -/
theorem substitute_self (old : Byte) : substitute old (old.getLsbD 0) = old := by
  revert old; decide

/-- Substituting twice the same bit is substituting once. -/
@[simp] theorem substitute_substitute (old : Byte) (b c : Bool) :
    substitute (substitute old b) c = substitute old c := by
  revert old b c; decide

/-- A substitution changes at most the LSB (41_embed.md R113). -/
theorem substitute_xor (old : Byte) (b : Bool) :
    substitute old b ^^^ old = 0 ∨ substitute old b ^^^ old = 1 := by
  revert old b; decide

/-! ## Shifting in (42_extract.md R122, R133) -/

/-- The bit shifted in last is bit 0. -/
theorem shiftIn_lsb (ch v : Byte) : (shiftIn ch (lsbByte v)).getLsbD 0 = v.getLsbD 0 := by
  simp [shiftIn, lsbByte]

/-- The bits shifted in before move up by one. -/
theorem shiftIn_succ (ch v : Byte) (i : Nat) (h : i + 1 < 8) :
    (shiftIn ch (lsbByte v)).getLsbD (i + 1) = ch.getLsbD i := by
  have hi : i < 8 := by omega
  simp [shiftIn, lsbByte, h, ← BitVec.getLsbD_eq_getElem hi]

/-! ## Chunks (42_extract.md R122) -/

/-- The bits of a chunk being assembled, whatever `SH` held before: after `n` channels, bit `n - 1 - i` is the `i`-th collected. -/
theorem State.foldl_shiftIn_bit (f : Nat → Byte) (init : Byte) (n : Nat) (hn : n ≤ 8) {i : Nat}
    (hi : i < n) :
    ((List.range n).foldl (fun ch i => shiftIn ch (lsbByte (f i))) init).getLsbD (n - 1 - i)
      = (f i).getLsbD 0 := by
  induction n with
  | zero => omega
  | succ n ih =>
    rw [List.range_succ, List.foldl_append, List.foldl_cons, List.foldl_nil]
    by_cases h : i = n
    · subst h; simpa using shiftIn_lsb _ _
    · have : n + 1 - 1 - i = (n - 1 - i) + 1 := by omega
      rw [this, shiftIn_succ _ _ _ (by omega), ih (by omega) (by omega)]

/-- The first collected bit of a chunk is its MSB: bit `7 - i` of chunk `j` is the LSB of channel
`8j + i`. -/
theorem State.chunk_bit (s : State) (j : Nat) {i : Nat} (hi : i < 8) :
    (s.chunk j).getLsbD (7 - i) = (s.readByte .pix (8 * j + i)).getLsbD 0 :=
  State.foldl_shiftIn_bit (fun i => s.readByte .pix (8 * j + i)) 0 8 (by omega) hi

/-- A byte is a chunk when its bits are the collected ones. -/
theorem State.eq_chunk {s : State} {j : Nat} {v : Byte}
    (h : ∀ i < 8, v.getLsbD (7 - i) = (s.readByte .pix (8 * j + i)).getLsbD 0) : v = s.chunk j := by
  refine BitVec.eq_of_getLsbD_eq fun i hi => ?_
  have := h (7 - i) (by omega)
  rw [← s.chunk_bit j (by omega)] at this
  simpa [show 7 - (7 - i) = i by omega] using this

/-- A chunk depends on the pixel memory alone. -/
theorem State.chunk_congr {s t : State} (h : ∀ a, t.readByte .pix a = s.readByte .pix a) (j : Nat) :
    t.chunk j = s.chunk j := by
  unfold State.chunk; simp only [h]

/-- A bit of the stream depends on MSG and `MSG_LEN` alone. -/
theorem State.streamBit_congr {s t : State} (hl : t.msgLen = s.msgLen)
    (h : ∀ a, t.readByte .msg a = s.readByte .msg a) (k : Nat) : t.streamBit k = s.streamBit k := by
  unfold State.streamBit State.framedByte State.payloadLen; simp only [h, hl]

/-! ## The stream and the chunks through the updates that touch no memory -/

@[simp] theorem State.streamBit_accept (s : State) (o : BitVec 4) (k : Nat) :
    (s.accept o).streamBit k = s.streamBit k :=
  State.streamBit_congr (by simp) (fun _ => by simp) k

@[simp] theorem State.chunk_accept (s : State) (o : BitVec 4) (j : Nat) : (s.accept o).chunk j = s.chunk j :=
  State.chunk_congr (fun _ => by simp) j

@[simp] theorem State.streamBit_raise (s : State) (r : ResultCode) (k : Nat) :
    (s.raise r).streamBit k = s.streamBit k :=
  State.streamBit_congr (by simp) (fun _ => by simp) k

@[simp] theorem State.chunk_raise (s : State) (r : ResultCode) (j : Nat) : (s.raise r).chunk j = s.chunk j :=
  State.chunk_congr (fun _ => by simp) j

@[simp] theorem State.streamBit_setCap (s : State) (b : Bool) (k : Nat) :
    (s.setCap b).streamBit k = s.streamBit k :=
  State.streamBit_congr (by simp) (fun _ => by simp) k

@[simp] theorem State.chunk_setCap (s : State) (b : Bool) (j : Nat) : (s.setCap b).chunk j = s.chunk j :=
  State.chunk_congr (fun _ => by simp) j

@[simp] theorem State.streamBit_toRun (s : State) (k : Nat) :
    (s.toRun).streamBit k = s.streamBit k :=
  State.streamBit_congr (by simp) (fun _ => by simp) k

@[simp] theorem State.chunk_toRun (s : State) (j : Nat) : (s.toRun).chunk j = s.chunk j :=
  State.chunk_congr (fun _ => by simp) j

@[simp] theorem State.streamBit_setRuncnt (s : State) (r : BitVec 3) (k : Nat) :
    (s.setRuncnt r).streamBit k = s.streamBit k :=
  State.streamBit_congr (by simp) (fun _ => by simp) k

@[simp] theorem State.chunk_setRuncnt (s : State) (r : BitVec 3) (j : Nat) : (s.setRuncnt r).chunk j = s.chunk j :=
  State.chunk_congr (fun _ => by simp) j

@[simp] theorem State.streamBit_setInputs (s : State) (l : List Input) (k : Nat) :
    (s.setInputs l).streamBit k = s.streamBit k :=
  State.streamBit_congr (by simp) (fun _ => by simp) k

@[simp] theorem State.chunk_setInputs (s : State) (l : List Input) (j : Nat) : (s.setInputs l).chunk j = s.chunk j :=
  State.chunk_congr (fun _ => by simp) j

end Sys2Proof.Machine
end

