-- ==== Sys2Proof/Laws/Embed.lean ====
section
/-! SUPPORT. What the channel walk of EMBED does, and the three ways an accepted EMBED goes on. -/

namespace Sys2Proof.Machine

/-- One channel changes PIX and the cursor, nothing else. -/
theorem State.embedChannel_eq (s : State) (k : Nat) :
    s.embedChannel k = { s with pix := (s.embedChannel k).pix, k := s.k + 1 } := by
  unfold State.embedChannel; rw [State.writeByte_pix_eq]

@[simp] theorem State.embedWalk_zero (s : State) : s.embedWalk 0 = s := rfl

theorem State.embedWalk_succ (s : State) (n : Nat) :
    s.embedWalk (n + 1) = (s.embedWalk n).embedChannel n := by
  simp [State.embedWalk, List.range_succ]

/-- The walk changes PIX and the cursor, nothing else (41_embed.md R110). -/
theorem State.embedWalk_eq (s : State) (n : Nat) :
    s.embedWalk n = { s with pix := (s.embedWalk n).pix, k := s.k + BitVec.ofNat 32 n } := by
  induction n with
  | zero => simp
  | succ n ih =>
    rw [State.embedWalk_succ, State.embedChannel_eq, ih]
    simp [BitVec.ofNat_add, BitVec.add_assoc]

@[simp] theorem State.embedWalk_cfg (s : State) (n : Nat) : (s.embedWalk n).cfg = s.cfg := by
  rw [State.embedWalk_eq]

@[simp] theorem State.embedWalk_msg (s : State) (n : Nat) : (s.embedWalk n).msg = s.msg := by
  rw [State.embedWalk_eq]

@[simp] theorem State.embedWalk_powerUp (s : State) (n : Nat) : (s.embedWalk n).powerUp = s.powerUp := by
  rw [State.embedWalk_eq]

@[simp] theorem State.embedWalk_msgLen (s : State) (n : Nat) : (s.embedWalk n).msgLen = s.msgLen := by
  rw [State.embedWalk_eq]

@[simp] theorem State.embedWalk_k (s : State) (n : Nat) :
    (s.embedWalk n).k = s.k + BitVec.ofNat 32 n := by
  rw [State.embedWalk_eq]

/-- The stream is computed from MSG, which the walk does not change (41_embed.md R112). -/
@[simp] theorem State.streamBit_embedWalk (s : State) (n k : Nat) :
    (s.embedWalk n).streamBit k = s.streamBit k :=
  State.streamBit_congr (by simp)
    (fun a => State.readByte_congr (by simp) (by simp) (by simp [State.mem]) a) k

/-- PIX after one channel. -/
theorem State.readByte_embedChannel {s : State} (hm : s.pix.wf) (k a : Nat) :
    (s.embedChannel k).readByte .pix a
      = if a = k ∧ k < memSize s.cfg .pix then substitute (s.readByte .pix k) (s.streamBit k)
        else s.readByte .pix a := by
  rw [← State.readByte_writeByte (sp := .pix) hm]
  exact State.readByte_congr rfl rfl rfl a

/-- One channel keeps the canonical form of PIX. -/
theorem State.pix_wf_embedChannel {s : State} (hm : s.pix.wf) (k : Nat) : (s.embedChannel k).pix.wf :=
  State.wf_writeByte (sq := .pix) hm k _

/-- The walk keeps the canonical form of PIX. -/
theorem State.pix_wf_embedWalk {s : State} (hm : s.pix.wf) (n : Nat) : (s.embedWalk n).pix.wf := by
  induction n with
  | zero => exact hm
  | succ n ih => rw [State.embedWalk_succ]; exact State.pix_wf_embedChannel ih n

/-- One channel lists only bytes that exist. -/
theorem State.pix_below_embedChannel {s : State} (hm : s.pix.below (memSize s.cfg .pix)) (k : Nat) :
    (s.embedChannel k).pix.below (memSize s.cfg .pix) :=
  State.below_writeByte (sq := .pix) hm k _

/-- The walk lists only bytes that exist. -/
theorem State.pix_below_embedWalk {s : State} (hm : s.pix.below (memSize s.cfg .pix)) (n : Nat) :
    (s.embedWalk n).pix.below (memSize s.cfg .pix) := by
  induction n with
  | zero => exact hm
  | succ n ih =>
    rw [State.embedWalk_succ]
    have := State.pix_below_embedChannel (s := s.embedWalk n) (by simpa using ih) n
    simpa using this

/-- PIX after `n` channels: the first `n` bytes carry their bits, the others are untouched
(41_embed.md R104, R112). -/
theorem State.readByte_embedWalk {s : State} (hm : s.pix.wf) (n a : Nat) :
    (s.embedWalk n).readByte .pix a
      = if a < n ∧ a < memSize s.cfg .pix then substitute (s.readByte .pix a) (s.streamBit a)
        else s.readByte .pix a := by
  induction n with
  | zero => simp
  | succ n ih =>
    rw [State.embedWalk_succ, State.readByte_embedChannel (State.pix_wf_embedWalk hm n)]
    simp only [State.embedWalk_cfg, State.streamBit_embedWalk]
    by_cases h : a = n
    · subst h
      rw [ih]
      by_cases h2 : a < memSize s.cfg .pix <;> simp [h2]
    · rw [ih]
      simp only [h, false_and, if_false]
      have : a < n + 1 ↔ a < n := by omega
      simp only [this]

/-- The pixel memory holds every channel a count below the capacity names. -/
theorem lt_pixSize_of_lt {c : Config} {n a : Nat} (hn : n ≤ c.pixCap) (ha : a < 3 * n) :
    a < memSize c .pix := by
  simp only [memSize]; omega

/-- What an accepted EMBED does, said once: it refuses for its configuration, refuses for its capacity, or
walks the channels (41_embed.md R100; 60_exceptions.md R178). -/
theorem State.embedResult_cases (s : State) :
    (s.cfg.pixCap < s.pixels ∧ s.embedResult = s.raise .badConfig)
    ∨ (s.pixels ≤ s.cfg.pixCap ∧ 3 * s.pixels < s.framedBits ∧ s.embedResult = s.raise .capacityError)
    ∨ (s.pixels ≤ s.cfg.pixCap ∧ s.framedBits ≤ 3 * s.pixels
        ∧ s.embedResult
          = ((s.setCap true).toRun.embedWalk s.framedBits).raise .ok) := by
  unfold State.embedResult State.embedChecked State.tooManyPixels capOk channelsPerPixel
  by_cases h1 : s.cfg.pixCap < s.pixels
  · exact .inl ⟨h1, by simp [h1]⟩
  · by_cases h2 : s.framedBits ≤ 3 * s.pixels
    · refine .inr (.inr ⟨Nat.not_lt.1 h1, h2, ?_⟩)
      simp [h1, h2]
      rfl
    · exact .inr (.inl ⟨Nat.not_lt.1 h1, Nat.not_le.1 h2, by simp [h1, h2]⟩)

end Sys2Proof.Machine
end

