-- ==== Sys2Proof/Laws/Extract.lean ====
section
/-! SUPPORT. What the scan of EXTRACT does: the chunks it appends, where it stops, and its run counter. -/

namespace Sys2Proof.Machine

/-- The state after the first `n` chunks of `s` have been appended. -/
def State.appendChunks (s : State) (n : Nat) : State :=
  (List.range n).foldl (fun t j => t.appendChunk j (s.chunk j)) s

@[simp] theorem State.appendChunks_zero (s : State) : s.appendChunks 0 = s := rfl

theorem State.appendChunks_succ (s : State) (n : Nat) :
    s.appendChunks (n + 1) = (s.appendChunks n).appendChunk n (s.chunk n) := by
  simp [State.appendChunks, List.range_succ]

/-- Appending a chunk changes MSG and the internal registers, nothing else. -/
theorem State.appendChunk_eq (s : State) (j : Nat) (ch : Byte) :
    s.appendChunk j ch = { s with
      msg := (s.appendChunk j ch).msg, k := BitVec.ofNat 32 (8 * (j + 1)), sh := ch,
      runcnt := nextRun s.runcnt ch } := by
  unfold State.appendChunk; rw [State.writeByte_msg_eq]

/-- Appending chunks changes MSG and the internal registers, nothing else (42_extract.md R132). -/
theorem State.appendChunks_eq (s : State) (n : Nat) :
    s.appendChunks n = { s with
      msg := (s.appendChunks n).msg, k := (s.appendChunks n).k, sh := (s.appendChunks n).sh,
      runcnt := (s.appendChunks n).runcnt } := by
  induction n with
  | zero => rfl
  | succ n ih => rw [State.appendChunks_succ, State.appendChunk_eq, ih]

@[simp] theorem State.appendChunks_cfg (s : State) (n : Nat) : (s.appendChunks n).cfg = s.cfg := by
  rw [State.appendChunks_eq]

@[simp] theorem State.appendChunks_powerUp (s : State) (n : Nat) :
    (s.appendChunks n).powerUp = s.powerUp := by
  rw [State.appendChunks_eq]

@[simp] theorem State.appendChunks_pix (s : State) (n : Nat) : (s.appendChunks n).pix = s.pix := by
  rw [State.appendChunks_eq]

/-- The cursor after `n` chunks, from 0. -/
theorem State.appendChunks_k {s : State} (hk : s.k = 0) (n : Nat) :
    (s.appendChunks n).k = BitVec.ofNat 32 (8 * n) := by
  cases n with
  | zero => simpa using hk
  | succ n => rw [State.appendChunks_succ, State.appendChunk_eq]

theorem State.appendChunks_runcnt_succ (s : State) (n : Nat) :
    (s.appendChunks (n + 1)).runcnt = nextRun (s.appendChunks n).runcnt (s.chunk n) := by
  rw [State.appendChunks_succ]; rfl

/-- PIX, and so every chunk, is unchanged by appending. -/
@[simp] theorem State.chunk_appendChunks (s : State) (n j : Nat) :
    (s.appendChunks n).chunk j = s.chunk j :=
  State.chunk_congr (fun a => State.readByte_congr (by simp) (by simp) (by simp [State.mem]) a) j

/-- MSG after a chunk is appended. -/
theorem State.readByte_appendChunk {s : State} (hm : s.msg.wf) (j a : Nat) (ch : Byte) :
    (s.appendChunk j ch).readByte .msg a
      = if a = j ∧ j < memSize s.cfg .msg then ch else s.readByte .msg a := by
  rw [← State.readByte_writeByte (sp := .msg) hm]
  exact State.readByte_congr rfl rfl rfl a

/-- Appending a chunk keeps the canonical form of MSG. -/
theorem State.msg_wf_appendChunk {s : State} (hm : s.msg.wf) (j : Nat) (ch : Byte) :
    (s.appendChunk j ch).msg.wf :=
  State.wf_writeByte (sq := .msg) hm j ch

/-- Appending chunks keeps the canonical form of MSG. -/
theorem State.msg_wf_appendChunks {s : State} (hm : s.msg.wf) (n : Nat) : (s.appendChunks n).msg.wf := by
  induction n with
  | zero => exact hm
  | succ n ih => rw [State.appendChunks_succ]; exact State.msg_wf_appendChunk ih _ _

/-- Appending chunks lists only bytes that exist. -/
theorem State.msg_below_appendChunks {s : State} (hm : s.msg.below (memSize s.cfg .msg)) (n : Nat) :
    (s.appendChunks n).msg.below (memSize s.cfg .msg) := by
  induction n with
  | zero => exact hm
  | succ n ih =>
    rw [State.appendChunks_succ]
    have := State.below_writeByte (s := s.appendChunks n) (sp := .msg) (sq := .msg)
      (by simpa [State.mem] using ih) n (s.chunk n)
    rw [State.appendChunks_cfg] at this
    exact this

/-- MSG after `n` chunks: the first `n` bytes are the decoded ones, the others untouched
(42_extract.md R123, R132). -/
theorem State.readByte_appendChunks {s : State} (hm : s.msg.wf) {n : Nat}
    (hn : n ≤ memSize s.cfg .msg) (a : Nat) :
    (s.appendChunks n).readByte .msg a = if a < n then s.chunk a else s.readByte .msg a := by
  induction n with
  | zero => simp
  | succ n ih =>
    rw [State.appendChunks_succ, State.readByte_appendChunk (State.msg_wf_appendChunks hm n),
      ih (by omega)]
    by_cases h : a = n
    · subst h; simp; omega
    · have : a < n + 1 ↔ a < n := by omega
      simp [h, this]

/-- After chunk `j` the terminator check on MSG is the terminator's end in the chunks. -/
theorem State.terminatorAt_appendChunks {s : State} (hm : s.msg.wf) {j : Nat}
    (hj : j < memSize s.cfg .msg) : (s.appendChunks (j + 1)).terminatorAt j = true ↔ s.closesAt j := by
  have h (i : Nat) : (s.appendChunks (j + 1)).readByte .msg (j - i) = s.chunk (j - i) := by
    rw [State.readByte_appendChunks hm (by omega), if_pos (by omega)]
  have h0 := h 0
  rw [Nat.sub_zero] at h0
  unfold State.terminatorAt State.closesAt
  rw [h 1, h 2, h 3, h0]
  simp only [Bool.and_eq_true, decide_eq_true_eq, beq_iff_eq]
  constructor
  · rintro ⟨⟨⟨⟨h3, e3⟩, e2⟩, e1⟩, e0⟩
    refine ⟨h3, fun i hi => ?_⟩
    have : i = 0 ∨ i = 1 ∨ i = 2 ∨ i = 3 := by omega
    rcases this with rfl | rfl | rfl | rfl <;> assumption
  · rintro ⟨h3, hc⟩
    exact ⟨⟨⟨⟨h3, hc 3 (by omega)⟩, hc 2 (by omega)⟩, hc 1 (by omega)⟩, hc 0 (by omega)⟩

/-- Where the scan stops, said once: at the first chunk at which the terminator ends, or, if it ends at
none, in exhaustion (42_extract.md R125, R126, R127). -/
theorem State.extractScan_cases {s : State} (hm : s.msg.wf) (n j : Nat)
    (hn : j + n ≤ memSize s.cfg .msg) :
    (∃ e, j ≤ e ∧ e < j + n ∧ s.closesAt e ∧ (∀ d, j ≤ d → d < e → ¬ s.closesAt d)
      ∧ State.extractScan n j (s.appendChunks j) = (s.appendChunks (e + 1)).matchedAt e)
    ∨ ((∀ d, j ≤ d → d < j + n → ¬ s.closesAt d)
      ∧ State.extractScan n j (s.appendChunks j) = (s.appendChunks (j + n)).exhausted) := by
  induction n generalizing j with
  | zero => exact .inr ⟨fun d h1 h2 => by omega, rfl⟩
  | succ n ih =>
    have hstep : State.extractScan (n + 1) j (s.appendChunks j)
        = if (s.appendChunks (j + 1)).terminatorAt j then (s.appendChunks (j + 1)).matchedAt j
          else State.extractScan n (j + 1) (s.appendChunks (j + 1)) := by
      rw [State.extractScan, State.chunk_appendChunks, ← State.appendChunks_succ]
    rw [hstep]
    by_cases hc : s.closesAt j
    · refine .inl ⟨j, le_refl j, by omega, hc, fun d h1 h2 => by omega, ?_⟩
      rw [if_pos ((State.terminatorAt_appendChunks hm (by omega)).2 hc)]
    · rw [if_neg (fun h => hc ((State.terminatorAt_appendChunks hm (by omega)).1 h))]
      rcases ih (j + 1) (by omega) with ⟨e, h1, h2, h3, h4, h5⟩ | ⟨h1, h2⟩
      · refine .inl ⟨e, by omega, by omega, h3, fun d hd1 hd2 => ?_, h5⟩
        by_cases hd : d = j
        · subst hd; exact hc
        · exact h4 d (by omega) hd2
      · refine .inr ⟨fun d hd1 hd2 => ?_, by rw [h2]; congr 2; omega⟩
        by_cases hd : d = j
        · subst hd; exact hc
        · exact h1 d (by omega) (by omega)

/-- The chunks a carrier within the capacity holds fit MSG (42_extract.md R131). -/
theorem State.wholeChunks_le {s : State} (h : s.pixels ≤ s.cfg.pixCap) :
    s.wholeChunks ≤ memSize s.cfg .msg := by
  simp only [State.wholeChunks, channelsPerPixel, charBits, memSize]
  omega

/-- What an accepted EXTRACT does, said once: it refuses for its configuration, matches at the first chunk
at which the terminator ends, or exhausts the chunks (42_extract.md R120). -/
theorem State.extractResult_cases {s : State} (hm : s.msg.wf) :
    (s.cfg.pixCap < s.pixels ∧ s.extractResult = s.raise .badConfig)
    ∨ (s.pixels ≤ s.cfg.pixCap ∧ ∃ e, e < s.wholeChunks ∧ s.closesAt e ∧ (∀ d < e, ¬ s.closesAt d)
        ∧ s.extractResult = (s.toRun.appendChunks (e + 1)).matchedAt e)
    ∨ (s.pixels ≤ s.cfg.pixCap ∧ (∀ d < s.wholeChunks, ¬ s.closesAt d)
        ∧ s.extractResult
          = (s.toRun.appendChunks s.wholeChunks).exhausted) := by
  unfold State.extractResult State.extractChecked State.tooManyPixels
  by_cases h1 : s.cfg.pixCap < s.pixels
  · exact .inl ⟨h1, by simp [h1]⟩
  · have h1' := Nat.not_lt.1 h1
    have hcl (d : Nat) : s.toRun.closesAt d ↔ s.closesAt d := Iff.rfl
    rcases State.extractScan_cases (s := s.toRun) hm s.wholeChunks 0
      (by rw [Nat.zero_add]; exact State.wholeChunks_le h1') with ⟨e, _, he, hc, hb, hr⟩ | ⟨hb, hr⟩
    · refine .inr (.inl ⟨h1', e, by omega, hc, fun d hd => hb d (by omega) hd, ?_⟩)
      simp only [h1, decide_false, Bool.false_eq_true, if_false]
      exact hr
    · refine .inr (.inr ⟨h1', fun d hd => hb d (by omega) (by omega), ?_⟩)
      simp only [h1, decide_false, Bool.false_eq_true, if_false]
      rw [Nat.zero_add] at hr
      exact hr

/-! ## The run counter (42_extract.md R135) -/

/-- The run counter after one more chunk, and when it reaches 4: exactly when the terminator ends there. -/
theorem State.RunCounts.next {s t : State} {c : Nat} (h : s.RunCounts c)
    (hch : ∀ j, t.chunk j = s.chunk j) (hr : t.runcnt = nextRun s.runcnt (s.chunk c)) :
    (t.runcnt = 4 ↔ s.closesAt c) ∧ (t.runcnt ≠ 4 → t.RunCounts (c + 1)) := by
  obtain ⟨h3, hc, hrun, hend⟩ := h
  by_cases hh : s.chunk c = hashChar
  · have hv : t.runcnt.toNat = s.runcnt.toNat + 1 := by
      rw [hr, nextRun, if_pos hh, BitVec.toNat_add]
      simp; omega
    have h4 : t.runcnt = 4 ↔ s.runcnt.toNat = 3 := by
      rw [← BitVec.toNat_inj, hv]; simp
    refine ⟨h4.trans (Iff.intro (fun e => ⟨by omega, fun i hi => ?_⟩) fun hcl => ?_), fun hne => ?_⟩
    · by_cases hi0 : i = 0
      · subst hi0; simpa using hh
      · have := hrun (i - 1) (by omega)
        rwa [show c - 1 - (i - 1) = c - i by omega] at this
    · have hc3 := hcl.1
      by_contra hne
      refine hend (by omega) ?_
      rw [show c - 1 - s.runcnt.toNat = c - (s.runcnt.toNat + 1) by omega]
      exact hcl.2 _ (by omega)
    · have hne3 : s.runcnt.toNat ≠ 3 := fun e => hne (h4.2 e)
      refine ⟨by omega, by omega, fun i hi => ?_, fun hlt => ?_⟩
      · rw [hch]
        by_cases hi0 : i = 0
        · subst hi0; simpa using hh
        · have := hrun (i - 1) (by omega)
          rwa [show c - 1 - (i - 1) = c + 1 - 1 - i by omega] at this
      · rw [hch, hv]
        have := hend (by omega)
        rwa [show c - 1 - s.runcnt.toNat = c + 1 - 1 - (s.runcnt.toNat + 1) by omega] at this
  · have hv : t.runcnt = 0 := by rw [hr, nextRun, if_neg hh]
    refine ⟨⟨fun e => ?_, fun hcl => absurd (hcl.2 0 (by omega)) (by simpa using hh)⟩, fun _ => ?_⟩
    · rw [hv] at e
      cases e
    simp only [State.RunCounts, hv]
    exact ⟨by simp, by simp, fun i hi => by simp at hi, fun _ => by rw [hch]; simpa using hh⟩

/-- The run counter after the first `n` chunks, none of which ended a terminator. -/
theorem State.runCounts_appendChunks {s : State} (h0 : s.runcnt = 0) {n : Nat}
    (hb : ∀ d < n, ¬ s.closesAt d) : (s.appendChunks n).RunCounts n := by
  induction n with
  | zero => simp [State.RunCounts, h0]
  | succ n ih =>
    have hcl : (s.appendChunks n).closesAt n ↔ s.closesAt n := by
      simp only [State.closesAt, State.chunk_appendChunks]
    have := State.RunCounts.next (ih fun d hd => hb d (by omega)) (t := s.appendChunks (n + 1))
      (fun j => by simp) (by simpa using s.appendChunks_runcnt_succ n)
    exact this.2 fun h4 => hb n (by omega) (hcl.1 (this.1.1 h4))

end Sys2Proof.Machine
end

