-- ==== Sys2Proof/Laws/Engine.lean ====
section
/-! SUPPORT. The ENGINE steps: what one does, said once, and how the steps of a command follow the channel
walk (41_embed.md R112) and the chunks (42_extract.md R134) of the result level. -/

namespace Sys2Proof.Machine

/-! ## Runs of ENGINE steps -/

@[simp] theorem State.engineRun_zero (s : State) : State.engineRun 0 s = s := rfl

@[simp] theorem State.engineRun_one (s : State) : State.engineRun 1 s = s.engineStep := rfl

theorem State.engineRun_succ (n : Nat) (s : State) :
    State.engineRun (n + 1) s = State.engineRun n s.engineStep := rfl

theorem State.engineRun_add (m n : Nat) (s : State) :
    State.engineRun (m + n) s = State.engineRun n (State.engineRun m s) := by
  induction m generalizing s with
  | zero => simp
  | succ m ih => rw [Nat.succ_add]; exact ih s.engineStep

theorem State.engineRun_succ' (n : Nat) (s : State) :
    State.engineRun (n + 1) s = (State.engineRun n s).engineStep :=
  State.engineRun_add n 1 s

/-! ## One step -/

/-- With `BUSY = 0` the ENGINE does nothing (43_host_access.md R157). -/
theorem State.engineStep_idle {s : State} (h : s.busy = false) : s.engineStep = s := by
  simp [State.engineStep, h]

theorem State.engineRun_idle {s : State} (h : s.busy = false) (n : Nat) : State.engineRun n s = s := by
  induction n with
  | zero => rfl
  | succ n ih => rw [State.engineRun_succ, State.engineStep_idle h, ih]

theorem State.engineStep_chkcap {s : State} (hb : s.busy = true) (ho : s.op = 1) :
    s.engineStep = s.reportCapacity := by
  simp [State.engineStep, hb, ho, ofOp, engineStepOf, chkcapEngineStep]

theorem State.engineStep_embed {s : State} (hb : s.busy = true) (ho : s.op = 2) :
    s.engineStep = embedEngineStep s := by
  simp [State.engineStep, hb, ho, ofOp, engineStepOf]

theorem State.engineStep_extract {s : State} (hb : s.busy = true) (ho : s.op = 3) :
    s.engineStep = extractEngineStep s := by
  simp [State.engineStep, hb, ho, ofOp, engineStepOf]

/-! ## EMBED -/

/-- The ENGINE step of an EMBED at cursor value `n` of the walk that started in `u`. -/
theorem State.engineStep_embedWalk {u : State} (hb : u.busy = true) (ho : u.op = 2)
    (hp : u.phase = .run) (hk : u.k = 0) {n : Nat} (hn : n < 2 ^ 32) :
    (u.embedWalk n).engineStep
      = if n = u.framedBits - 1 then (u.embedWalk (n + 1)).raise .ok else u.embedWalk (n + 1) := by
  have hkn : (u.embedWalk n).k.toNat = n := by
    rw [State.embedWalk_k, hk]; simpa using Nat.mod_eq_of_lt hn
  have hfb : (u.embedWalk n).framedBits = u.framedBits := by
    simp [State.framedBits, State.payloadLen]
  rw [State.engineStep_embed (by rw [State.embedWalk_eq]; exact hb) (by rw [State.embedWalk_eq]; exact ho)]
  unfold embedEngineStep
  rw [show (u.embedWalk n).phase = .run by rw [State.embedWalk_eq]; exact hp]
  simp only [hkn, hfb, State.embedWalk_succ]

/-- Before the last bit, `n` ENGINE steps are `n` channels of the walk (41_embed.md R112). -/
theorem State.engineRun_embedWalk {u : State} (hb : u.busy = true) (ho : u.op = 2)
    (hp : u.phase = .run) (hk : u.k = 0) (hB : u.framedBits ≤ 2 ^ 32) {n : Nat}
    (hn : n < u.framedBits) : State.engineRun n u = u.embedWalk n := by
  induction n with
  | zero => simp
  | succ n ih =>
    rw [State.engineRun_succ', ih (by omega),
      State.engineStep_embedWalk hb ho hp hk (by omega), if_neg (by omega)]

theorem State.framedBits_pos (s : State) : 0 < s.framedBits := by
  simp [State.framedBits, charBits, termLen]

/-- The last bit ends the command: `B` ENGINE steps are the whole walk, and `OK`. -/
theorem State.engineRun_embedWalk_last {u : State} (hb : u.busy = true) (ho : u.op = 2)
    (hp : u.phase = .run) (hk : u.k = 0) (hB : u.framedBits ≤ 2 ^ 32) :
    State.engineRun u.framedBits u = (u.embedWalk u.framedBits).raise .ok := by
  have h0 := u.framedBits_pos
  obtain ⟨n, hn⟩ : ∃ n, u.framedBits = n + 1 := ⟨u.framedBits - 1, by omega⟩
  rw [hn, State.engineRun_succ', State.engineRun_embedWalk hb ho hp hk hB (by omega),
    State.engineStep_embedWalk hb ho hp hk (by omega), if_pos (by omega)]

/-! ## EXTRACT -/

/-- The state after `i` channels of a chunk have been collected from `t`. -/
def State.collected (t : State) (j i : Nat) : State :=
  { t with
    sh := (List.range i).foldl (fun ch i => shiftIn ch (lsbByte (t.readByte .pix (8 * j + i)))) t.sh,
    k := BitVec.ofNat 32 (8 * j + i) }

theorem State.collected_k (t : State) {j i : Nat} (h : 8 * j + i < 2 ^ 32) :
    (t.collected j i).k.toNat = 8 * j + i := by
  rw [State.collected, BitVec.toNat_ofNat, Nat.mod_eq_of_lt h]

theorem State.collect_collected (t : State) {j i : Nat} (h : 8 * j + i < 2 ^ 32) :
    (t.collected j i).collect = t.collected j (i + 1) := by
  unfold State.collect
  rw [t.collected_k h]
  simp only [State.collected, List.range_succ, List.foldl_append, List.foldl_cons, List.foldl_nil]
  congr 1
  simp [BitVec.ofNat_add, BitVec.add_assoc]

/-- Within a chunk, `i` ENGINE steps collect `i` channels. -/
theorem State.engineRun_collected {t : State} (hb : t.busy = true) (ho : t.op = 3)
    (hp : t.phase = .run) {j : Nat} (hk : t.k = BitVec.ofNat 32 (8 * j)) (hj : j < t.wholeChunks)
    (hC : t.chunkBits < 2 ^ 32) {i : Nat} (hi : i ≤ 7) :
    State.engineRun i t = t.collected j i := by
  induction i with
  | zero => simp [State.collected, hk.symm]
  | succ i ih =>
    have hcb : t.chunkBits = 8 * t.wholeChunks := rfl
    have hkk := t.collected_k (j := j) (i := i) (by omega)
    rw [State.engineRun_succ', ih (by omega), State.engineStep_extract (s := t.collected j i) hb ho]
    unfold extractEngineStep
    rw [show (t.collected j i).phase = .run from hp, hkk,
      show (t.collected j i).chunkBits = t.chunkBits from rfl]
    simp only
    rw [if_neg (by omega), if_neg (by omega)]
    exact t.collect_collected (by omega)

/-- After eight channels `SH` is the chunk, whatever it held before (42_extract.md R133). -/
theorem State.collected_sh (t : State) (j : Nat) : (t.collected j 8).sh = t.chunk j :=
  State.eq_chunk fun _ hi =>
    State.foldl_shiftIn_bit (fun i => t.readByte .pix (8 * j + i)) t.sh 8 (by omega) hi

/-- The eighth channel of a chunk appends it, as the result level does, and four in a row end the
command. -/
theorem State.completeChunk_collected (t : State) (j : Nat) :
    (t.collected j 8).completeChunk j
      = if (t.appendChunk j (t.chunk j)).runcnt = 4 then (t.appendChunk j (t.chunk j)).matchedAt j
        else t.appendChunk j (t.chunk j) := by
  have h : ((t.collected j 8).writeByte .msg j (t.collected j 8).sh).setRuncnt
        (nextRun (t.collected j 8).runcnt (t.collected j 8).sh) = t.appendChunk j (t.chunk j) := by
    rw [State.collected_sh]
    unfold State.appendChunk State.writeByte
    rw [show (t.collected j 8).cfg = t.cfg from rfl]
    split <;> simp [State.ext_iff, State.collected_sh] <;> simp [State.collected, Nat.mul_add]
  unfold State.completeChunk
  simp only [h]
  rw [State.collected_sh]
  rfl

/-- Eight ENGINE steps from the state after `j` chunks: the next chunk, and the end if the terminator ends
there (42_extract.md R134, R135). -/
theorem State.engineRun_chunk {u : State} (hb : u.busy = true) (ho : u.op = 3) (hp : u.phase = .run)
    (hk : u.k = 0) (hr : u.runcnt = 0) {j : Nat} (hj : j < u.wholeChunks) (hC : u.chunkBits < 2 ^ 32)
    (hd : ∀ d < j, ¬ u.closesAt d) :
    State.engineRun 8 (u.appendChunks j)
      = if u.closesAt j then (u.appendChunks (j + 1)).matchedAt j else u.appendChunks (j + 1) := by
  have hcb : u.chunkBits = 8 * u.wholeChunks := rfl
  have hwc : (u.appendChunks j).wholeChunks = u.wholeChunks := by
    rw [State.appendChunks_eq]; rfl
  have hcbj : (u.appendChunks j).chunkBits = u.chunkBits := by
    rw [State.appendChunks_eq]; rfl
  have hb' : (u.appendChunks j).busy = true := by rw [State.appendChunks_eq]; exact hb
  have ho' : (u.appendChunks j).op = 3 := by rw [State.appendChunks_eq]; exact ho
  have hp' : (u.appendChunks j).phase = .run := by rw [State.appendChunks_eq]; exact hp
  have hrun := State.engineRun_collected hb' ho' hp' (State.appendChunks_k hk j)
    (by rw [hwc]; exact hj) (by rw [hcbj]; exact hC) (i := 7) (le_refl 7)
  have hkk := (u.appendChunks j).collected_k (j := j) (i := 7) (by omega)
  rw [State.engineRun_succ' 7, hrun,
    State.engineStep_extract (s := (u.appendChunks j).collected j 7) hb' ho']
  unfold extractEngineStep
  rw [show ((u.appendChunks j).collected j 7).phase = .run from hp', hkk,
    show ((u.appendChunks j).collected j 7).chunkBits = (u.appendChunks j).chunkBits from rfl, hcbj]
  simp only
  rw [if_neg (by omega), if_pos (by omega), State.collect_collected _ (by omega),
    show (8 * j + 7) / 8 = j by omega, State.completeChunk_collected, State.chunk_appendChunks,
    ← State.appendChunks_succ]
  have hrc := State.RunCounts.next (State.runCounts_appendChunks hr hd) (t := u.appendChunks (j + 1))
    (fun j => by simp) (by simpa using u.appendChunks_runcnt_succ j)
  have hcl : (u.appendChunks j).closesAt j ↔ u.closesAt j := by
    simp only [State.closesAt, State.chunk_appendChunks]
  have hiff := hrc.1.trans hcl
  by_cases hc : u.closesAt j
  · rw [if_pos (hiff.2 hc), if_pos hc]
  · rw [if_neg (fun h => hc (hiff.1 h)), if_neg hc]

/-- `8 * j` ENGINE steps are `j` chunks, as long as no terminator has ended. -/
theorem State.engineRun_chunks {u : State} (hb : u.busy = true) (ho : u.op = 3) (hp : u.phase = .run)
    (hk : u.k = 0) (hr : u.runcnt = 0) (hC : u.chunkBits < 2 ^ 32) {j : Nat} (hj : j ≤ u.wholeChunks)
    (hd : ∀ d < j, ¬ u.closesAt d) : State.engineRun (8 * j) u = u.appendChunks j := by
  induction j with
  | zero => simp
  | succ j ih =>
    rw [Nat.mul_succ, State.engineRun_add, ih (by omega) fun d h => hd d (by omega),
      State.engineRun_chunk hb ho hp hk hr (by omega) hC fun d h => hd d (by omega),
      if_neg (hd j (by omega))]

/-- With every chunk appended, the next ENGINE step reports exhaustion (42_extract.md R133). -/
theorem State.engineStep_exhausted {u : State} (hb : u.busy = true) (ho : u.op = 3)
    (hp : u.phase = .run) (hk : u.k = 0) (hC : u.chunkBits < 2 ^ 32) :
    (u.appendChunks u.wholeChunks).engineStep = (u.appendChunks u.wholeChunks).exhausted := by
  have hcb : u.chunkBits = 8 * u.wholeChunks := rfl
  have hb' : (u.appendChunks u.wholeChunks).busy = true := by rw [State.appendChunks_eq]; exact hb
  have ho' : (u.appendChunks u.wholeChunks).op = 3 := by rw [State.appendChunks_eq]; exact ho
  have hp' : (u.appendChunks u.wholeChunks).phase = .run := by rw [State.appendChunks_eq]; exact hp
  rw [State.engineStep_extract hb' ho']
  unfold extractEngineStep
  rw [hp']
  simp only
  rw [if_pos]
  rw [State.appendChunks_k hk, show (u.appendChunks u.wholeChunks).chunkBits = u.chunkBits by
    rw [State.appendChunks_eq]; rfl, hcb, BitVec.toNat_ofNat, Nat.mod_eq_of_lt (by omega)]

end Sys2Proof.Machine
end

