-- ==== Sys2Proof/Laws/Step.lean ====
section
/-! SUPPORT. What the decoder answers, what a command word does, and what one step of the machine can do,
each said once. -/

namespace Sys2Proof

/-- The decoder accepts exactly the words whose `RSVD` is 0 and whose `OP` is in the opcode map. -/
theorem decode_eq_ok_iff (w : Word) (i : Instr) :
    decode w = .ok i ↔ rsvdField w = 0 ∧ ofOp (opField w) = some i := by
  unfold decode
  by_cases h : rsvdField w = 0
  · rw [if_neg (by simpa using h)]
    cases ofOp (opField w) <;> simp [h]
  · rw [if_pos h]
    exact ⟨fun hd => (nomatch hd), fun hd => absurd hd.1 h⟩

/-- The opcode map is one to one. -/
theorem ofOp_eq_some_iff (o : BitVec 4) (i : Instr) : ofOp o = some i ↔ o = opOf i := by
  revert o; cases i <;> decide

/-- The two fields make the word. -/
theorem rsvd_append_op (w : Word) : rsvdField w ++ opField w = w := by
  refine BitVec.eq_of_getLsbD_eq fun i hi => ?_
  simp only [rsvdField, opField, BitVec.getLsbD_append, BitVec.getLsbD_extractLsb']
  by_cases h : i < 4
  · simp [h]
  · have : i - 4 < 28 := by omega
    simp [h, this, show 4 + (i - 4) = i by omega]

namespace Machine

/-! ## Commands -/

/-- An idle block runs an accepted EMBED. -/
theorem execEmbed_idle {s : State} (h : s.busy = false) :
    execEmbed s = .next (s.accept 2).embedResult := by
  simp [execEmbed, State.whenIdle, h, opOf]

/-- An idle block runs an accepted EXTRACT. -/
theorem execExtract_idle {s : State} (h : s.busy = false) :
    execExtract s = .next (s.accept 3).extractResult := by
  simp [execExtract, State.whenIdle, h, opOf]

/-- An idle block runs an accepted CHKCAP. -/
theorem execChkcap_idle {s : State} (h : s.busy = false) :
    execChkcap s = .next (s.accept 1).reportCapacity := by
  simp [execChkcap, State.whenIdle, h, opOf]

/-- The effect of an accepted command at the result level, whichever it is. -/
def State.commandResult (s : State) : Instr → State
  | .chkcap => (s.accept 1).reportCapacity
  | .embed => (s.accept 2).embedResult
  | .extract => (s.accept 3).extractResult

/-- Every command answers a next state: the write is ignored while `BUSY` is 1, and otherwise the command
runs (43_host_access.md R152, R155). -/
theorem exec_eq (i : Instr) (s : State) :
    exec i s = .next (if s.busy then s else s.commandResult i) := by
  cases i <;> simp [exec, execChkcap, execEmbed, execExtract, State.whenIdle, State.commandResult, opOf]

/-! ## Steps -/

/-- With nothing left for the outside to do, the step is an ENGINE step. -/
theorem step_nil {s : State} (h : s.inputs = []) : step s = .next s.engineStep := by
  simp [step, State.advance, h]

/-- With an input, the step takes it off the list and does what it says. -/
theorem step_cons {s : State} {i : Input} {rest : List Input} (h : s.inputs = i :: rest) :
    step s = (s.setInputs rest).consume i := by
  simp [step, State.advance, h]

/-- The state a command word leads to. -/
def State.afterCommand (s : State) (w : Word) : State :=
  if s.busy then s
  else match decode w with
    | .ok i => s.commandResult i
    | .error _ => s.rejectCommand w

theorem State.command_eq (s : State) (w : Word) : s.command w = .next (s.afterCommand w) := by
  unfold State.command State.afterCommand
  cases decode w with
  | ok i => exact exec_eq i s
  | error e => rfl

/-- The state an input leads to. -/
def State.afterInput (s : State) : Input → State
  | .readReg i => s.output (.word (s.readReg i))
  | .readMem sp a => s.output (.byte (s.readByte sp a))
  | .writeReg i v => s.writeReg i v
  | .writeMem sp a v => s.writeMem sp a v
  | .engine => s.engineStep
  | .reset => s.resetInput
  | .powerOn => s.powerOnReset
  | .wait => s.poll
  | .command w => s.afterCommand w

theorem State.consume_eq (s : State) (i : Input) : s.consume i = .next (s.afterInput i) := by
  cases i <;> first | rfl | exact s.command_eq _

/-- ALL THAT A STEP CAN DO, said once: an ENGINE step when the outside does nothing, else what the next
input says, on the state with that input taken off. -/
theorem step_cases {s t : State} (h : step s = .next t) :
    (s.inputs = [] ∧ t = s.engineStep)
    ∨ ∃ i rest, s.inputs = i :: rest ∧ t = (s.setInputs rest).afterInput i := by
  cases hi : s.inputs with
  | nil => rw [step_nil hi] at h; cases h; exact .inl ⟨rfl, rfl⟩
  | cons i rest =>
    rw [step_cons hi, State.consume_eq] at h; cases h
    exact .inr ⟨i, rest, rfl, rfl⟩

end Machine
end Sys2Proof
end

