-- ==== Sys2Proof/Laws/Frame.lean ====
section
/-! SUPPORT. What no command and no ENGINE step writes: the configuration, `PIXEL_COUNT`, `BIT_COUNT`, and the
outside's lists (20_memory.md R63). -/

namespace Sys2Proof.Machine

/-- `t` agrees with `s` on everything no command writes. -/
def State.SameOperands (s t : State) : Prop :=
  t.cfg = s.cfg ∧ t.powerUp = s.powerUp ∧ t.pixelCount = s.pixelCount ∧ t.bitCount = s.bitCount
  ∧ t.inputs = s.inputs ∧ t.outputs = s.outputs

theorem State.SameOperands.refl (s : State) : s.SameOperands s := ⟨rfl, rfl, rfl, rfl, rfl, rfl⟩

theorem State.SameOperands.trans {s t u : State} (h : s.SameOperands t) (k : t.SameOperands u) :
    s.SameOperands u := by
  obtain ⟨h1, h2, h3, h4, h5, h6⟩ := h
  obtain ⟨k1, k2, k3, k4, k5, k6⟩ := k
  exact ⟨k1.trans h1, k2.trans h2, k3.trans h3, k4.trans h4, k5.trans h5, k6.trans h6⟩

theorem State.sameOperands_accept (s : State) (o : BitVec 4) : s.SameOperands (s.accept o) :=
  ⟨rfl, rfl, rfl, rfl, rfl, rfl⟩

theorem State.sameOperands_raise (s : State) (r : ResultCode) : s.SameOperands (s.raise r) :=
  ⟨rfl, rfl, rfl, rfl, rfl, rfl⟩

theorem State.sameOperands_embedChannel (s : State) (k : Nat) : s.SameOperands (s.embedChannel k) := by
  rw [State.embedChannel_eq]; exact ⟨rfl, rfl, rfl, rfl, rfl, rfl⟩

theorem State.sameOperands_embedWalk (s : State) (n : Nat) : s.SameOperands (s.embedWalk n) := by
  rw [State.embedWalk_eq]; exact ⟨rfl, rfl, rfl, rfl, rfl, rfl⟩

theorem State.sameOperands_appendChunks (s : State) (n : Nat) : s.SameOperands (s.appendChunks n) := by
  rw [State.appendChunks_eq]; exact ⟨rfl, rfl, rfl, rfl, rfl, rfl⟩

theorem State.sameOperands_matchedAt (s : State) (j : Nat) : s.SameOperands (s.matchedAt j) :=
  ⟨rfl, rfl, rfl, rfl, rfl, rfl⟩

theorem State.sameOperands_exhausted (s : State) : s.SameOperands s.exhausted :=
  ⟨rfl, rfl, rfl, rfl, rfl, rfl⟩

theorem State.sameOperands_collect (s : State) : s.SameOperands s.collect :=
  ⟨rfl, rfl, rfl, rfl, rfl, rfl⟩

theorem State.sameOperands_writeByte (s : State) (sp : MemSpace) (a : Nat) (v : Byte) :
    s.SameOperands (s.writeByte sp a v) := by
  simp [State.SameOperands]

theorem State.sameOperands_completeChunk (s : State) (j : Nat) :
    s.SameOperands (s.completeChunk j) := by
  unfold State.completeChunk
  dsimp only
  split <;> simp [State.SameOperands, State.matchedAt]

/-! ## The ENGINE steps, case by case -/

/-- What an ENGINE step of EMBED does, said once (41_embed.md R111). -/
theorem embedEngineStep_cases (s : State) :
    (s.phase = .start ∧ s.cfg.pixCap < s.pixels ∧ embedEngineStep s = s.raise .badConfig)
    ∨ (s.phase = .start ∧ s.pixels ≤ s.cfg.pixCap ∧ 3 * s.pixels < s.framedBits
        ∧ embedEngineStep s = s.raise .capacityError)
    ∨ (s.phase = .start ∧ s.pixels ≤ s.cfg.pixCap ∧ s.framedBits ≤ 3 * s.pixels
        ∧ embedEngineStep s = (s.setCap true).toRun)
    ∨ (s.phase = .run ∧ s.k.toNat = s.framedBits - 1
        ∧ embedEngineStep s = (s.embedChannel s.k.toNat).raise .ok)
    ∨ (s.phase = .run ∧ s.k.toNat ≠ s.framedBits - 1
        ∧ embedEngineStep s = s.embedChannel s.k.toNat) := by
  unfold embedEngineStep
  cases hp : s.phase with
  | start =>
    simp only [State.embedChecked, State.tooManyPixels, capOk, channelsPerPixel]
    by_cases h1 : s.cfg.pixCap < s.pixels
    · simp [h1]
    · by_cases h2 : s.framedBits ≤ 3 * s.pixels
      · simp [h1, h2]; omega
      · simp [h1, h2]; omega
  | run => by_cases h : s.k.toNat = s.framedBits - 1 <;> simp [h]

/-- What an ENGINE step of EXTRACT does, said once (42_extract.md R133). -/
theorem extractEngineStep_cases (s : State) :
    (s.phase = .start ∧ s.cfg.pixCap < s.pixels ∧ extractEngineStep s = s.raise .badConfig)
    ∨ (s.phase = .start ∧ s.pixels ≤ s.cfg.pixCap ∧ extractEngineStep s = s.toRun)
    ∨ (s.phase = .run ∧ s.k.toNat = s.chunkBits ∧ extractEngineStep s = s.exhausted)
    ∨ (s.phase = .run ∧ s.k.toNat ≠ s.chunkBits ∧ s.k.toNat % 8 = 7
        ∧ extractEngineStep s = s.collect.completeChunk (s.k.toNat / 8))
    ∨ (s.phase = .run ∧ s.k.toNat ≠ s.chunkBits ∧ s.k.toNat % 8 ≠ 7
        ∧ extractEngineStep s = s.collect) := by
  unfold extractEngineStep
  cases hp : s.phase with
  | start =>
    simp only [State.extractChecked, State.tooManyPixels]
    by_cases h1 : s.cfg.pixCap < s.pixels
    · simp [h1]
    · simp [h1]; omega
  | run =>
    by_cases h : s.k.toNat = s.chunkBits
    · simp [h]
    · by_cases h7 : s.k.toNat % 8 = 7 <;> simp [h, h7]

/-- An ENGINE step writes none of them. -/
theorem State.sameOperands_engineStep (s : State) : s.SameOperands s.engineStep := by
  unfold State.engineStep
  split
  · split
    · rename_i i _
      cases i
      · exact ⟨rfl, rfl, rfl, rfl, rfl, rfl⟩
      · show s.SameOperands (embedEngineStep s)
        rcases embedEngineStep_cases s with ⟨_, _, h⟩ | ⟨_, _, _, h⟩ | ⟨_, _, _, h⟩ | ⟨_, _, h⟩ | ⟨_, _, h⟩ <;>
          rw [h]
        · exact s.sameOperands_raise _
        · exact s.sameOperands_raise _
        · exact ⟨rfl, rfl, rfl, rfl, rfl, rfl⟩
        · exact (s.sameOperands_embedChannel _).trans (State.sameOperands_raise _ _)
        · exact s.sameOperands_embedChannel _
      · show s.SameOperands (extractEngineStep s)
        rcases extractEngineStep_cases s with ⟨_, _, h⟩ | ⟨_, _, h⟩ | ⟨_, _, h⟩ | ⟨_, _, _, h⟩ | ⟨_, _, _, h⟩ <;>
          rw [h]
        · exact s.sameOperands_raise _
        · exact ⟨rfl, rfl, rfl, rfl, rfl, rfl⟩
        · exact s.sameOperands_exhausted
        · exact s.sameOperands_collect.trans (State.sameOperands_completeChunk _ _)
        · exact s.sameOperands_collect
    · exact .refl s
  · exact .refl s

/-- The effect of an accepted EMBED writes none of them. -/
theorem State.sameOperands_embedResult (s : State) : s.SameOperands s.embedResult := by
  rcases s.embedResult_cases with ⟨_, h⟩ | ⟨_, _, h⟩ | ⟨_, _, h⟩ <;> rw [h]
  · exact s.sameOperands_raise _
  · exact s.sameOperands_raise _
  · exact State.SameOperands.trans (t := (s.setCap true).toRun) ⟨rfl, rfl, rfl, rfl, rfl, rfl⟩
      ((State.sameOperands_embedWalk _ _).trans (State.sameOperands_raise _ _))

/-- The scan of an EXTRACT writes none of them, in any state. -/
theorem State.sameOperands_extractScan (n j : Nat) (s : State) :
    s.SameOperands (State.extractScan n j s) := by
  have happ (j : Nat) (s : State) (ch : Byte) : s.SameOperands (s.appendChunk j ch) := by
    rw [State.appendChunk_eq]; exact ⟨rfl, rfl, rfl, rfl, rfl, rfl⟩
  induction n generalizing j s with
  | zero => exact s.sameOperands_exhausted
  | succ n ih =>
    unfold State.extractScan
    split
    · exact (happ _ _ _).trans (State.sameOperands_matchedAt _ _)
    · exact (happ _ _ _).trans (ih _ _)

/-- The effect of an accepted EXTRACT writes none of them. -/
theorem State.sameOperands_extractResult (s : State) : s.SameOperands s.extractResult := by
  unfold State.extractResult State.extractChecked
  split
  · exact s.sameOperands_raise _
  · exact State.SameOperands.trans (t := s.toRun) ⟨rfl, rfl, rfl, rfl, rfl, rfl⟩
      (State.sameOperands_extractScan _ _ _)

/-- No command writes any of them. -/
theorem State.sameOperands_commandResult (s : State) (i : Instr) :
    s.SameOperands (s.commandResult i) := by
  cases i
  · exact ⟨rfl, rfl, rfl, rfl, rfl, rfl⟩
  · exact (s.sameOperands_accept 2).trans (State.sameOperands_embedResult _)
  · exact (s.sameOperands_accept 3).trans (State.sameOperands_extractResult _)

end Sys2Proof.Machine
end

