-- ==== Sys2Proof/Laws/Outside.lean ====
section
/-! SUPPORT. The ENGINE and the outside: an ENGINE step neither reads nor writes what the outside does, and
runs of the whole machine step by step. -/

namespace Sys2Proof.Machine

/-- `s` with other lists of the outside. -/
def State.withOutside (s : State) (l : List Input) (o : List HostData) : State :=
  { s with inputs := l, outputs := o }

theorem State.embedChannel_withOutside (s : State) (l : List Input) (o : List HostData) (k : Nat) :
    (s.withOutside l o).embedChannel k = (s.embedChannel k).withOutside l o := by
  unfold State.embedChannel State.writeByte
  by_cases h : k < memSize s.cfg .pix
  · rw [if_pos (show k < memSize (s.withOutside l o).cfg .pix from h), if_pos h]; rfl
  · rw [if_neg (show ¬ k < memSize (s.withOutside l o).cfg .pix from h), if_neg h]; rfl

theorem State.writeByte_withOutside (s : State) (l : List Input) (o : List HostData) (sp : MemSpace)
    (k : Nat) (v : Byte) : (s.withOutside l o).writeByte sp k v = (s.writeByte sp k v).withOutside l o := by
  unfold State.writeByte
  by_cases h : k < memSize s.cfg sp
  · rw [if_pos (show k < memSize (s.withOutside l o).cfg sp from h), if_pos h]; cases sp <;> rfl
  · rw [if_neg (show ¬ k < memSize (s.withOutside l o).cfg sp from h), if_neg h]

theorem State.completeChunk_withOutside (s : State) (l : List Input) (o : List HostData) (j : Nat) :
    (s.withOutside l o).completeChunk j = (s.completeChunk j).withOutside l o := by
  unfold State.completeChunk
  dsimp only
  rw [State.writeByte_withOutside, show (s.withOutside l o).runcnt = s.runcnt from rfl,
    show (s.withOutside l o).sh = s.sh from rfl]
  split <;> rfl

/-- An ENGINE step does not depend on what the outside does. -/
theorem State.engineStep_withOutside (s : State) (l : List Input) (o : List HostData) :
    (s.withOutside l o).engineStep = s.engineStep.withOutside l o := by
  unfold State.engineStep
  rw [show (s.withOutside l o).busy = s.busy from rfl, show (s.withOutside l o).op = s.op from rfl]
  split
  · cases ofOp s.op with
    | none => rfl
    | some i =>
      cases i
      · rfl
      · show embedEngineStep (s.withOutside l o) = (embedEngineStep s).withOutside l o
        unfold embedEngineStep State.embedChecked
        rw [show (s.withOutside l o).phase = s.phase from rfl]
        cases s.phase with
        | start =>
          dsimp only
          rw [show (s.withOutside l o).tooManyPixels = s.tooManyPixels from rfl,
            show (s.withOutside l o).framedBits = s.framedBits from rfl,
            show (s.withOutside l o).pixels = s.pixels from rfl]
          split
          · rfl
          · split <;> rfl
        | run =>
          dsimp only
          rw [show (s.withOutside l o).framedBits = s.framedBits from rfl,
            show (s.withOutside l o).k = s.k from rfl, State.embedChannel_withOutside]
          split <;> rfl
      · show extractEngineStep (s.withOutside l o) = (extractEngineStep s).withOutside l o
        unfold extractEngineStep State.extractChecked
        rw [show (s.withOutside l o).phase = s.phase from rfl]
        cases s.phase with
        | start =>
          dsimp only
          rw [show (s.withOutside l o).tooManyPixels = s.tooManyPixels from rfl]
          split <;> rfl
        | run =>
          dsimp only
          rw [show (s.withOutside l o).chunkBits = s.chunkBits from rfl,
            show (s.withOutside l o).k = s.k from rfl,
            show (s.withOutside l o).collect = s.collect.withOutside l o from rfl,
            State.completeChunk_withOutside]
          split
          · rfl
          · split <;> rfl
  · rfl

/-- Nor do many. -/
theorem State.engineRun_withOutside (s : State) (l : List Input) (o : List HostData) (n : Nat) :
    State.engineRun n (s.withOutside l o) = (State.engineRun n s).withOutside l o := by
  induction n generalizing s with
  | zero => rfl
  | succ n ih => rw [State.engineRun_succ, State.engineStep_withOutside, ih, ← State.engineRun_succ]

/-- The block after an ENGINE step depends on the block alone. -/
theorem State.block_engineStep {s t : State} (h : s.block = t.block) :
    s.engineStep.block = t.engineStep.block := by
  have e : ∀ s : State, s.engineStep.block = s.block.engineStep := fun s =>
    (s.engineStep_withOutside [] []).symm
  rw [e, e, h]

theorem State.block_engineRun (n : Nat) {s t : State} (h : s.block = t.block) :
    (State.engineRun n s).block = (State.engineRun n t).block := by
  induction n generalizing s t with
  | zero => exact h
  | succ n ih => exact ih (State.block_engineStep h)

theorem State.busy_eq_of_block {s t : State} (h : s.block = t.block) : s.busy = t.busy := by
  have : s.block.busy = t.block.busy := by rw [h]
  exact this

/-- A run of the machine, one step taken. -/
theorem core_run_succ {s t : State} (n : Nat) (h : step s = .next t) :
    Host.Core.run Sys2Proof.core (n + 1) s = Host.Core.run Sys2Proof.core n t := by
  have := Host.Core.run.eq_2 Sys2Proof.core s n
  rw [show Sys2Proof.core.step s = .next t from h] at this
  exact this

theorem core_run_zero (s : State) : Host.Core.run Sys2Proof.core 0 s = .next s := rfl

end Sys2Proof.Machine
end

