-- ==== Sys2Proof/Laws/Runs.lean ====
section
/-! SUPPORT. A command from acceptance on: its end state at the result level and its ENGINE steps, each in the
terms of the walk and of the chunks. -/

namespace Sys2Proof.Machine

/-! ## The counts of an accepted command, by their registers -/

theorem State.pixels_accept (s : State) (o : BitVec 4) : (s.accept o).pixels = s.pixelCount.toNat := rfl

theorem State.framedBits_accept (s : State) (o : BitVec 4) :
    (s.accept o).framedBits = 8 * (s.msgLen.toNat + 4) := rfl

theorem State.wholeChunks_accept (s : State) (o : BitVec 4) :
    (s.accept o).wholeChunks = 3 * s.pixelCount.toNat / 8 := rfl

theorem State.wholeChunks_toRun_accept (s : State) :
    (s.accept 3).toRun.wholeChunks = 3 * s.pixelCount.toNat / 8 := rfl

theorem State.chunkBits_toRun_accept (s : State) :
    (s.accept 3).toRun.chunkBits = 8 * (3 * s.pixelCount.toNat / 8) := rfl

theorem State.closesAt_accept (s : State) (o : BitVec 4) (e : Nat) :
    (s.accept o).closesAt e ↔ s.closesAt e := by simp [State.closesAt]

theorem State.closesAt_toRun (s : State) (e : Nat) : s.toRun.closesAt e ↔ s.closesAt e := by
  simp [State.closesAt]

/-- The terminator's end, its four characters written out. -/
theorem State.closesAt_iff (s : State) (e : Nat) :
    s.closesAt e ↔ 3 ≤ e ∧ s.chunk (e - 3) = 0x23 ∧ s.chunk (e - 2) = 0x23 ∧ s.chunk (e - 1) = 0x23
      ∧ s.chunk e = 0x23 := by
  constructor
  · rintro ⟨h, hc⟩
    exact ⟨h, hc 3 (by omega), hc 2 (by omega), hc 1 (by omega), hc 0 (by omega)⟩
  · rintro ⟨h, h3, h2, h1, h0⟩
    refine ⟨h, fun i hi => ?_⟩
    have : i = 0 ∨ i = 1 ∨ i = 2 ∨ i = 3 := by omega
    rcases this with rfl | rfl | rfl | rfl <;> assumption

/-- A run that is still busy was busy all along. -/
theorem State.engineRun_busy_of_le {s : State} {m n : Nat} (h : (State.engineRun n s).busy = true)
    (hm : m ≤ n) : (State.engineRun m s).busy = true := by
  by_contra hc
  have hc : (State.engineRun m s).busy = false := by simpa using hc
  obtain ⟨k, rfl⟩ := Nat.exists_eq_add_of_le hm
  rw [State.engineRun_add, State.engineRun_idle hc] at h
  rw [hc] at h; cases h

/-! ## EMBED -/

/-- A successful EMBED is the whole walk, and `OK`. -/
theorem exec_embed_walk {s : State} (hb : s.busy = false) (hN : s.pixelCount.toNat ≤ s.cfg.pixCap)
    (h : 8 * (s.msgLen.toNat + 4) ≤ 3 * s.pixelCount.toNat) :
    exec .embed s
      = .next ((((s.accept 2).setCap true).toRun.embedWalk (8 * (s.msgLen.toNat + 4))).raise .ok) := by
  simp only [exec_eq, hb, Bool.false_eq_true, if_false]
  rcases (s.accept 2).embedResult_cases with ⟨h1, _⟩ | ⟨_, h1, _⟩ | ⟨_, _, h1⟩
  · simp only [State.pixels_accept, State.accept_cfg] at h1; omega
  · simp only [State.pixels_accept, State.framedBits_accept] at h1; omega
  · simp only [State.commandResult, h1]; rfl

/-- PIX after `n` channels of a successful EMBED's walk. -/
theorem State.readByte_walk_accept {s : State} (hw : s.pix.wf) (hN : s.pixelCount.toNat ≤ s.cfg.pixCap)
    (h : 8 * (s.msgLen.toNat + 4) ≤ 3 * s.pixelCount.toNat) {n : Nat}
    (hn : n ≤ 8 * (s.msgLen.toNat + 4)) (a : Nat) :
    (((s.accept 2).setCap true).toRun.embedWalk n).readByte .pix a
      = if a < n then substitute (s.readByte .pix a) (s.streamBit a) else s.readByte .pix a := by
  rw [State.readByte_embedWalk (s := ((s.accept 2).setCap true).toRun) hw, State.streamBit_toRun,
    State.streamBit_setCap, State.streamBit_accept, State.readByte_toRun, State.readByte_setCap,
    State.readByte_accept]
  by_cases ha : a < n
  · have : a < memSize s.cfg .pix := by simp only [memSize]; omega
    simp [ha, this]
  · simp [ha]

/-- The START step of an EMBED that passes its checks. -/
theorem State.engineRun_one_embed {s : State} (hN : s.pixelCount.toNat ≤ s.cfg.pixCap)
    (h : 8 * (s.msgLen.toNat + 4) ≤ 3 * s.pixelCount.toNat) :
    State.engineRun 1 (s.accept 2) = ((s.accept 2).setCap true).toRun := by
  rw [State.engineRun_one, State.engineStep_embed rfl rfl]
  rcases embedEngineStep_cases (s.accept 2)
    with ⟨_, h1, _⟩ | ⟨_, _, h1, _⟩ | ⟨_, _, _, h1⟩ | ⟨h1, _⟩ | ⟨h1, _⟩
  · simp only [State.pixels_accept, State.accept_cfg] at h1; omega
  · simp only [State.pixels_accept, State.framedBits_accept] at h1; omega
  · exact h1
  all_goals cases h1

/-- The START step of an EMBED that fails a check is its end. -/
theorem State.engineRun_one_embed_refused {s : State}
    (h : s.cfg.pixCap < s.pixelCount.toNat ∨ 3 * s.pixelCount.toNat < 8 * (s.msgLen.toNat + 4)) :
    State.engineRun 1 (s.accept 2) = (s.accept 2).embedResult
      ∧ (s.accept 2).embedResult.busy = false := by
  rw [State.engineRun_one, State.engineStep_embed rfl rfl]
  rcases embedEngineStep_cases (s.accept 2)
    with ⟨_, h1, h2⟩ | ⟨_, h0, h1, h2⟩ | ⟨_, h0, h1, _⟩ | ⟨h1, _⟩ | ⟨h1, _⟩
  · rcases (s.accept 2).embedResult_cases with ⟨h3, h4⟩ | ⟨h3, _, _⟩ | ⟨h3, _, _⟩
    · rw [h2, h4]; exact ⟨rfl, rfl⟩
    all_goals omega
  · rcases (s.accept 2).embedResult_cases with ⟨h3, h4⟩ | ⟨h3, _, h4⟩ | ⟨h3, _, _⟩
    · omega
    · rw [h2, h4]; exact ⟨rfl, rfl⟩
    · omega
  · simp only [State.pixels_accept, State.framedBits_accept, State.accept_cfg] at h0 h1; omega
  all_goals cases h1

/-- All the ENGINE steps of a successful EMBED. -/
theorem State.engineRun_embed {s : State} (hc : s.cfg.wf) (hN : s.pixelCount.toNat ≤ s.cfg.pixCap)
    (h : 8 * (s.msgLen.toNat + 4) ≤ 3 * s.pixelCount.toNat) :
    State.engineRun (1 + 8 * (s.msgLen.toNat + 4)) (s.accept 2)
        = (((s.accept 2).setCap true).toRun.embedWalk (8 * (s.msgLen.toNat + 4))).raise .ok
      ∧ ∀ m < 1 + 8 * (s.msgLen.toNat + 4), (State.engineRun m (s.accept 2)).busy = true := by
  have hB : (((s.accept 2).setCap true).toRun).framedBits = 8 * (s.msgLen.toNat + 4) := rfl
  have h32 : 8 * (s.msgLen.toNat + 4) ≤ 2 ^ 32 := by have := hc.2; omega
  constructor
  · rw [State.engineRun_add, State.engineRun_one_embed hN h, ← hB]
    exact State.engineRun_embedWalk_last rfl rfl rfl rfl (by rw [hB]; exact h32)
  · intro m hm
    refine State.engineRun_busy_of_le (n := 1 + (8 * (s.msgLen.toNat + 4) - 1)) ?_ (by omega)
    rw [State.engineRun_add, State.engineRun_one_embed hN h,
      State.engineRun_embedWalk rfl rfl rfl rfl (by rw [hB]; exact h32) (by rw [hB]; omega),
      State.embedWalk_eq]
    rfl

/-! ## EXTRACT -/

theorem exec_extract_idle {s : State} (hb : s.busy = false) :
    exec .extract s = .next (s.accept 3).extractResult := by
  rw [exec_eq]; simp [hb, State.commandResult]

/-- An EXTRACT within its capacity ends at the first terminator, or in exhaustion. -/
theorem exec_extract_cases {s : State} (hb : s.busy = false) (hm : s.msg.wf)
    (hN : s.pixelCount.toNat ≤ s.cfg.pixCap) :
    (∃ e, e < 3 * s.pixelCount.toNat / 8 ∧ s.closesAt e ∧ (∀ d < e, ¬ s.closesAt d)
      ∧ exec .extract s = .next (((s.accept 3).toRun.appendChunks (e + 1)).matchedAt e))
    ∨ ((∀ d < 3 * s.pixelCount.toNat / 8, ¬ s.closesAt d)
      ∧ exec .extract s
        = .next (((s.accept 3).toRun.appendChunks (3 * s.pixelCount.toNat / 8)).exhausted)) := by
  rw [exec_extract_idle hb]
  rcases State.extractResult_cases (s := s.accept 3) hm with ⟨h, _⟩ | ⟨_, e, h1, h2, h3, h4⟩ | ⟨_, h1, h2⟩
  · simp only [State.pixels_accept, State.accept_cfg] at h; omega
  · simp only [State.closesAt_accept] at *
    exact .inl ⟨e, h1, h2, h3, by rw [h4]⟩
  · simp only [State.closesAt_accept] at *
    exact .inr ⟨h1, by rw [h2]; rfl⟩

/-- MSG after `n` chunks of an EXTRACT. -/
theorem State.readByte_chunks_accept {s : State} (hm : s.msg.wf) {n : Nat}
    (hN : s.pixelCount.toNat ≤ s.cfg.pixCap) (hn : n ≤ 3 * s.pixelCount.toNat / 8) (a : Nat) :
    ((s.accept 3).toRun.appendChunks n).readByte .msg a
      = if a < n then s.chunk a else s.readByte .msg a := by
  rw [State.readByte_appendChunks (s := (s.accept 3).toRun) hm (by simp [memSize]; omega)]
  simp

@[simp] theorem State.readByte_matchedAt (s : State) (e a : Nat) (sp : MemSpace) :
    (s.matchedAt e).readByte sp a = s.readByte sp a := by simp [State.matchedAt]

@[simp] theorem State.readByte_exhausted (s : State) (a : Nat) (sp : MemSpace) :
    s.exhausted.readByte sp a = s.readByte sp a := by simp [State.exhausted]

/-- The START step of an EXTRACT that passes its check. -/
theorem State.engineRun_one_extract {s : State} (hN : s.pixelCount.toNat ≤ s.cfg.pixCap) :
    State.engineRun 1 (s.accept 3) = (s.accept 3).toRun := by
  rw [State.engineRun_one, State.engineStep_extract rfl rfl]
  rcases extractEngineStep_cases (s.accept 3) with ⟨_, h, _⟩ | ⟨_, _, h⟩ | ⟨h, _⟩ | ⟨h, _⟩ | ⟨h, _⟩
  · simp only [State.pixels_accept, State.accept_cfg] at h; omega
  · exact h
  all_goals cases h

/-- After the START step and `8 * j` steps, with no terminator before chunk `j`. -/
theorem State.engineRun_extract_chunks {s : State} (hN : s.pixelCount.toNat ≤ s.cfg.pixCap)
    (hc : s.cfg.wf) {j : Nat} (hj : j ≤ 3 * s.pixelCount.toNat / 8) (hd : ∀ d < j, ¬ s.closesAt d) :
    State.engineRun (1 + 8 * j) (s.accept 3) = (s.accept 3).toRun.appendChunks j := by
  have h32 : 8 * (3 * s.pixelCount.toNat / 8) < 2 ^ 32 := by have := hc.2; omega
  rw [State.engineRun_add, State.engineRun_one_extract hN,
    State.engineRun_chunks (u := (s.accept 3).toRun) rfl rfl rfl rfl rfl
      (by rw [State.chunkBits_toRun_accept]; exact h32) (by rw [State.wholeChunks_toRun_accept]; omega)
      (by simpa [State.closesAt_toRun, State.closesAt_accept] using hd)]

/-- The same, and `i` channels of chunk `j`. -/
theorem State.engineRun_extract_within {s : State} (hN : s.pixelCount.toNat ≤ s.cfg.pixCap)
    (hc : s.cfg.wf) {j i : Nat} (hj : j < 3 * s.pixelCount.toNat / 8) (hi : i ≤ 7)
    (hd : ∀ d < j, ¬ s.closesAt d) :
    State.engineRun (1 + (8 * j + i)) (s.accept 3)
      = ((s.accept 3).toRun.appendChunks j).collected j i := by
  have h32 : 8 * (3 * s.pixelCount.toNat / 8) < 2 ^ 32 := by have := hc.2; omega
  rw [show 1 + (8 * j + i) = (1 + 8 * j) + i by omega, State.engineRun_add,
    State.engineRun_extract_chunks hN hc (by omega) hd]
  have hw : ((s.accept 3).toRun.appendChunks j).wholeChunks = 3 * s.pixelCount.toNat / 8 := by
    rw [State.appendChunks_eq]; rfl
  have hcb : ((s.accept 3).toRun.appendChunks j).chunkBits = 8 * (3 * s.pixelCount.toNat / 8) := by
    rw [State.appendChunks_eq]; rfl
  exact State.engineRun_collected (by rw [State.appendChunks_eq]; rfl) (by rw [State.appendChunks_eq]; rfl)
    (by rw [State.appendChunks_eq]; rfl) (State.appendChunks_k rfl j) (by omega) (by omega) hi

/-- The ENGINE steps of an EXTRACT whose first terminator ends at chunk `j`. -/
theorem State.engineRun_extract_matched {s : State} (hN : s.pixelCount.toNat ≤ s.cfg.pixCap)
    (hc : s.cfg.wf) {j : Nat} (hj : j < 3 * s.pixelCount.toNat / 8) (hd : ∀ d < j, ¬ s.closesAt d)
    (hcl : s.closesAt j) :
    State.engineRun (1 + 8 * (j + 1)) (s.accept 3)
      = ((s.accept 3).toRun.appendChunks (j + 1)).matchedAt j := by
  have h32 : 8 * (3 * s.pixelCount.toNat / 8) < 2 ^ 32 := by have := hc.2; omega
  rw [show 1 + 8 * (j + 1) = (1 + 8 * j) + 8 by ring, State.engineRun_add,
    State.engineRun_extract_chunks hN hc (by omega) hd,
    State.engineRun_chunk (u := (s.accept 3).toRun) rfl rfl rfl rfl rfl
      (by rw [State.wholeChunks_toRun_accept]; omega) (by rw [State.chunkBits_toRun_accept]; exact h32)
      (by simpa [State.closesAt_toRun, State.closesAt_accept] using hd),
    if_pos (by simpa [State.closesAt_toRun, State.closesAt_accept] using hcl)]

/-- The ENGINE steps of an EXTRACT that finds no terminator. -/
theorem State.engineRun_extract_exhausted {s : State} (hN : s.pixelCount.toNat ≤ s.cfg.pixCap)
    (hc : s.cfg.wf) (hd : ∀ d < 3 * s.pixelCount.toNat / 8, ¬ s.closesAt d) :
    State.engineRun (2 + 8 * (3 * s.pixelCount.toNat / 8)) (s.accept 3)
      = ((s.accept 3).toRun.appendChunks (3 * s.pixelCount.toNat / 8)).exhausted := by
  have h32 : 8 * (3 * s.pixelCount.toNat / 8) < 2 ^ 32 := by have := hc.2; omega
  rw [show 2 + 8 * (3 * s.pixelCount.toNat / 8) = (1 + 8 * (3 * s.pixelCount.toNat / 8)) + 1 by ring,
    State.engineRun_succ', State.engineRun_extract_chunks hN hc (le_refl _) hd]
  exact State.engineStep_exhausted (u := (s.accept 3).toRun) rfl rfl rfl rfl
    (by rw [State.chunkBits_toRun_accept]; exact h32)

/-- While chunks are being appended the command is running. -/
theorem State.busy_chunks_accept (s : State) (j : Nat) :
    ((s.accept 3).toRun.appendChunks j).busy = true := by rw [State.appendChunks_eq]; rfl

end Sys2Proof.Machine
end

