-- ==== Sys2Proof/Laws/Invariant.lean ====
section
/-! SUPPORT. The parts of the invariant's preservation: acceptance, rejection, the idle states, and the ENGINE
step of each command. -/

namespace Sys2Proof.Machine

/-- With `BUSY = 0` only the first four parts of the invariant say anything. -/
theorem State.inv_of_idle {s : State} (hb : s.busy = false) (hc : s.cfg.wf) (hm : s.MemoryOk)
    (hs : s.StatusOk) (hr : s.RangesOk) : s.Inv :=
  ⟨hc, hm, hs, hr, by simp [State.StartOk, hb], by simp [State.EmbedRunOk, hb],
    by simp [State.ExtractRunOk, hb]⟩

/-- A byte write keeps both memories canonical and within their sizes. -/
theorem State.memoryOk_writeByte {s : State} (hm : s.MemoryOk) (sp : MemSpace) (a : Nat) (v : Byte) :
    (s.writeByte sp a v).MemoryOk := by
  obtain ⟨h1, h2, h3, h4⟩ := hm
  have e : (s.writeByte sp a v).cfg = s.cfg := by simp
  refine ⟨State.wf_writeByte (sq := .msg) h1 a v, ?_, State.wf_writeByte (sq := .pix) h3 a v, ?_⟩ <;> rw [e]
  · exact State.below_writeByte (sq := .msg) h2 a v
  · exact State.below_writeByte (sq := .pix) h4 a v

/-- Acceptance of a command establishes the invariant's part about running commands. -/
theorem State.inv_accept {s : State} (h : s.Inv) (i : Instr) : (s.accept (opOf i)).Inv := by
  obtain ⟨hc, hm, hs, hr, -⟩ := h
  refine ⟨hc, hm, ⟨fun _ => ⟨rfl, ?_, ?_⟩, fun h => (nomatch h)⟩, ⟨Nat.zero_le _, Nat.zero_le _⟩,
    fun _ => ⟨fun _ => ⟨rfl, rfl, rfl⟩, fun _ => rfl⟩, ?_, ?_⟩
  · cases i <;> simp [State.accept, opOf]
  · simp [State.accept]
  · intro _ _ h; cases h
  · intro _ _ h; cases h

/-- So does the rejection of an illegal word. -/
theorem State.inv_rejectCommand {s : State} (h : s.Inv) (w : Word) : (s.rejectCommand w).Inv :=
  State.inv_of_idle rfl h.1 h.2.1
    ⟨fun h => (nomatch h), fun _ => by simp [State.rejectCommand, State.raise]⟩ h.2.2.2.1

/-- The ENGINE step of CHKCAP. -/
theorem State.inv_reportCapacity {s : State} (h : s.Inv) (ho : s.op = 1) : s.reportCapacity.Inv := by
  obtain ⟨hc, hm, hs, hr, -⟩ := h
  refine State.inv_of_idle rfl hc hm ⟨fun h => (nomatch h), fun _ => ?_⟩ hr
  simp [State.reportCapacity, State.raise, State.setCap, ho]

/-- The ENGINE step of EMBED. -/
theorem inv_embedEngineStep {s : State} (h : s.Inv) (hb : s.busy = true) (ho : s.op = 2) :
    (embedEngineStep s).Inv := by
  obtain ⟨hc, hm, hs, hr, hst, he, hx⟩ := h
  obtain ⟨hs1, -, hcap⟩ := hs.1 hb
  rcases embedEngineStep_cases s with ⟨hp, h1, h2⟩ | ⟨hp, h0, h1, h2⟩ | ⟨hp, h0, h1, h2⟩ | ⟨hp, h1, h2⟩ | ⟨hp, h1, h2⟩ <;> rw [h2]
  · refine State.inv_of_idle rfl hc hm ⟨fun h => (nomatch h), fun _ => ?_⟩ hr
    have : s.cap = false := by cases hh : s.cap <;> simp_all
    simp [State.raise, ho, this]
  · refine State.inv_of_idle rfl hc hm ⟨fun h => (nomatch h), fun _ => ?_⟩ hr
    have : s.cap = false := by cases hh : s.cap <;> simp_all
    simp [State.raise, ho, this]
  · have hk := ((hst hb).1 hp).1
    refine ⟨hc, hm, ⟨fun _ => ⟨hs1, .inr (.inl ho), ?_⟩, fun h => ?_⟩, hr, fun _ => ⟨fun h => (nomatch h), fun h => ?_⟩, fun _ _ _ => ⟨h0, h1, ?_, fun i hi => ?_⟩, fun _ h => ?_⟩
    · simp [State.setCap, State.toRun, ho]
    · rw [show ((s.setCap true).toRun).busy = s.busy from rfl, hb] at h; cases h
    · rw [show ((s.setCap true).toRun).op = s.op from rfl, ho] at h; cases h
    · show s.k.toNat < s.framedBits
      rw [hk]; exact s.framedBits_pos
    · rw [show ((s.setCap true).toRun).k = s.k from rfl, hk] at hi; cases hi
    · rw [show ((s.setCap true).toRun).op = s.op from rfl, ho] at h; cases h
  · obtain ⟨e1, e2, e3, e4⟩ := he hb ho hp
    have hcp : s.cap = true := hcap.2 ⟨ho, hp⟩
    have hch : (s.embedChannel s.k.toNat).MemoryOk := State.memoryOk_writeByte hm .pix _ _
    have hk : (s.k + 1).toNat = s.k.toNat + 1 := by
      have := hc.2; rw [BitVec.toNat_add]; simp; omega
    refine State.inv_of_idle rfl ?_ hch ⟨fun h => (nomatch h), fun _ => ?_⟩ ?_ <;> rw [State.embedChannel_eq]
    · exact hc
    · simp [State.raise, ho, hcp]
    · refine ⟨?_, hr.2⟩
      show (s.k + 1).toNat ≤ _
      rw [hk]; show _ ≤ 3 * s.cfg.pixCap; omega
  · obtain ⟨e1, e2, e3, e4⟩ := he hb ho hp
    have hcp : s.cap = true := hcap.2 ⟨ho, hp⟩
    have hch : (s.embedChannel s.k.toNat).MemoryOk := State.memoryOk_writeByte hm .pix _ _
    have hk : (s.k + 1).toNat = s.k.toNat + 1 := by
      have := hc.2; rw [BitVec.toNat_add]; simp; omega
    have hstr : ∀ i, (s.embedChannel s.k.toNat).streamBit i = s.streamBit i := by
      intro i; refine State.streamBit_congr ?_ (fun a => ?_) i <;> rw [State.embedChannel_eq]
      exact State.readByte_congr rfl rfl rfl a
    have hrd := State.readByte_embedChannel (s := s) hm.2.2.1 s.k.toNat
    generalize hu : s.embedChannel s.k.toNat = u at *
    have hue : u = { s with pix := u.pix, k := s.k + 1 } := by rw [← hu]; exact State.embedChannel_eq s _
    have huk : u.k = s.k + 1 := by rw [hue]
    refine ⟨by rw [hue]; exact hc, hch, ⟨fun _ => ?_, fun h => ?_⟩, ⟨?_, ?_⟩, fun _ => ⟨fun h => ?_, fun h => ?_⟩, fun _ _ _ => ⟨?_, ?_, ?_, fun i hi => ?_⟩, fun _ h => ?_⟩
    · rw [hue]; exact ⟨hs1, .inr (.inl ho), hcap⟩
    · rw [hue] at h; rw [show State.busy _ = s.busy from rfl, hb] at h; cases h
    · rw [huk, hk, hue]; show _ ≤ 3 * s.cfg.pixCap; omega
    · rw [hue]; exact hr.2
    · rw [hue] at h; rw [show State.phase _ = s.phase from rfl, hp] at h; cases h
    · rw [hue] at h; rw [show State.op _ = s.op from rfl, ho] at h; cases h
    · rw [hue]; exact e1
    · rw [hue]; exact e2
    · rw [huk, hk, show u.framedBits = s.framedBits by rw [hue]; rfl]; omega
    · rw [huk, hk] at hi
      rw [hstr, hrd]
      by_cases hik : i = s.k.toNat
      · rw [if_pos ⟨hik, by simp only [memSize]; omega⟩, substitute_lsb, hik]
      · rw [if_neg (fun h => hik h.1)]; exact e4 i (by omega)
    · rw [hue] at h; rw [show State.op _ = s.op from rfl, ho] at h; cases h

/-- The ENGINE step of EXTRACT. -/
theorem inv_extractEngineStep {s : State} (h : s.Inv) (hb : s.busy = true) (ho : s.op = 3) :
    (extractEngineStep s).Inv := by
  obtain ⟨hc, hm, hs, hr, hst, he, hx⟩ := h
  obtain ⟨hs1, -, hcap⟩ := hs.1 hb
  have hcp : s.cap = false := by cases hh : s.cap <;> simp_all
  rcases extractEngineStep_cases s with ⟨hp, h1, h2⟩ | ⟨hp, h1, h2⟩ | ⟨hp, h1, h2⟩ | ⟨hp, h0, h1, h2⟩ | ⟨hp, h0, h1, h2⟩ <;> rw [h2]
  · refine State.inv_of_idle rfl hc hm ⟨fun h => (nomatch h), fun _ => ?_⟩ hr
    simp [State.raise, ho, hcp]
  · obtain ⟨hk, hsh, hrc⟩ := (hst hb).1 hp
    refine ⟨hc, hm, ⟨fun _ => ⟨hs1, .inr (.inr ho), ?_⟩, fun h => ?_⟩, hr, fun _ => ⟨fun h => (nomatch h), fun h => ?_⟩, fun _ h => ?_, fun _ _ _ => ⟨h1, ?_, ?_, ?_, ?_, ?_⟩⟩
    · simp [State.toRun, ho, hcp]
    · rw [show s.toRun.busy = s.busy from rfl, hb] at h; cases h
    · rw [show s.toRun.op = s.op from rfl, ho] at h; cases h
    · rw [show s.toRun.op = s.op from rfl, ho] at h; cases h
    all_goals rw [show s.toRun.k = s.k from rfl, hk]
    · exact Nat.zero_le _
    · intro i hi; cases hi
    · intro i hi; cases hi
    · intro i hi; cases hi
    · simp [State.RunCounts, State.toRun, hrc]
  · refine State.inv_of_idle rfl hc hm ⟨fun h => (nomatch h), fun _ => ?_⟩ hr
    simp [State.exhausted, State.setMsgLen, State.raise, ho, hcp]
  · obtain ⟨e1, e2, e3, e4, e5, e6⟩ := hx hb ho hp
    have hbits : s.chunkBits ≤ 3 * s.pixels := by simp only [State.chunkBits, State.wholeChunks, charBits, channelsPerPixel]; omega
    have hk : (s.k + 1).toNat = s.k.toNat + 1 := by
      have := hc.2; rw [BitVec.toNat_add]; simp; omega
    set j := s.k.toNat / 8 with hj
    have hjm : j < memSize s.cfg .msg := by
      have := State.wholeChunks_le e1
      have : s.chunkBits = 8 * s.wholeChunks := rfl
      omega
    have hsh : s.collect.sh = s.chunk j := by
      refine State.eq_chunk fun i hi => ?_
      show (shiftIn s.sh (lsbByte (s.readByte .pix s.k.toNat))).getLsbD (7 - i) = _
      by_cases hi7 : i = 7
      · subst hi7; rw [shiftIn_lsb]; rw [show 8 * j + 7 = s.k.toNat by omega]
      · rw [show 7 - i = (6 - i) + 1 by omega, shiftIn_succ _ _ _ (by omega)]
        have := e3 i (by omega)
        rw [h1] at this; exact this
    have hrcn := State.RunCounts.next (t := s.setRuncnt (nextRun s.runcnt (s.chunk j))) e6 (fun _ => by simp) rfl
    have hnr : (nextRun s.runcnt (s.chunk j)).toNat ≤ 4 := by
      unfold nextRun; split
      · rw [BitVec.toNat_add]; have := e6.1; simp; omega
      · simp
    have hmo : ((s.collect.writeByte .msg j s.collect.sh).setRuncnt (nextRun s.collect.runcnt s.collect.sh)).MemoryOk := State.memoryOk_writeByte (s := s.collect) hm .msg _ _
    have hrd : ∀ a, ((s.collect.writeByte .msg j s.collect.sh).setRuncnt (nextRun s.collect.runcnt s.collect.sh)).readByte .msg a = if a = j then s.chunk j else s.readByte .msg a := by
      intro a; rw [State.readByte_setRuncnt, State.readByte_writeByte (s := s.collect) (sp := .msg) hm.1, hsh]
      by_cases ha : a = j
      · rw [if_pos ⟨ha, hjm⟩, if_pos ha]
      · rw [if_neg (fun h => ha h.1), if_neg ha]; rfl
    have hue0 : ∀ u, (s.collect.writeByte .msg j s.collect.sh).setRuncnt (nextRun s.runcnt (s.chunk j)) = u →
        u = { s with msg := u.msg, sh := s.chunk j, k := s.k + 1, runcnt := nextRun s.runcnt (s.chunk j) } := by
      rintro u rfl; rw [← hsh]; unfold State.writeByte; split <;> rfl
    unfold State.completeChunk
    rw [show s.collect.runcnt = s.runcnt from rfl, hsh] at *
    generalize hu : (s.collect.writeByte .msg j (s.chunk j)).setRuncnt (nextRun s.runcnt (s.chunk j)) = u at *
    have hue := hue0 u rfl
    have hurd : ∀ a, u.readByte .pix a = s.readByte .pix a := fun a => by rw [hue]; exact State.readByte_congr rfl rfl rfl a
    have huch : ∀ d, u.chunk d = s.chunk d := State.chunk_congr hurd
    have hucl : ∀ e, u.closesAt e ↔ s.closesAt e := fun e => by simp only [State.closesAt, huch]
    have huk : u.k.toNat = s.k.toNat + 1 := by rw [hue]; exact hk
    dsimp only
    split
    · refine State.inv_of_idle rfl (by rw [hue]; exact hc) hmo ⟨fun h => (nomatch h), fun _ => ?_⟩ ⟨?_, ?_⟩
      · rw [hue]; simp [State.matchedAt, State.setMsgLen, State.raise, ho, hcp]
      · show u.k.toNat ≤ 3 * u.cfg.pixCap
        rw [huk, hue]; show _ ≤ 3 * s.cfg.pixCap; omega
      · show u.runcnt.toNat ≤ 4
        rw [hue]; exact hnr
    · rename_i hne
      have hncl : ¬ s.closesAt j := fun h => hne (hrcn.1.2 h)
      have hcnt := hrcn.2 hne
      refine ⟨by rw [hue]; exact hc, hmo, ⟨fun _ => ?_, fun h => ?_⟩, ⟨?_, ?_⟩, fun _ => ⟨fun h => ?_, fun h => ?_⟩, fun _ h => ?_, fun _ _ _ => ⟨?_, ?_, ?_, ?_, ?_, ?_⟩⟩
      · rw [hue]; exact ⟨hs1, .inr (.inr ho), hcap⟩
      · rw [hue] at h; rw [show State.busy _ = s.busy from rfl, hb] at h; cases h
      · rw [huk, hue]; show _ ≤ 3 * s.cfg.pixCap; omega
      · rw [hue]; exact hnr
      · rw [hue] at h; rw [show State.phase _ = s.phase from rfl, hp] at h; cases h
      · rw [hue] at h; rw [show State.op _ = s.op from rfl, ho] at h; cases h
      · rw [hue] at h; rw [show State.op _ = s.op from rfl, ho] at h; cases h
      · rw [hue]; exact e1
      · rw [huk, show u.chunkBits = s.chunkBits by rw [hue]; rfl]; omega
      · rw [huk]; intro i hi; omega
      · rw [huk]; intro a ha
        rw [hrd, huch]
        by_cases haj : a = j
        · rw [if_pos haj, haj]
        · rw [if_neg haj]; exact e4 a (by omega)
      · rw [huk]; intro e he'
        rw [hucl]
        by_cases hej : e = j
        · rw [hej]; exact hncl
        · exact e5 e (by omega)
      · rw [huk, show (s.k.toNat + 1) / 8 = j + 1 by omega]
        simp only [State.RunCounts, huch]
        rw [show u.runcnt = nextRun s.runcnt (s.chunk j) by rw [hue]]
        simp only [State.RunCounts, State.chunk_setRuncnt] at hcnt; exact hcnt
  · obtain ⟨e1, e2, e3, e4, e5, e6⟩ := hx hb ho hp
    have hbits : s.chunkBits ≤ 3 * s.pixels := by simp only [State.chunkBits, State.wholeChunks, charBits, channelsPerPixel]; omega
    have hk : (s.k + 1).toNat = s.k.toNat + 1 := by
      have := hc.2; rw [BitVec.toNat_add]; simp; omega
    have hkc : s.collect.k.toNat = s.k.toNat + 1 := hk
    have hd : (s.k.toNat + 1) / 8 = s.k.toNat / 8 := by omega
    have hmd : (s.k.toNat + 1) % 8 = s.k.toNat % 8 + 1 := by omega
    refine ⟨hc, hm, ⟨fun _ => ⟨hs1, .inr (.inr ho), hcap⟩, fun h => ?_⟩, ⟨?_, hr.2⟩, fun _ => ⟨fun h => ?_, fun h => ?_⟩, fun _ h => ?_, fun _ _ _ => ⟨e1, ?_, ?_, ?_, ?_, ?_⟩⟩
    · rw [show s.collect.busy = s.busy from rfl, hb] at h; cases h
    · rw [hkc]; show _ ≤ 3 * s.cfg.pixCap; omega
    · rw [show s.collect.phase = s.phase from rfl, hp] at h; cases h
    · rw [show s.collect.op = s.op from rfl, ho] at h; cases h
    · rw [show s.collect.op = s.op from rfl, ho] at h; cases h
    · rw [hkc]; show _ ≤ s.chunkBits; omega
    · rw [hkc, hd, hmd]; intro i hi
      show (shiftIn s.sh (lsbByte (s.readByte .pix s.k.toNat))).getLsbD _ = (s.readByte .pix _).getLsbD 0
      by_cases hi7 : i = s.k.toNat % 8
      · subst hi7; rw [show s.k.toNat % 8 + 1 - 1 - s.k.toNat % 8 = 0 by omega, shiftIn_lsb, show 8 * (s.k.toNat / 8) + s.k.toNat % 8 = s.k.toNat by omega]
      · rw [show s.k.toNat % 8 + 1 - 1 - i = (s.k.toNat % 8 - 1 - i) + 1 by omega, shiftIn_succ _ _ _ (by omega)]
        exact e3 i (by omega)
    · rw [hkc, hd]; exact e4
    · rw [hkc, hd]; exact e5
    · rw [hkc, hd]; exact e6

/-- The memories after reset are in the canonical form. -/
theorem State.memoryOk_reset : State.reset.MemoryOk := by decide

end Sys2Proof.Machine
end

