-- ==== Sys2Proof/Laws/Script.lean ====
section
/-! SUPPORT. Draining the host steps of a script line: one equation per case of `State.drain`, and lines that are
no `wait` take one step an entry. -/

namespace Sys2Proof.Machine

@[simp] theorem State.drain_zero (s : State) : State.drain 0 s = s := rfl

/-- With nothing left for the outside to do, nothing more happens. -/
theorem State.drain_of_nil {s : State} (h : s.inputs = []) (n : Nat) : State.drain n s = s := by
  cases n with
  | zero => rfl
  | succ n => simp [State.drain, h]

/-- With an input left, the first step is that input's. -/
theorem State.drain_cons {s : State} {i : Input} {rest : List Input} (h : s.inputs = i :: rest) (n : Nat) :
    State.drain (n + 1) s = State.drain n ((s.setInputs rest).afterInput i) := by
  simp [State.drain, h, step_cons h, State.consume_eq]

/-- The same, the step being known. -/
theorem State.drain_of_step {s t : State} {i : Input} {rest : List Input} (h : s.inputs = i :: rest)
    (hs : step s = .next t) (n : Nat) : State.drain (n + 1) s = State.drain n t := by
  simp [State.drain, h, hs]

/-- An input that is no `wait` puts nothing in front of what the outside does next. -/
theorem State.afterInput_inputs (s : State) {i : Input} (h : i ≠ .wait) :
    (s.afterInput i).inputs = s.inputs := by
  cases i with
  | readReg i => rfl
  | readMem sp a => rfl
  | writeReg i v =>
    show (s.writeReg i v).inputs = s.inputs
    unfold State.writeReg State.whenIdle
    split
    · rfl
    · split <;> first | rfl | (unfold State.writeCmd; split <;> rfl)
  | writeMem sp a v =>
    show (s.writeMem sp a v).inputs = s.inputs
    unfold State.writeMem State.whenIdle
    split <;> simp
  | engine => exact (State.sameOperands_engineStep s).2.2.2.2.1
  | reset => rfl
  | powerOn => rfl
  | wait => exact absurd rfl h
  | command w =>
    show (s.afterCommand w).inputs = s.inputs
    unfold State.afterCommand
    split
    · rfl
    · split
      · exact (State.sameOperands_commandResult s _).2.2.2.2.1
      · rfl

/-- Inputs without a `wait` are drained in as many steps as there are. -/
theorem State.drain_inputs_of_no_wait {n : Nat} {s : State} (hw : Input.wait ∉ s.inputs)
    (hn : s.inputs.length ≤ n) : (State.drain n s).inputs = [] := by
  induction n generalizing s with
  | zero => exact List.length_eq_zero_iff.1 (Nat.le_zero.1 hn)
  | succ n ih =>
    cases hi : s.inputs with
    | nil => rw [State.drain_of_nil hi]; exact hi
    | cons i rest =>
      rw [hi] at hw hn
      have hne : i ≠ .wait := fun e => hw (by simp [e])
      have ha : ((s.setInputs rest).afterInput i).inputs = rest := State.afterInput_inputs _ hne
      rw [State.drain_cons hi]
      exact ih (by rw [ha]; exact fun e => hw (List.mem_cons_of_mem _ e))
        (by rw [ha]; simpa using hn)

/-- A script that holds anywhere is well formed. -/
theorem State.scriptWf_of_scriptHolds {s : State} {script : List HostLine} (h : s.scriptHolds script = true) :
    scriptWf script = true := by
  induction script generalizing s with
  | nil => rfl
  | cons line rest ih =>
    simp only [State.scriptHolds, Bool.and_eq_true] at h
    exact Bool.and_eq_true_iff.2 ⟨h.1.1, ih h.2⟩

/-- The bytes of a load line are no `wait`. -/
theorem wait_notMem_storeBytes (sp : MemSpace) (a : Nat) (l : List Byte) :
    Input.wait ∉ storeBytes sp a l := by
  induction l generalizing a with
  | nil => simp [storeBytes]
  | cons v vs ih => simp [storeBytes, ih]

/-- `wait` is the only line whose steps hold a `wait`. -/
theorem wait_notMem_expandLine {line : HostLine} (h : line ≠ .wait) : Input.wait ∉ expandLine line := by
  cases line <;> simp_all [expandLine, wait_notMem_storeBytes]

end Sys2Proof.Machine
end

