-- ==== Sys2Proof/Laws/Calls.lean ====
section
/-! SUPPORT. What a call's lines do to the block, one equation per kind of line: loads store their bytes, `wait`
runs the ENGINE to the end and reads `STATUS`, a read-back only shows bytes to the HOST. -/

namespace Sys2Proof.Machine

/-! ## Storing a list of bytes -/

/-- `l` written to memory `sp` from address `a` on. -/
def State.storeAt (s : State) (sp : MemSpace) : Nat → List Byte → State
  | _, [] => s
  | a, v :: vs => (s.writeByte sp a v).storeAt sp (a + 1) vs

/-- A write does not depend on what the outside does next. -/
theorem State.writeByte_setInputs (s : State) (i : List Input) (sp : MemSpace) (a : Nat) (v : Byte) :
    (s.setInputs i).writeByte sp a v = (s.writeByte sp a v).setInputs i := by
  unfold State.writeByte
  rw [State.setInputs_cfg]
  split <;> cases sp <;> rfl

/-- What a read of that memory returns afterwards. -/
theorem State.readByte_storeAt {s : State} {sp : MemSpace} (hm : (s.mem sp).wf) (l : List Byte) (a b : Nat) :
    (s.storeAt sp a l).readByte sp b
      = if a ≤ b ∧ b < memSize s.cfg sp then l.getD (b - a) (s.readByte sp b) else s.readByte sp b := by
  induction l generalizing s a with
  | nil => simp [State.storeAt]
  | cons v vs ih =>
    rw [State.storeAt, ih (State.wf_writeByte hm a v), State.readByte_writeByte hm, State.writeByte_cfg]
    rcases Nat.lt_trichotomy a b with h | h | h
    · rw [show b - a = b - (a + 1) + 1 by omega, List.getD_cons_succ, if_neg (by omega : ¬(b = a ∧ _))]
      simp only [show (a + 1 ≤ b) = (a ≤ b) by simp; omega]
    · subst h; simp
    · rw [if_neg (by omega), if_neg (by omega), if_neg (by omega)]

/-- Nothing but the two memories changes. -/
theorem State.storeAt_eq (s : State) (sp : MemSpace) (a : Nat) (l : List Byte) :
    s.storeAt sp a l = { s with msg := (s.storeAt sp a l).msg, pix := (s.storeAt sp a l).pix } := by
  induction l generalizing s a with
  | nil => rfl
  | cons v vs ih =>
    rw [State.storeAt, ih]
    unfold State.writeByte
    split <;> cases sp <;> rfl

/-- Nor does the other memory. -/
theorem State.mem_storeAt_of_ne {s : State} {sp sq : MemSpace} (h : sq ≠ sp) (a : Nat) (l : List Byte) :
    (s.storeAt sp a l).mem sq = s.mem sq := by
  induction l generalizing s a with
  | nil => rfl
  | cons v vs ih => rw [State.storeAt, ih, State.mem_writeByte_of_ne h]

/-- Both memories stay in order. -/
theorem State.memoryOk_storeAt {s : State} (hm : s.MemoryOk) (sp : MemSpace) (a : Nat) (l : List Byte) :
    (s.storeAt sp a l).MemoryOk := by
  induction l generalizing s a with
  | nil => exact hm
  | cons v vs ih => exact ih (State.memoryOk_writeByte hm sp a v) (a + 1)

/-- Storing bytes does not depend on what the outside does next. -/
theorem State.storeAt_setInputs (s : State) (i : List Input) (sp : MemSpace) (a : Nat) (l : List Byte) :
    (s.setInputs i).storeAt sp a l = (s.storeAt sp a l).setInputs i := by
  induction l generalizing s a with
  | nil => rfl
  | cons v vs ih =>
    rw [State.storeAt, State.storeAt, ← ih, State.writeByte_setInputs]

/-- The step for the first byte of a load. -/
theorem step_storeBytes_cons {s : State} {sp : MemSpace} {a : Nat} {v : Byte} {vs : List Byte} {rest : List Input}
    (hb : s.busy = false) (hi : s.inputs = storeBytes sp a (v :: vs) ++ rest) :
    step s = .next ((s.writeByte sp a v).setInputs (storeBytes sp (a + 1) vs ++ rest)) := by
  rw [step_cons (i := .writeMem sp a v) (rest := storeBytes sp (a + 1) vs ++ rest) hi, State.consume_eq,
    ← State.writeByte_setInputs]
  unfold State.afterInput State.writeMem State.whenIdle
  rw [State.setInputs_busy, hb]
  rfl

/-- The host steps of a load, in a run of the machine. -/
theorem core_run_storeBytes {s : State} {sp : MemSpace} {a : Nat} {l : List Byte} {rest : List Input}
    (hb : s.busy = false) (hi : s.inputs = storeBytes sp a l ++ rest) (n : Nat) :
    Host.Core.run Sys2Proof.core (l.length + n) s
      = Host.Core.run Sys2Proof.core n ((s.storeAt sp a l).setInputs rest) := by
  induction l generalizing s a with
  | nil => rw [← (show s.inputs = rest from hi)]; simp [State.storeAt, State.setInputs]
  | cons v vs ih =>
    rw [List.length_cons, show vs.length + 1 + n = vs.length + n + 1 by omega,
      core_run_succ _ (step_storeBytes_cons hb hi), ih (by simpa using hb) rfl, State.storeAt_setInputs]
    rfl

/-- The host steps of a load, in a script. -/
theorem State.drain_storeBytes {s : State} {sp : MemSpace} {a : Nat} {l : List Byte} {rest : List Input}
    (hb : s.busy = false) (hi : s.inputs = storeBytes sp a l ++ rest) (n : Nat) :
    State.drain (l.length + n) s = State.drain n ((s.storeAt sp a l).setInputs rest) := by
  induction l generalizing s a with
  | nil => rw [← (show s.inputs = rest from hi)]; simp [State.storeAt, State.setInputs]
  | cons v vs ih =>
    rw [List.length_cons, show vs.length + 1 + n = vs.length + n + 1 by omega,
      State.drain_of_step hi (step_storeBytes_cons hb hi), ih (by simpa using hb) rfl, State.storeAt_setInputs]
    rfl

/-- A load is one host step a byte. -/
@[simp] theorem length_storeBytes (sp : MemSpace) (a : Nat) (l : List Byte) :
    (storeBytes sp a l).length = l.length := by
  induction l generalizing a with
  | nil => rfl
  | cons v vs ih => simp [storeBytes, ih]

/-! ## Lines -/

@[simp] theorem State.runLines_nil (s : State) : s.runLines [] = s := rfl

@[simp] theorem State.runLines_cons (s : State) (line : HostLine) (lines : List HostLine) :
    s.runLines (line :: lines) = (s.runLine line).runLines lines := rfl

theorem State.runLines_append (s : State) (l k : List HostLine) :
    s.runLines (l ++ k) = (s.runLines l).runLines k := List.foldl_append

/-- A line that is one host step, and no `wait`, is that step. -/
theorem State.runLine_step (s : State) {line : HostLine} {i : Input} (he : expandLine line = [i])
    (hi : i ≠ .wait) : s.runLine line = (s.setInputs []).afterInput i := by
  unfold State.runLine lineSteps
  rw [he, List.length_singleton, Nat.add_comm, State.drain_cons (i := i) (rest := []) rfl, State.drain_of_nil]
  · rfl
  · exact State.afterInput_inputs _ hi

/-- `ldpix` in an idle block. -/
theorem State.runLine_ldpix {s : State} (hb : s.busy = false) (bytes : List Byte) :
    s.runLine (.ldpix bytes) = (s.storeAt .pix 0 bytes).setInputs [] := by
  have hl : (expandLine (.ldpix bytes)).length = bytes.length := length_storeBytes .pix 0 bytes
  unfold State.runLine lineSteps
  rw [hl, State.drain_storeBytes (sp := .pix) (a := 0) (rest := []) (by simpa using hb) (by simp [expandLine]), State.drain_of_nil rfl,
    State.storeAt_setInputs]
  rfl

/-- `ldmsgb` in an idle block. -/
theorem State.runLine_ldmsgb {s : State} (hb : s.busy = false) (bytes : List Byte) :
    s.runLine (.ldmsgb bytes)
      = { s.storeAt .msg 0 bytes with msgLen := BitVec.ofNat 32 bytes.length, inputs := [] } := by
  have hl : (expandLine (.ldmsgb bytes)).length = bytes.length + 1 := by
    simp [expandLine, length_storeBytes]
  unfold State.runLine lineSteps
  rw [hl, show ∀ n, bytes.length + 1 + n = bytes.length + (n + 1) by omega,
    State.drain_storeBytes (rest := [.writeReg 3 (BitVec.ofNat 32 bytes.length)]) (by simpa using hb) rfl,
    State.drain_cons rfl, State.storeAt_setInputs, State.drain_of_nil]
  · rw [State.storeAt_eq]
    simp [State.afterInput, State.writeReg, State.whenIdle, State.setInputs, hb]
  · exact State.afterInput_inputs _ (by simp)

/-- `ldmsg` is `ldmsgb` of the codes of its characters. -/
theorem State.runLine_ldmsg (s : State) (text : List Char) :
    s.runLine (.ldmsg text) = s.runLine (.ldmsgb (text.map fun c => BitVec.ofNat 8 c.toNat)) := by
  have h : expandLine (.ldmsg text) = expandLine (.ldmsgb (text.map fun c => BitVec.ofNat 8 c.toNat)) := by
    simp [expandLine]
  simp only [State.runLine, lineSteps, h]

/-- `wait`: once the ENGINE has ended in `t`, the HOST has read its `STATUS`, and nothing else has happened. -/
theorem State.drain_wait {s t : State} {m : Nat} (ht : State.engineRun m s = t) (hb : t.busy = false)
    (hi : s.inputs = [.wait]) {n : Nat} (hn : 2 * m + 1 ≤ n) :
    ∃ o, State.drain n s = t.withOutside [] (.word t.statusWord :: o) := by
  induction m generalizing s t n with
  | zero =>
    obtain ⟨n, rfl⟩ := Nat.exists_eq_add_of_le' (show 1 ≤ n by omega)
    subst ht
    rw [State.drain_cons hi]
    refine ⟨s.outputs, ?_⟩
    have hp : (s.setInputs []).afterInput .wait = s.withOutside [] (.word s.statusWord :: s.outputs) := by
      show State.poll _ = _
      unfold State.poll
      rw [if_neg (by simpa using hb)]
      rfl
    rw [hp, State.drain_of_nil rfl]
    rfl
  | succ m ih =>
    cases hs : s.busy with
    | false => exact ih (by rw [State.engineRun_idle hs] at ht ⊢; exact ht) hb hi (by omega)
    | true =>
      obtain ⟨n, rfl⟩ := Nat.exists_eq_add_of_le' (show 2 ≤ n by omega)
      have hp : (s.setInputs []).afterInput .wait
          = s.withOutside [.engine, .wait] (.word s.statusWord :: s.outputs) := by
        show State.poll _ = _
        unfold State.poll
        rw [if_pos (by simpa using hs)]
        rfl
      rw [State.drain_cons hi, hp, State.drain_cons (i := .engine) (rest := [.wait]) rfl]
      have he : ((s.withOutside [.engine, .wait] (.word s.statusWord :: s.outputs)).setInputs [.wait]).afterInput .engine
          = s.engineStep.withOutside [.wait] (.word s.statusWord :: s.outputs) :=
        s.engineStep_withOutside _ _
      rw [he]
      obtain ⟨o, ho⟩ := ih (t := t.withOutside [.wait] (.word s.statusWord :: s.outputs)) (n := n)
        (s := s.engineStep.withOutside [.wait] (.word s.statusWord :: s.outputs))
        (by rw [State.engineRun_withOutside, ← ht]; rfl) hb rfl (by omega)
      exact ⟨o, ho⟩

/-- The line `wait`, from a state in which a run of `m` ENGINE steps ends. -/
theorem State.runLine_wait {s t : State} {m : Nat} (ht : State.engineRun m s = t) (hb : t.busy = false)
    (hm : m ≤ 2 + 3 * s.cfg.pixCap) :
    ∃ o, s.runLine .wait = t.withOutside [] (.word t.statusWord :: o) := by
  have h := State.drain_wait (s := s.setInputs [.wait]) (t := t.withOutside [.wait] s.outputs) (m := m)
    (by rw [← ht]; exact State.engineRun_withOutside s [.wait] s.outputs m) hb rfl
    (n := lineSteps s.cfg .wait) (by simp only [lineSteps, expandLine, List.length_singleton]; omega)
  exact h

/-! ## Returns -/

/-- The field `CAP` of the word a read of `STATUS` returns. -/
@[simp] theorem capOf_statusWord (s : State) : capOf s.statusWord = s.cap := by
  unfold capOf State.statusWord
  generalize s.busy = b, s.cap = c, s.result.code = r, s.op = o
  revert b c r o
  decide

/-- The field `RESULT` of the word a read of `STATUS` returns. -/
@[simp] theorem resultOf_statusWord (s : State) : resultOf s.statusWord = s.result.code := by
  unfold resultOf State.statusWord
  generalize s.busy = b, s.cap = c, s.result.code = r, s.op = o
  revert b c r o
  decide

/-- A read-back shows the HOST the bytes, and changes nothing. -/
theorem State.runLines_readBack {s : State} (hi : s.inputs = []) (sp : MemSpace) (n : Nat) :
    s.runLines (readBack sp n)
      = s.withOutside [] (((List.range n).map fun a => HostData.byte (s.readByte sp a)).reverse ++ s.outputs) := by
  induction n with
  | zero => rw [← hi]; rfl
  | succ n ih =>
    have : readBack sp (n + 1) = readBack sp n ++ [.rdb sp n] := by simp [readBack, List.range_succ]
    rw [this, State.runLines_append, ih, State.runLines_cons, State.runLines_nil,
      State.runLine_step _ (i := .readMem sp n) rfl (by simp), List.range_succ, List.map_append,
      List.reverse_append]
    rfl

/-- What the HOST makes of a read-back: the bytes of the memory in order. -/
theorem State.lastBytes_readBack {s : State} (hi : s.inputs = []) (sp : MemSpace) (n : Nat) :
    (s.runLines (readBack sp n)).lastBytes n = (List.range n).map (s.readByte sp) := by
  rw [State.runLines_readBack hi, State.lastBytes]
  show ((List.take n (_ ++ s.outputs)).filterMap HostData.byte?).reverse = _
  rw [List.take_left' (by simp), List.filterMap_reverse, List.reverse_reverse, List.filterMap_map]
  exact congrFun (List.filterMap_eq_map (f := s.readByte sp)) _

end Sys2Proof.Machine
end

