-- ==== Sys2Proof/Laws/PerInstr.lean ====
section
/-! SUPPORT. Statements made of every command as syntax, one lemma a constructor. -/

/-- A command's word: `RSVD` is 0, `OP` is the command's code, and the opcode map leads back
(30_encoding.md R70, R72). -/
def Sys2Proof.Laws.CommandWord.Statement (i : Sys2Proof.Instr) : Prop :=
  i.wf = true ∧ Sys2Proof.rsvdField (Sys2Proof.encode i) = 0
    ∧ Sys2Proof.opField (Sys2Proof.encode i) = Sys2Proof.opOf i
    ∧ Sys2Proof.ofOp (Sys2Proof.opOf i) = some i

theorem Sys2Proof.Laws.CommandWord.chkcap : Sys2Proof.Laws.CommandWord.Statement .chkcap :=
  ⟨rfl, rfl, rfl, rfl⟩

theorem Sys2Proof.Laws.CommandWord.embed : Sys2Proof.Laws.CommandWord.Statement .embed :=
  ⟨rfl, rfl, rfl, rfl⟩

theorem Sys2Proof.Laws.CommandWord.extract : Sys2Proof.Laws.CommandWord.Statement .extract :=
  ⟨rfl, rfl, rfl, rfl⟩
end

