-- ==== Sys2Proof/Tests/Slice0.lean ====
section
/-! SUPPORT. The model's own tests: expected values from the tables and vectors of 95_test_vectors.md, or words
written out from 30_encoding.md; and for every statement with hypotheses a witness that meets them. -/

namespace Sys2Proof.Tests

-- one theorem at a time: many short kernel checks side by side only cost memory
set_option Elab.async false

open Sys2Proof Sys2Proof.Machine

/-! ## Helpers -/

/-- The memory whose bytes from address `a` are `l`. -/
def listed : Nat → List Byte → Memory
  | _, [] => []
  | a, v :: vs => (a, v) :: listed (a + 1) vs

/-- An idle block of 16 pixels (48 bytes of PIX, 6 of MSG) with these bytes, `PIXEL_COUNT` and `MSG_LEN`. -/
def block16 (pix msg : List Byte) (n l : Word) : State :=
  { State.reset with
    cfg := { pixCap := 16 }, pixelCount := n, msgLen := l, pix := listed 0 pix, msg := listed 0 msg }

/-- What a test looks at in the next state of an outcome. -/
def look {α : Type} (f : State → α) : Host.Outcome State Fault Refusal → Option α
  | .next s => some (f s)
  | _ => none

/-- The first `n` bytes of a memory. -/
def bytesOf (s : State) (sp : MemSpace) (n : Nat) : List Byte := (List.range n).map (s.readByte sp)

/-- The carrier of vector E4, `PIX[k] = (37 * k + 11) mod 256`. -/
def carrierE4 : List Byte := (List.range 48).map fun k => BitVec.ofNat 8 (37 * k + 11)

/-- "HI" ready to be embedded into 16 pixels (vector E4: the exact fit). -/
def hi16 : State := block16 carrierE4 [0x48, 0x49, 0xEE, 0xEE, 0xEE, 0xEE] 16 2

/-- PIX after vector E4. -/
def stegoE4 : List Byte :=
  [0x0A, 0x31, 0x54, 0x7A, 0x9F, 0xC4, 0xE8, 0x0E, 0x32, 0x59, 0x7C, 0xA2, 0xC7, 0xEC, 0x10, 0x37] ++
  [0x5A, 0x80, 0xA5, 0xCA, 0xEE, 0x14, 0x39, 0x5F, 0x82, 0xA8, 0xCD, 0xF2, 0x16, 0x3C, 0x61, 0x87] ++
  [0xAA, 0xD0, 0xF5, 0x1A, 0x3E, 0x64, 0x89, 0xAF, 0xD2, 0xF8, 0x1D, 0x42, 0x66, 0x8C, 0xB1, 0xD7]

/-- Vector X2: that carrier, with MSG all EE and `MSG_LEN` 0x99. -/
def stego16 : State := block16 stegoE4 (List.replicate 6 0xEE) 16 0x99

/-- Vector X3: a blank carrier. -/
def blank16 : State := block16 (List.replicate 48 0) (List.replicate 6 0xEE) 16 0x99

/-- The E4 embedding after its START step and 10 channels, as vector T2 gives it. -/
def embedding : State :=
  { hi16 with
    busy := true, cap := true, op := 2, phase := .run, k := 10,
    pix := listed 0 (stegoE4.take 10 ++ carrierE4.drop 10) }

/-- The X2 extraction after its START step and 27 channels: three chunks and three bits of the fourth. `SH`
is 0x19 as in vector T1. -/
def extracting : State :=
  { stego16 with
    busy := true, op := 3, phase := .run, k := 27, sh := 0x19, runcnt := 1,
    msg := listed 0 [0x48, 0x49, 0x23, 0xEE, 0xEE, 0xEE] }

/-! ## Decoding: words written out bit by bit (30_encoding.md R70, R72, R73) -/

theorem test_decode_chkcap : decode 0b0000000000000000000000000000_0001#32 = .ok .chkcap := by decide

theorem test_decode_embed : decode 0b0000000000000000000000000000_0010#32 = .ok .embed := by decide

theorem test_decode_extract : decode 0b0000000000000000000000000000_0011#32 = .ok .extract := by decide

theorem test_decode_zero : decode 0 = .error (.illegalOp 0) := by decide

theorem test_decode_four : decode 4 = .error (.illegalOp 4) := by decide

theorem test_decode_reserved : decode 0x00000011#32 = .error .reservedBits := by decide

theorem test_decode_top_bit : decode 0x80000002#32 = .error .reservedBits := by decide

theorem test_encode : encode .chkcap = 1 ∧ encode .embed = 2 ∧ encode .extract = 3 := by decide

theorem test_decodeTableWord :
    decodeTableWord 32 1 = some .chkcap ∧ decodeTableWord 32 2 = some .embed
      ∧ decodeTableWord 32 3 = some .extract ∧ decodeTableWord 32 0x13 = none := by decide

/-! ## Well-formedness: each check refuses an ill-formed term (30_encoding.md R77) -/

theorem test_wf_instr : Instr.chkcap.wf = true ∧ Instr.embed.wf = true ∧ Instr.extract.wf = true := by decide

theorem test_wf_ldpix_refuses : (HostLine.ldpix [1, 2, 3, 4]).wf = false := by decide

theorem test_wf_ldpix : (HostLine.ldpix [1, 2, 3]).wf = true := by decide

theorem test_wf_ldmsg_refuses : (HostLine.ldmsg ['H', Char.ofNat 0xE9]).wf = false := by decide

theorem test_wf_ldmsg : (HostLine.ldmsg ['H', 'I']).wf = true := by decide

/-- A message whose length does not fit `MSG_LEN`. -/
theorem test_wf_ldmsgb_refuses (n : Nat) (h : 2 ^ 32 ≤ n) :
    (HostLine.ldmsgb (List.replicate n 0x41)).wf = false := by
  simp only [HostLine.wf, List.length_replicate, decide_eq_false_iff_not]; omega

/-- The length check of `ldmsg`, beside its character check. -/
theorem test_wf_ldmsg_length_refuses (n : Nat) (h : 2 ^ 32 ≤ n) :
    (HostLine.ldmsg (List.replicate n 'A')).wf = false := by
  simp only [HostLine.wf, List.length_replicate, Bool.and_eq_false_iff, decide_eq_false_iff_not]
  exact .inr (by omega)

theorem test_wf_script_refuses : scriptWf [.cmd .embed, .ldpix [1]] = false := by decide

/-! ## CHKCAP (95_test_vectors.md 2.1) -/

/-- The row on which a wrapping 32-bit product would answer 0. -/
theorem test_chkcap_no_wrap :
    look State.statusWord
      (exec .chkcap { State.reset with bitCount := 32, pixelCount := 0x55555556#32 }) = some 0x112#32 := by
  decide

/-- One bit over at the top of 32 bits. -/
theorem test_chkcap_over :
    look State.statusWord
      (exec .chkcap { State.reset with bitCount := 0xFFFFFFFF#32, pixelCount := 0x55555554#32 })
      = some 0x110#32 := by
  decide

/-! ## EMBED (95_test_vectors.md 2.3) -/

theorem test_embed_E4 :
    look (fun s => (s.statusWord, bytesOf s .pix 48)) (exec .embed hi16) = some (0x212#32, stegoE4) := by
  decide +kernel

/-- Vector E5: one bit short. -/
theorem test_embed_E5 :
    look (fun s => (s.statusWord, s.pix)) (exec .embed { hi16 with pixelCount := 13, msgLen := 1 })
      = some (0x220#32, hi16.pix) := by
  decide +kernel

/-! ## EXTRACT (95_test_vectors.md 2.4) -/

/-- Vector X2: the match on the last chunk. -/
theorem test_extract_X2 :
    look (fun s => (s.statusWord, s.msgLen, bytesOf s .msg 6)) (exec .extract stego16)
      = some (0x310#32, 2, [0x48, 0x49, 0x23, 0x23, 0x23, 0x23]) := by
  decide +kernel

/-- Vector X9: seven bits left over are discarded. -/
theorem test_extract_X9 :
    look (fun s => (s.statusWord, s.msgLen, bytesOf s .msg 5))
      (exec .extract (block16
        ([0x40, 0x41, 0x40, 0x41, 0x41, 0x40, 0x41, 0x40, 0x40, 0x40, 0x41, 0x40, 0x40, 0x40, 0x41, 0x41] ++
         [0x40, 0x40, 0x41, 0x40, 0x40, 0x40, 0x41, 0x41, 0x40, 0x40, 0x41, 0x40, 0x40, 0x40, 0x41, 0x41] ++
         [0x40, 0x41, 0x40, 0x40, 0x40, 0x41, 0x41]) (List.replicate 6 0xEE) 13 0x99))
      = some (0x330#32, 0, [0x5A, 0x23, 0x23, 0x23, 0xEE]) := by
  decide +kernel

/-- The last channel of 16 pixels, by the layout of 20_memory.md R52. -/
theorem test_channelIndex : channelIndex 15 2 = 47 := by decide

/-! ## Steps, the host port, reset (95_test_vectors.md 2.5, 2.6) -/

/-- Vector T2: just before the reset and after it. -/
theorem test_reset_T2 :
    embedding.statusWord = 0x203#32 ∧ look (fun s => (s.statusWord, s.pixelCount, s.k, s.readByte .pix 9, s.readByte .msg 1))
      (step { embedding with inputs := [.reset] }) = some (0, 0, 0, 0x59, 0x49) := by
  decide +kernel

/-- `wr CMD, 0x00000011` from idle: `STATUS` = 0x140. -/
theorem test_illegal_word :
    look State.statusWord (step { State.reset with inputs := [.writeReg 0 0x11] }) = some 0x140#32 := by
  decide

/-- `wrb MSG, MSG_CAP, 0x55` is ignored. -/
theorem test_absent_write :
    look (fun s => s.msg) (step { hi16 with inputs := [.writeMem .msg 6 0x55] }) = some hi16.msg := by
  decide +kernel

/-- The very next step after `withFetchWord` runs the command, from reset too (log 6). -/
theorem test_fetch_from_reset :
    look State.statusWord (step (State.reset.withFetchWord 32 1)) = some 0x112#32
      ∧ look State.statusWord (step (State.reset.withFetchWord 32 2)) = some 0x220#32
      ∧ look State.statusWord (step (State.reset.withFetchWord 32 3)) = some 0x330#32 := by
  decide +kernel

/-- `ldmsg "HI"` and `embed` as host steps (30_encoding.md R76, R77). -/
theorem test_expand :
    expandScript [.ldmsg ['H', 'I'], .cmd .embed]
      = [.writeMem .msg 0 0x48, .writeMem .msg 1 0x49, .writeReg 3 2, .writeReg 0 2] := by
  decide

/-- Program P5's first lines, and a wrong expectation: the illegal word 0x10 gives `STATUS` 0x40. -/
theorem test_expect_P5 :
    hi16.scriptHolds [.wr 0 0x10, .rd 1, .expect (.lastWord 0x40), .expect (.reg 1 0x40)] = true
      ∧ hi16.scriptHolds [.wr 0 0x10, .expect (.reg 1 0x140)] = false := by
  decide +kernel

/-- A script with an ill-formed line holds nowhere: a character above 127, and four bytes of pixels. -/
theorem test_script_refuses_ill_formed :
    hi16.scriptHolds [.ldmsg ['H', 'I']] = true ∧ hi16.scriptHolds [.ldmsg ['H', Char.ofNat 0xE9]] = false
      ∧ hi16.scriptHolds [.ldpix [1, 2, 3]] = true ∧ hi16.scriptHolds [.ldpix [1, 2, 3, 4]] = false := by
  decide +kernel

/-- As in program P1: a `chkcap` waited for, and a byte read back. -/
theorem test_expect_P1 :
    hi16.scriptHolds [.setbits 48, .cmd .chkcap, .wait, .expect (.reg 1 0x112), .rdb .msg 0,
      .expect (.lastByte 0x48), .expect (.mem .msg 1 0x49)] = true := by
  decide +kernel

/-! ## Returns of the source's calls (43_host_access.md R159), in states where `wait` has just read `STATUS` -/

/-- `extract` after vector X2: the string is "HI". -/
theorem test_extractReturn_payload :
    ({ block16 stegoE4 [0x48, 0x49, 0x23, 0x23, 0x23, 0x23] 16 2 with
        op := 3, result := .ok, outputs := [.word 0x310] } : State).extractReturn.1 = .payload [0x48, 0x49] := by
  decide +kernel

theorem test_extractReturn_stops :
    ({ blank16 with op := 3, result := .notFound, outputs := [.word 0x330] } : State).extractReturn.1 = .notFound
      ∧ ({ blank16 with op := 3, result := .badConfig, outputs := [.word 0x350] } : State).extractReturn.1
        = .otherOutcome 5 := by
  decide +kernel

/-- Of vector E4's carrier, the first pixel. -/
theorem test_embedReturn_pixels :
    ({ hi16 with op := 2, cap := true, result := .ok, outputs := [.word 0x212] } : State).embedReturn 1
      = (.pixels [0x0B, 0x30, 0x55],
        { hi16 with op := 2, cap := true, result := .ok,
                    outputs := [.byte 0x55, .byte 0x30, .byte 0x0B, .word 0x212] }) := by
  decide +kernel

theorem test_embedReturn_capacityError :
    (({ hi16 with op := 2, result := .capacityError, outputs := [.word 0x220] } : State).embedReturn 16).1
      = .capacityError := by
  decide +kernel

theorem test_checkCapacityReturn :
    (hi16.callCheckCapacity 48 16).1 = .bool true ∧ (hi16.callCheckCapacity 49 16).1 = .bool false := by
  decide +kernel

/-! ## Witnesses for the statements' hypotheses -/

/-- The idle test block meets the invariant. -/
theorem inv_hi16 : hi16.Inv :=
  State.inv_of_idle rfl (by decide) (by decide +kernel) ⟨by decide, by decide⟩ (by decide)

theorem inv_embedding : embedding.Inv :=
  ⟨by decide +kernel, by decide +kernel, ⟨by decide +kernel, by decide +kernel⟩, by decide +kernel,
    by decide +kernel, by decide +kernel, by decide +kernel⟩

theorem inv_extracting : extracting.Inv :=
  ⟨by decide +kernel, by decide +kernel, ⟨by decide +kernel, by decide +kernel⟩, by decide +kernel,
    by decide +kernel, by decide +kernel, by decide +kernel⟩

theorem inv_stego16 : stego16.Inv :=
  State.inv_of_idle rfl (by decide) (by decide +kernel) ⟨by decide, by decide⟩ (by decide)

/-- In an idle block it does not mention `PIXEL_COUNT` and `MSG_LEN`. -/
theorem inv_hi16_with (h : hi16.Inv) (n l : Word) : ({ hi16 with pixelCount := n, msgLen := l } : State).Inv :=
  State.inv_of_idle rfl h.1 h.2.1 h.2.2.1 h.2.2.2.1

/-- The invariant does not mention what the outside does. -/
theorem inv_inputs {s : State} (h : s.Inv) (l : List Input) : (s.setInputs l).Inv := h

theorem witness_EncodeAndDecodeAgree : Instr.extract.wf = true ∧ decode 3 = .ok .extract := by decide

theorem witness_StepRunsDecodedCommand :
    (hi16.setInputs [.command 2]).inputs = [.command 2] ∧ decode 2 = .ok .embed
      ∧ Instr.embed.wf = true := by decide

/-- The boundary words 0, 4, 15 and 16 and the greatest one, in both forms of the write. -/
theorem witness_IllegalWordRaisesBadCmd :
    ∀ n ∈ [0, 4, 15, 16, 0xFFFFFFFF],
      let w := BitVec.ofNat 32 n
      (hi16.setInputs [.writeReg 0 w]).busy = false
      ∧ (w.toNat / 16 ≠ 0 ∨ ¬ (w.toNat % 16 = 1 ∨ w.toNat % 16 = 2 ∨ w.toNat % 16 = 3))
      ∧ (hi16.setInputs [.writeReg 0 w]).inputs = [.writeReg 0 w]
      ∧ (hi16.setInputs [.command w]).inputs = [.command w] := by
  decide +kernel

theorem witness_LegalWordStartsItsCommand :
    ∀ n ∈ [1, 2, 3],
      let w := BitVec.ofNat 32 n
      (hi16.setInputs [.writeReg 0 w]).busy = false
      ∧ (hi16.setInputs [.writeReg 0 w]).inputs = [.writeReg 0 w] ∧ w.toNat / 16 = 0
      ∧ (w.toNat % 16 = 1 ∨ w.toNat % 16 = 2 ∨ w.toNat % 16 = 3) := by
  decide +kernel

/-- A busy block, and an input of every kind the clauses speak of. -/
theorem witness_BusyIgnoresEveryHostWrite :
    embedding.busy = true
      ∧ ∀ i ∈ [Input.writeReg 2 5, .writeMem .pix 0 0, .command 3, .readReg 1, .wait],
        (embedding.setInputs [i]).busy = true ∧ (embedding.setInputs [i]).inputs = [i]
          ∧ i ≠ .engine ∧ i ≠ .reset ∧ i ≠ .powerOn
          ∧ look (fun _ => ()) (step (embedding.setInputs [i])) = some () := by
  decide +kernel

theorem witness_RegisterReadsReturnCurrentValues :
    (∀ i ∈ [0, 1, 2, 3, 4, 5], (hi16.setInputs [.readReg i]).inputs = [.readReg i])
      ∧ extracting.busy = true ∧ extracting.op = 3 ∧ extracting.engineStep.busy = true := by
  decide +kernel

theorem witness_RegisterWritesStoreOrAreIgnored :
    (∀ i ∈ [0, 1, 2, 3, 4, 5], (hi16.setInputs [.writeReg i 7]).inputs = [.writeReg i 7]
        ∧ (hi16.setInputs [.writeReg i 7]).busy = false)
      ∧ embedding.busy = true := by
  decide +kernel

/-- A written byte at the last address of MSG; an unwritten one at the last address of PIX. -/
theorem witness_MemoryReadsReturnCurrentByte :
    hi16.MemoryOk ∧ 5 < memSize hi16.cfg .msg ∧ (5, 0xEE#8) ∈ hi16.mem .msg
      ∧ State.reset.MemoryOk ∧ 3145727 < memSize State.reset.cfg .pix
      ∧ ∀ v, (3145727, v) ∉ State.reset.mem .pix :=
  ⟨by decide +kernel, by decide, by decide, by decide, by decide, fun _ h => nomatch h⟩

theorem witness_MemoryWritesStoreOneByte :
    hi16.MemoryOk ∧ hi16.busy = false ∧ 47 < memSize hi16.cfg .pix ∧ 5 < memSize hi16.cfg .msg
      ∧ embedding.busy = true ∧ 47 < memSize embedding.cfg .pix := by
  decide +kernel

/-- The first absent address of each space, and the last existing byte above the Pixel Sequence. -/
theorem witness_AbsentLocationsReadZeroIgnoreWrites :
    (hi16.setInputs [.readReg 5]).inputs = [.readReg 5]
      ∧ 3 * hi16.cfg.pixCap / 8 ≤ 6 ∧ 3 * hi16.cfg.pixCap ≤ 48
      ∧ ({ hi16 with pixelCount := 15 } : State).MemoryOk
      ∧ 3 * ({ hi16 with pixelCount := 15 } : State).pixelCount.toNat ≤ 47 ∧ 47 < 3 * hi16.cfg.pixCap := by
  decide +kernel

theorem witness_EngineStepsExactlyWhileBusy :
    embedding.Inv ∧ embedding.busy = true ∧ embedding.inputs = [] ∧ hi16.busy = false
      ∧ (embedding.setInputs [.engine]).inputs = [.engine] :=
  ⟨inv_embedding, by decide +kernel, by decide +kernel, rfl, rfl⟩

theorem witness_ResetGivesTheResetValues :
    (embedding.setInputs [.reset]).inputs = [.reset] ∧ embedding.busy = true :=
  ⟨rfl, by decide +kernel⟩

/-- With the last byte of each memory. -/
theorem witness_PowerOnLeavesUnknownMemories :
    (embedding.setInputs [.powerOn]).inputs = [.powerOn] ∧ 5 < memSize embedding.cfg .msg
      ∧ 47 < memSize embedding.cfg .pix ∧ 393215 < memSize State.reset.cfg .msg
      ∧ 3145727 < memSize State.reset.cfg .pix :=
  ⟨rfl, by decide +kernel, by decide +kernel, by decide, by decide⟩

/-- An embedding and an extraction cut short, each with bits or characters done. -/
theorem witness_ResetInMidCommandKeepsMemories :
    (embedding.setInputs [.reset]).Inv ∧ embedding.busy = true ∧ embedding.phase = .run ∧ embedding.op = 2
      ∧ 9 < embedding.k.toNat
      ∧ (extracting.setInputs [.reset]).Inv ∧ extracting.busy = true ∧ extracting.phase = .run
      ∧ extracting.op = 3 ∧ 2 < extracting.k.toNat / 8 :=
  ⟨inv_inputs inv_embedding _, by decide +kernel, by decide +kernel, by decide +kernel, by decide +kernel,
    inv_inputs inv_extracting _, by decide +kernel, by decide +kernel, by decide +kernel, by decide +kernel⟩

theorem witness_StepKeepsConfiguration :
    look (fun _ => ()) (step hi16) = some () ∧ hi16.inputs.head? ≠ some .powerOn := by
  decide +kernel

theorem witness_ChkcapReportsTheCapacity : hi16.busy = false := by decide

/-- Equality and one bit over, for the two commands. -/
theorem witness_CapacityBoundaryIsExact :
    (({ hi16 with bitCount := 48 } : State).bitCount.toNat = 3 * hi16.pixelCount.toNat)
      ∧ (({ hi16 with bitCount := 49 } : State).bitCount.toNat = 3 * hi16.pixelCount.toNat + 1)
      ∧ (hi16.pixelCount.toNat ≤ hi16.cfg.pixCap
          ∧ 8 * (hi16.msgLen.toNat + 4) = 3 * hi16.pixelCount.toNat)
      ∧ 13 ≤ hi16.cfg.pixCap ∧ 8 * (1 + 4) = 3 * 13 + 1 ∧ hi16.busy = false := by
  decide

theorem witness_EmbedRefusesTooManyPixels :
    ({ hi16 with pixelCount := 17 } : State).busy = false
      ∧ hi16.cfg.pixCap < ({ hi16 with pixelCount := 17 } : State).pixelCount.toNat := by
  decide

/-- One bit short (vector E5), and the exact fit (vector E4). -/
theorem witness_EmbedChecksCapacityFirst :
    hi16.busy = false ∧ hi16.pixelCount.toNat ≤ hi16.cfg.pixCap
      ∧ 3 * ({ hi16 with pixelCount := 13, msgLen := 1 } : State).pixelCount.toNat
          < 8 * (({ hi16 with pixelCount := 13, msgLen := 1 } : State).msgLen.toNat + 4)
      ∧ 8 * (hi16.msgLen.toNat + 4) ≤ 3 * hi16.pixelCount.toNat := by
  decide

/-- The hypotheses of a successful EMBED, shared by four statements. -/
theorem witness_EmbedWritesTheBitStream :
    hi16.busy = false ∧ hi16.cfg.wf ∧ hi16.pix.wf ∧ hi16.pixelCount.toNat ≤ hi16.cfg.pixCap
      ∧ 8 * (hi16.msgLen.toNat + 4) ≤ 3 * hi16.pixelCount.toNat := by
  decide +kernel

theorem witness_EmbedPerturbsOnlyLsbs :
    hi16.pix.wf ∧ look (fun _ => ()) (exec .embed hi16) = some () := by
  decide +kernel

theorem witness_EmbedTwiceIsEmbedOnce :
    hi16.busy = false ∧ hi16.pix.wf ∧ ∃ t, exec .embed hi16 = .next t ∧ t.result = .ok :=
  ⟨rfl, by decide +kernel, _, exec_eq _ _, by decide +kernel⟩

/-- With a channel `n = 47` left, the last one. -/
theorem witness_EmbedStepsFollowTheWalk :
    hi16.busy = false ∧ hi16.cfg.wf ∧ hi16.pix.wf ∧ hi16.pixelCount.toNat ≤ hi16.cfg.pixCap
      ∧ 8 * (hi16.msgLen.toNat + 4) ≤ 3 * hi16.pixelCount.toNat ∧ 47 < 8 * (hi16.msgLen.toNat + 4) := by
  decide +kernel

theorem witness_ExtractRefusesTooManyPixels :
    ({ stego16 with pixelCount := 17 } : State).busy = false
      ∧ stego16.cfg.pixCap < ({ stego16 with pixelCount := 17 } : State).pixelCount.toNat := by
  decide

/-- The terminator at the last chunk of all, `e = 5` (vector X2). -/
theorem witness_ExtractStopsAtTheFirstTerminator :
    stego16.busy = false ∧ stego16.msg.wf ∧ stego16.pixelCount.toNat ≤ stego16.cfg.pixCap
      ∧ 5 < 3 * stego16.pixelCount.toNat / 8 ∧ stego16.chunk (5 - 3) = 0x23 ∧ stego16.chunk (5 - 2) = 0x23
      ∧ stego16.chunk (5 - 1) = 0x23 ∧ stego16.chunk 5 = 0x23
      ∧ ∀ d < 5, ¬ (3 ≤ d ∧ stego16.chunk (d - 3) = 0x23 ∧ stego16.chunk (d - 2) = 0x23
        ∧ stego16.chunk (d - 1) = 0x23 ∧ stego16.chunk d = 0x23) := by
  decide +kernel

/-- Six chunks and none matches (vector X3); 10 pixels, the most that hold no terminator (vector X4); and no
pixel at all. -/
theorem witness_ExtractReportsNotFound :
    blank16.busy = false ∧ blank16.msg.wf ∧ blank16.pixelCount.toNat ≤ blank16.cfg.pixCap
      ∧ (∀ d < 3 * blank16.pixelCount.toNat / 8, ¬ (3 ≤ d ∧ blank16.chunk (d - 3) = 0x23
        ∧ blank16.chunk (d - 2) = 0x23 ∧ blank16.chunk (d - 1) = 0x23 ∧ blank16.chunk d = 0x23))
      ∧ ({ blank16 with pixelCount := 10 } : State).pixelCount.toNat ≤ 10
      ∧ State.reset.busy = false ∧ State.reset.msg.wf ∧ State.reset.pixelCount = 0 := by
  decide +kernel

/-- The same carrier beside two different MSG memories and lengths; one match, one exhaustion. -/
theorem witness_ExtractDependsOnPixelsAlone :
    let other (s : State) : State := { s with msg := [], msgLen := 7, bitCount := 3, result := .badCmd }
    ∀ s ∈ [stego16, blank16], s.busy = false ∧ (other s).busy = false ∧ s.msg.wf ∧ (other s).msg.wf
      ∧ (other s).cfg = s.cfg ∧ (other s).pixelCount = s.pixelCount ∧ (other s).pix = s.pix
      ∧ s.pixelCount.toNat ≤ s.cfg.pixCap ∧ look (fun _ => ()) (exec .extract (other s)) = some ()
      ∧ (look (fun t => t.result) (exec .extract s) = some .ok
          ∨ look (fun t => t.result) (exec .extract s) = some .notFound) := by
  decide +kernel

/-- Still running with 47 of 48 channels collected. -/
theorem witness_ExtractStepsFollowTheChunks :
    stego16.busy = false ∧ stego16.cfg.wf ∧ stego16.msg.wf ∧ stego16.pixelCount.toNat ≤ stego16.cfg.pixCap
      ∧ (State.engineRun (1 + (8 * 5 + 7)) (stego16.accept 3)).busy = true := by
  refine ⟨rfl, by decide, by decide, by decide, ?_⟩
  rw [State.engineRun_extract_within (by decide) (by decide) (by decide) (le_refl 7) (by decide +kernel)]
  exact stego16.busy_chunks_accept 5

theorem witness_RoundTripOfUnambiguousPayloads :
    hi16.busy = false ∧ hi16.pix.wf ∧ Memory.wf [] ∧ hi16.pixelCount.toNat ≤ hi16.cfg.pixCap
      ∧ 8 * (hi16.msgLen.toNat + 4) ≤ 3 * hi16.pixelCount.toNat := by
  decide +kernel

/-- The clauses of the framing ambiguity in a block of 32 pixels: "A####B" (vector X6) has its first four
0x23 end at index 4, "A####" the same with `e` the last index of the payload; "a#" (vector X7) ends in one 0x23 and "###" (vector X8) in three, with no marker. -/
theorem witness_FramingAmbiguityCutsThePayload :
    let s (m : List Byte) : State :=
      { block16 [] m 32 (BitVec.ofNat 32 m.length) with cfg := { pixCap := 32 } }
    (∀ m ∈ [[0x41#8, 0x23#8, 0x23#8, 0x23#8, 0x23#8, 0x42#8], [0x41#8, 0x23#8, 0x23#8, 0x23#8, 0x23#8],
        [0x61#8, 0x23#8], [0x23#8, 0x23#8, 0x23#8]],
      (s m).busy = false ∧ (s m).pix.wf ∧ (s m).pixelCount.toNat ≤ (s m).cfg.pixCap
        ∧ 8 * ((s m).msgLen.toNat + 4) ≤ 3 * (s m).pixelCount.toNat)
    ∧ ((s [0x41, 0x23, 0x23, 0x23, 0x23, 0x42]).framedClosesAt 4
        ∧ ∀ d < 4, ¬ (s [0x41, 0x23, 0x23, 0x23, 0x23, 0x42]).framedClosesAt d)
    ∧ (4 = (s [0x41, 0x23, 0x23, 0x23, 0x23]).msgLen.toNat - 1
        ∧ (s [0x41, 0x23, 0x23, 0x23, 0x23]).framedClosesAt 4
        ∧ ∀ d < 4, ¬ (s [0x41, 0x23, 0x23, 0x23, 0x23]).framedClosesAt d)
    ∧ ((∀ e < 2, ¬ (s [0x61, 0x23]).framedClosesAt e) ∧ (s [0x61, 0x23]).readByte .msg (2 - 1 - 0) = 0x23
        ∧ (s [0x61, 0x23]).readByte .msg (2 - 1 - 1) ≠ 0x23)
    ∧ (∀ e < 3, ¬ (s [0x23, 0x23, 0x23]).framedClosesAt e)
    ∧ ∀ i < 3, (s [0x23, 0x23, 0x23]).readByte .msg (3 - 1 - i) = 0x23 := by
  decide +kernel

theorem witness_StepLevelReachesTheResultLevel :
    hi16.busy = false ∧ hi16.cfg.wf ∧ hi16.msg.wf := by
  decide +kernel

/-- A count above the capacity, a message that does not fit, one that does, a match and an exhaustion. -/
theorem witness_EngineStepCounts :
    (hi16.busy = false ∧ hi16.cfg.wf ∧ hi16.msg.wf)
      ∧ hi16.cfg.pixCap < ({ hi16 with pixelCount := 17 } : State).pixelCount.toNat
      ∧ 3 * hi16.pixelCount.toNat < 8 * (({ hi16 with msgLen := 3 } : State).msgLen.toNat + 4)
      ∧ 8 * (hi16.msgLen.toNat + 4) ≤ 3 * hi16.pixelCount.toNat
      ∧ (5 < 3 * stego16.pixelCount.toNat / 8 ∧ stego16.closesAt 5 ∧ ∀ d < 5, ¬ stego16.closesAt d)
      ∧ ∀ d < 3 * blank16.pixelCount.toNat / 8, ¬ blank16.closesAt d := by
  decide +kernel

theorem witness_RunningCommandEnds : embedding.Inv ∧ extracting.Inv := ⟨inv_embedding, inv_extracting⟩

theorem witness_WaitReturnsWhenTheCommandHasEnded :
    (embedding.setInputs [.wait]).Inv ∧ (embedding.setInputs [.wait]).inputs = [.wait] :=
  ⟨inv_inputs inv_embedding _, rfl⟩

theorem witness_StepKeepsTheInvariant :
    embedding.Inv ∧ look (fun _ => ()) (step embedding) = some () :=
  ⟨inv_embedding, by decide +kernel⟩

theorem witness_StatusReadsAsAListedWord : embedding.Inv ∧ extracting.Inv ∧ hi16.Inv :=
  ⟨inv_embedding, inv_extracting, inv_hi16⟩

/-- Every kind of input that leaves the outcome alone, after an `OK` outcome; and none at all. -/
theorem witness_OutcomeStaysUntilTheNextCommand :
    let done : State := { hi16 with op := 2, cap := true, result := .ok }
    done.busy = false ∧ done.inputs = []
      ∧ ∀ i ∈ [Input.readReg 1, .readMem .pix 0, .writeReg 1 0, .writeReg 3 5, .writeMem .msg 0 0, .engine, .wait],
        look (fun t => t.statusWord) (step (done.setInputs [i])) = some 0x212#32 := by
  decide +kernel

theorem witness_EmbedWalkOnceStartedEndsWithOk :
    embedding.Inv ∧ embedding.busy = true ∧ embedding.op = 2 ∧ embedding.phase = .run
      ∧ 8 * (embedding.msgLen.toNat + 4) - embedding.k.toNat = 38 :=
  ⟨inv_embedding, rfl, rfl, rfl, rfl⟩

/-- An embedding; an extraction whose next step collects, its `RUNCNT` above 0. -/
theorem witness_EngineAccessesStayInRange :
    embedding.Inv ∧ embedding.busy = true ∧ embedding.phase = .run ∧ embedding.op = 2
      ∧ embedding.k.toNat / 8 < embedding.msgLen.toNat
      ∧ extracting.Inv ∧ extracting.busy = true ∧ extracting.phase = .run ∧ extracting.op = 3
      ∧ extracting.k.toNat ≠ extracting.chunkBits ∧ extracting.runcnt = 1 :=
  ⟨inv_embedding, by decide +kernel, by decide +kernel, by decide +kernel, by decide +kernel,
    inv_extracting, by decide +kernel, by decide +kernel, by decide +kernel, by decide +kernel, rfl⟩

theorem witness_CommandsForgetEarlierCommands : hi16.busy = false := by decide

/-- An idle block, and a running one with the command it runs; commands that end in `CAPACITY_ERROR`, `OK` and
`BAD_CONFIG`. -/
theorem witness_CommandsWriteOnlyTheirLocations :
    hi16.Inv ∧ embedding.Inv ∧ embedding.busy = true ∧ embedding.op = opOf .embed
      ∧ extracting.Inv ∧ extracting.busy = true ∧ extracting.op = opOf .extract :=
  ⟨inv_hi16, inv_embedding, by decide +kernel, by decide +kernel, inv_extracting, by decide +kernel,
    by decide +kernel⟩

theorem witness_CommandsWriteOnlyTheirLocations_results :
    (({ hi16 with msgLen := 3 } : State).Inv ∧ hi16.busy = false
        ∧ look State.result (exec .embed { hi16 with msgLen := 3 }) = some .capacityError)
      ∧ (stego16.Inv ∧ stego16.busy = false ∧ look State.result (exec .extract stego16) = some .ok)
      ∧ (({ hi16 with pixelCount := 17 } : State).Inv
        ∧ look State.result (exec .extract { hi16 with pixelCount := 17 }) = some .badConfig) :=
  ⟨⟨inv_hi16_with inv_hi16 16 3, rfl, by decide +kernel⟩, ⟨inv_stego16, rfl, by decide +kernel⟩,
    inv_hi16_with inv_hi16 17 2, by decide +kernel⟩

/-- As many bytes as each memory holds, and more; and the inputs of a line. -/
theorem witness_LoadLinesStoreTheirBytes :
    hi16.busy = false ∧ hi16.MemoryOk
      ∧ ((HostLine.ldpix carrierE4).wf = true ∧ carrierE4.length = 3 * hi16.cfg.pixCap)
      ∧ (HostLine.ldpix (carrierE4 ++ [1, 2, 3])).wf = true
      ∧ ((HostLine.ldmsgb (List.replicate 6 0x41)).wf = true ∧ 6 = 3 * hi16.cfg.pixCap / 8)
      ∧ (HostLine.ldmsgb (List.replicate 7 0x41)).wf = true
      ∧ (HostLine.ldmsg ['H', 'I']).wf = true ∧ (HostLine.ldmsg ['M', 'E', 'S', 'S', 'A', 'G', 'E']).wf = true
      ∧ (hi16.setInputs (expandLine (.ldmsg ['H', 'I']) ++ [])).inputs = expandLine (.ldmsg ['H', 'I']) ++ [] := by
  decide +kernel

theorem witness_CheckCapacityCallAnswersThePlanner :
    hi16.busy = false ∧ (hi16.setInputs (expandScript (checkCapacityCall 48 16) ++ [])).inputs
      = expandScript (checkCapacityCall 48 16) ++ [] := by
  decide

theorem witness_ExpectLinesStateWhatReadsReturn :
    (hi16.setInputs [.readReg 1]).inputs = [.readReg 1] ∧ hi16.inputs = []
      ∧ (hi16.setInputs [.readMem .msg 5]).inputs = [.readMem .msg 5] := by
  decide

/-- An idle and a running block. -/
theorem witness_ScriptLinesRunToTheirEnd : hi16.Inv ∧ embedding.Inv ∧ HostLine.wait = .wait :=
  ⟨inv_hi16, inv_embedding, rfl⟩

/-- The exact fit and one character more; the last chunk; no chunk at all; 16 and 17 pixels where PIX holds 16. -/
theorem witness_SourceCallsReturnByOutcome :
    (hi16.Inv ∧ hi16.busy = false)
      ∧ (carrierE4.length = 3 * 16 ∧ 16 ≤ hi16.cfg.pixCap ∧ 8 * ([0x48, 0x49].length + 4) ≤ 3 * 16
        ∧ 3 * 16 < 8 * ([0x48, 0x49, 0x4A].length + 4))
      ∧ ((List.replicate 51 (0 : Byte)).length = 3 * 17 ∧ hi16.cfg.pixCap < 17)
      ∧ (([] : List Byte).length = 3 * 0 ∧ ∀ d < 3 * 0 / 8, ¬ listClosesAt [] d)
      ∧ (stegoE4.length = 3 * 16 ∧ 5 < 3 * 16 / 8 ∧ listClosesAt stegoE4 5 ∧ ∀ d < 5, ¬ listClosesAt stegoE4 d)
      ∧ ∀ d < 3 * 16 / 8, ¬ listClosesAt (List.replicate 48 0) d :=
  ⟨⟨inv_hi16, rfl⟩, by decide +kernel, by decide +kernel, by decide +kernel, by decide +kernel, by decide +kernel⟩

/-- "HI", the exact fit, and the empty message. -/
theorem witness_SourceRoundTrip :
    let hi : List Byte := [0x48, 0x49]
    (hi16.Inv ∧ hi16.busy = false ∧ stego16.Inv ∧ stego16.busy = false ∧ stego16.cfg = hi16.cfg
      ∧ carrierE4.length = 3 * 16 ∧ 16 ≤ hi16.cfg.pixCap)
      ∧ (8 * (hi.length + 4) ≤ 3 * 16
        ∧ (∀ j, j + 4 ≤ hi.length → ¬ (hi.getD j 0 = 0x23 ∧ hi.getD (j + 1) 0 = 0x23
          ∧ hi.getD (j + 2) 0 = 0x23 ∧ hi.getD (j + 3) 0 = 0x23))
        ∧ (0 < hi.length → hi.getD (hi.length - 1) 0 ≠ 0x23))
      ∧ 8 * (([] : List Byte).length + 4) ≤ 3 * 16 :=
  ⟨⟨inv_hi16, rfl, inv_stego16, rfl, rfl, by decide +kernel, by decide +kernel⟩,
    ⟨by decide, fun j h => absurd h (by simp), by decide⟩, by decide⟩

end Sys2Proof.Tests
end

section
/-! O18: what no input but a power-on changes, the capacity and the name of the power-up (00_scope.md R8;
10_state.md R33). -/

namespace Sys2Proof.Machine

/-- `t` has the configuration and the power-up of `s`. -/
def State.SamePowerUp (s t : State) : Prop := t.cfg = s.cfg ∧ t.powerUp = s.powerUp

theorem State.SamePowerUp.refl (s : State) : s.SamePowerUp s := ⟨rfl, rfl⟩

/-- Whatever keeps the operands keeps these two. -/
theorem State.SameOperands.samePowerUp {s t : State} (h : s.SameOperands t) : s.SamePowerUp t :=
  ⟨h.1, h.2.1⟩

/-- Busy gating chooses between the old state and the new one. -/
theorem State.SamePowerUp.whenIdle {s t : State} (h : s.SamePowerUp t) : s.SamePowerUp (s.whenIdle t) := by
  unfold State.whenIdle
  split
  · exact .refl s
  · exact h

/-- Command acceptance, of legal and illegal words (43_host_access.md R152). -/
theorem State.samePowerUp_writeCmd (s : State) (w : Word) : s.SamePowerUp (s.writeCmd w) := by
  unfold State.writeCmd
  split <;> exact ⟨rfl, rfl⟩

/-- A register write (43_host_access.md R151). -/
theorem State.samePowerUp_writeReg (s : State) (i : Nat) (v : Word) : s.SamePowerUp (s.writeReg i v) := by
  refine State.SamePowerUp.whenIdle ?_
  split
  · exact s.samePowerUp_writeCmd v
  all_goals exact ⟨rfl, rfl⟩

/-- One round of `wait` (30_encoding.md R77). -/
theorem State.samePowerUp_poll (s : State) : s.SamePowerUp s.poll := by
  unfold State.poll
  split <;> exact ⟨rfl, rfl⟩

/-- A command word at the result level. -/
theorem State.samePowerUp_afterCommand (s : State) (w : Word) : s.SamePowerUp (s.afterCommand w) := by
  unfold State.afterCommand
  split
  · exact .refl s
  · split
    · exact (s.sameOperands_commandResult _).samePowerUp
    · exact ⟨rfl, rfl⟩

/-- Every input but a power-on. -/
theorem State.samePowerUp_afterInput (s : State) {i : Input} (h : i ≠ .powerOn) :
    s.SamePowerUp (s.afterInput i) := by
  cases i with
  | readReg i => exact ⟨rfl, rfl⟩
  | readMem sp a => exact ⟨rfl, rfl⟩
  | writeReg i v => exact s.samePowerUp_writeReg i v
  | writeMem sp a v => exact (s.sameOperands_writeByte sp a v).samePowerUp.whenIdle
  | engine => exact s.sameOperands_engineStep.samePowerUp
  | reset => exact ⟨rfl, rfl⟩
  | powerOn => exact absurd rfl h
  | wait => exact s.samePowerUp_poll
  | command w => exact s.samePowerUp_afterCommand w

/-- Every input keeps the configuration, a power-on too. -/
theorem State.afterInput_cfg (s : State) (i : Input) : (s.afterInput i).cfg = s.cfg := by
  by_cases h : i = .powerOn
  · subst h; rfl
  · exact (s.samePowerUp_afterInput h).1

/-- Settles O18, by the cases of a step: an ENGINE step, or the next input. -/
theorem stepKeepsConfiguration : Obligations.StepKeepsConfiguration := by
  intro s t h
  rcases step_cases h with ⟨_, rfl⟩ | ⟨i, rest, hi, rfl⟩
  · obtain ⟨hcfg, hpower⟩ := s.sameOperands_engineStep.samePowerUp
    exact ⟨hcfg, fun _ => hpower⟩
  · refine ⟨State.afterInput_cfg (s.setInputs rest) i, fun hne => ?_⟩
    have hne : i ≠ .powerOn := by simpa [hi] using hne
    exact (State.samePowerUp_afterInput (s.setInputs rest) hne).2

end Sys2Proof.Machine
end

section
/-! O35: from acceptance on, the ENGINE steps of each command end in the state of the result level
(00_scope.md R10), one lemma an outcome, with the number of steps it takes. -/

namespace Sys2Proof.Machine

/-- From `u` the ENGINE ends in `t` with its `n`-th step: `BUSY` is 1 before it and 0 after it. -/
def State.EndsAfter (u : State) (n : Nat) (t : State) : Prop :=
  State.engineRun n u = t ∧ t.busy = false ∧ ∀ m < n, (State.engineRun m u).busy = true

/-- It is enough to know the last step and that the block was busy before it. -/
theorem State.endsAfter_succ {u t : State} {n : Nat} (hrun : State.engineRun (n + 1) u = t)
    (hend : t.busy = false) (hbusy : (State.engineRun n u).busy = true) : u.EndsAfter (n + 1) t :=
  ⟨hrun, hend, fun _ hm => State.engineRun_busy_of_le hbusy (Nat.le_of_lt_succ hm)⟩

/-- CHKCAP is one step (40_capacity.md R94). -/
theorem State.endsAfter_chkcap (s : State) : (s.accept 1).EndsAfter 1 (s.accept 1).reportCapacity :=
  State.endsAfter_succ (n := 0) (State.engineStep_chkcap (s := s.accept 1) rfl rfl) rfl rfl

/-- An EMBED that fails a check ends in its START step (41_embed.md R111). -/
theorem State.endsAfter_embed_refused {s : State}
    (h : s.cfg.pixCap < s.pixelCount.toNat ∨ 3 * s.pixelCount.toNat < 8 * (s.msgLen.toNat + 4)) :
    (s.accept 2).EndsAfter 1 (s.accept 2).embedResult := by
  obtain ⟨hrun, hend⟩ := State.engineRun_one_embed_refused h
  exact State.endsAfter_succ (n := 0) hrun hend rfl

/-- An EMBED that fits takes its START step and one step a bit (41_embed.md R112). -/
theorem State.endsAfter_embed_walk {s : State} (hc : s.cfg.wf) (hN : s.pixelCount.toNat ≤ s.cfg.pixCap)
    (h : 8 * (s.msgLen.toNat + 4) ≤ 3 * s.pixelCount.toNat) :
    (s.accept 2).EndsAfter (1 + 8 * (s.msgLen.toNat + 4))
      ((((s.accept 2).setCap true).toRun.embedWalk (8 * (s.msgLen.toNat + 4))).raise .ok) := by
  obtain ⟨hrun, hbusy⟩ := State.engineRun_embed hc hN h
  exact ⟨hrun, rfl, hbusy⟩

/-- An EXTRACT of more pixels than PIX holds ends in its START step (42_extract.md R130). -/
theorem State.endsAfter_extract_refused {s : State} (h : s.cfg.pixCap < s.pixelCount.toNat) :
    (s.accept 3).EndsAfter 1 ((s.accept 3).raise .badConfig) := by
  refine State.endsAfter_succ (n := 0) ?_ rfl rfl
  rw [State.engineRun_one, State.engineStep_extract rfl rfl]
  rcases extractEngineStep_cases (s.accept 3) with ⟨_, _, he⟩ | ⟨_, hle, _⟩ | ⟨hp, _⟩ | ⟨hp, _⟩ | ⟨hp, _⟩
  · exact he
  · exact absurd h (Nat.not_lt.2 hle)
  all_goals cases hp

/-- An EXTRACT whose first terminator ends at chunk `j` takes its START step and eight steps a chunk up to that
one (42_extract.md R134). -/
theorem State.endsAfter_extract_matched {s : State} (hc : s.cfg.wf) (hN : s.pixelCount.toNat ≤ s.cfg.pixCap)
    {j : Nat} (hj : j < 3 * s.pixelCount.toNat / 8) (hcl : s.closesAt j) (hd : ∀ d < j, ¬ s.closesAt d) :
    (s.accept 3).EndsAfter (1 + 8 * (j + 1)) (((s.accept 3).toRun.appendChunks (j + 1)).matchedAt j) := by
  have hrun := State.engineRun_extract_matched hN hc hj hd hcl
  have hlast := State.engineRun_extract_within hN hc hj (le_refl 7) hd
  rw [show 1 + 8 * (j + 1) = 1 + (8 * j + 7) + 1 by ring] at hrun ⊢
  exact State.endsAfter_succ hrun rfl (by rw [hlast]; exact s.busy_chunks_accept j)

/-- An EXTRACT without a terminator takes its START step, eight steps a whole chunk, and the step that reports
exhaustion (42_extract.md R134). -/
theorem State.endsAfter_extract_exhausted {s : State} (hc : s.cfg.wf)
    (hN : s.pixelCount.toNat ≤ s.cfg.pixCap) (hd : ∀ d < 3 * s.pixelCount.toNat / 8, ¬ s.closesAt d) :
    (s.accept 3).EndsAfter (2 + 8 * (3 * s.pixelCount.toNat / 8))
      ((s.accept 3).toRun.appendChunks (3 * s.pixelCount.toNat / 8)).exhausted := by
  have hrun := State.engineRun_extract_exhausted hN hc hd
  have hlast := State.engineRun_extract_chunks hN hc (le_refl _) hd
  rw [show 2 + 8 * (3 * s.pixelCount.toNat / 8) = 1 + 8 * (3 * s.pixelCount.toNat / 8) + 1 by ring] at hrun ⊢
  exact State.endsAfter_succ hrun rfl (by rw [hlast]; exact s.busy_chunks_accept _)

/-- The ENGINE steps of an accepted EMBED end where its result level does, for each of the three outcomes. -/
theorem exec_embed_endsAfter {s : State} (hb : s.busy = false) (hc : s.cfg.wf) :
    ∃ n t, exec .embed s = .next t ∧ (s.accept 2).EndsAfter n t := by
  by_cases h : s.cfg.pixCap < s.pixelCount.toNat ∨ 3 * s.pixelCount.toNat < 8 * (s.msgLen.toNat + 4)
  · exact ⟨_, _, execEmbed_idle hb, State.endsAfter_embed_refused h⟩
  · obtain ⟨hN, hfit⟩ := not_or.1 h
    exact ⟨_, _, exec_embed_walk hb (Nat.not_lt.1 hN) (Nat.not_lt.1 hfit),
      State.endsAfter_embed_walk hc (Nat.not_lt.1 hN) (Nat.not_lt.1 hfit)⟩

/-- An idle block answers an EXTRACT of more pixels than PIX holds with `BAD_CONFIG` (42_extract.md R130). -/
theorem exec_extract_refused {s : State} (hb : s.busy = false) (h : s.cfg.pixCap < s.pixelCount.toNat) :
    exec .extract s = .next ((s.accept 3).raise .badConfig) := by
  have htoo : (s.accept 3).tooManyPixels = true := decide_eq_true h
  rw [exec_extract_idle hb, State.extractResult, State.extractChecked, if_pos htoo]

/-- The ENGINE steps of an accepted EXTRACT end where its result level does, for each of the three outcomes. -/
theorem exec_extract_endsAfter {s : State} (hb : s.busy = false) (hc : s.cfg.wf) (hm : s.msg.wf) :
    ∃ n t, exec .extract s = .next t ∧ (s.accept 3).EndsAfter n t := by
  by_cases h : s.cfg.pixCap < s.pixelCount.toNat
  · exact ⟨_, _, exec_extract_refused hb h, State.endsAfter_extract_refused h⟩
  · have hN := Nat.not_lt.1 h
    rcases exec_extract_cases hb hm hN with ⟨e, he, hcl, hd, hx⟩ | ⟨hd, hx⟩
    · exact ⟨_, _, hx, State.endsAfter_extract_matched hc hN he hcl hd⟩
    · exact ⟨_, _, hx, State.endsAfter_extract_exhausted hc hN hd⟩

/-- Settles O35, command by command. -/
theorem stepLevelReachesTheResultLevel : Obligations.StepLevelReachesTheResultLevel := by
  intro i s hb hc hm
  cases i with
  | chkcap => exact ⟨_, _, execChkcap_idle hb, s.endsAfter_chkcap⟩
  | embed => exact exec_embed_endsAfter hb hc
  | extract => exact exec_extract_endsAfter hb hc hm

end Sys2Proof.Machine
end

section
/-! O39, O40: the invariant holds after reset, and every step keeps it. A command at the result level keeps it
because the ENGINE steps of the step level do and lead to the same state (00_scope.md R10). -/

namespace Sys2Proof.Machine

/-- An ENGINE step, by the command `STATUS.OP` selects (10_state.md R27). -/
theorem State.inv_engineStep {s : State} (h : s.Inv) : s.engineStep.Inv := by
  cases hb : s.busy with
  | false => rw [State.engineStep_idle hb]; exact h
  | true =>
    have ⟨_, _, ⟨hbusy, _⟩, _⟩ := h
    obtain ⟨-, hop, -⟩ := hbusy hb
    rcases hop with ho | ho | ho
    · rw [State.engineStep_chkcap hb ho]; exact State.inv_reportCapacity h ho
    · rw [State.engineStep_embed hb ho]; exact inv_embedEngineStep h hb ho
    · rw [State.engineStep_extract hb ho]; exact inv_extractEngineStep h hb ho

/-- Any number of ENGINE steps. -/
theorem State.inv_engineRun {s : State} (h : s.Inv) (n : Nat) : (State.engineRun n s).Inv := by
  induction n generalizing s with
  | zero => exact h
  | succ n ih => exact ih (State.inv_engineStep h)

/-- A command an idle block runs whole: its end state is one the ENGINE steps reach from acceptance. -/
theorem State.inv_commandResult {s : State} (h : s.Inv) (hb : s.busy = false) (i : Instr) :
    (s.commandResult i).Inv := by
  have ⟨hcfg, ⟨hmsg, _⟩, _⟩ := h
  obtain ⟨n, t, hexec, hrun, -⟩ := stepLevelReachesTheResultLevel i s hb hcfg hmsg
  have ht : s.commandResult i = t := by simpa [exec_eq, hb] using hexec
  rw [ht, ← hrun]
  exact State.inv_engineRun (State.inv_accept h i) n

/-- Busy gating leaves the old state or, of an idle block, the new one. -/
theorem State.inv_whenIdle {s t : State} (h : s.Inv) (ht : s.busy = false → t.Inv) : (s.whenIdle t).Inv := by
  unfold State.whenIdle
  split
  · exact h
  · next hb => exact ht (by simpa using hb)

/-- Command acceptance, of legal and illegal words (43_host_access.md R152). -/
theorem State.inv_writeCmd {s : State} (h : s.Inv) (w : Word) : (s.writeCmd w).Inv := by
  unfold State.writeCmd
  split
  · exact State.inv_accept h _
  · exact State.inv_rejectCommand h w

/-- A register write (43_host_access.md R151): of an idle block the invariant says nothing about the operand
registers. -/
theorem State.inv_writeReg {s : State} (h : s.Inv) (i : Nat) (v : Word) : (s.writeReg i v).Inv := by
  refine State.inv_whenIdle h fun hb => ?_
  have ⟨hcfg, hmem, hstatus, hranges, _⟩ := h
  split
  · exact State.inv_writeCmd h v
  · exact h
  · exact State.inv_of_idle hb hcfg hmem hstatus hranges
  · exact State.inv_of_idle hb hcfg hmem hstatus hranges
  · exact State.inv_of_idle hb hcfg hmem hstatus hranges
  · exact h

/-- A memory write (43_host_access.md R154). -/
theorem State.inv_writeMem {s : State} (h : s.Inv) (sp : MemSpace) (a : Nat) (v : Byte) :
    (s.writeMem sp a v).Inv := by
  refine State.inv_whenIdle h fun hb => ?_
  obtain ⟨hcfg, hmem, hstatus, hranges, -⟩ := h
  exact State.inv_of_idle (by simpa using hb) (by simpa using hcfg) (State.memoryOk_writeByte hmem sp a v)
    (by simpa [State.StatusOk] using hstatus) (by simpa [State.RangesOk] using hranges)

/-- A command word at the result level (43_host_access.md R152, last paragraph). -/
theorem State.inv_afterCommand {s : State} (h : s.Inv) (w : Word) : (s.afterCommand w).Inv := by
  unfold State.afterCommand
  split
  · exact h
  · next hb =>
    split
    · exact State.inv_commandResult h (by simpa using hb) _
    · exact State.inv_rejectCommand h w

/-- The reset values meet the invariant, whatever the registers held (10_state.md R33). -/
theorem State.inv_resetInput {s : State} (hcfg : s.cfg.wf) (hmem : s.MemoryOk) : s.resetInput.Inv :=
  State.inv_of_idle rfl hcfg hmem ⟨by simp, by simp⟩ ⟨Nat.zero_le _, Nat.zero_le _⟩

/-- Memories in which nothing is written are canonical. -/
theorem State.memoryOk_of_unwritten {s : State} (hmsg : s.msg = []) (hpix : s.pix = []) : s.MemoryOk := by
  simp [State.MemoryOk, hmsg, hpix]

/-- A power-on is a reset of the block with nothing written. -/
theorem State.inv_powerOnReset {s : State} (hcfg : s.cfg.wf) : s.powerOnReset.Inv :=
  State.inv_resetInput (s := { s with powerUp := s.powerUp + 1, msg := [], pix := [] }) hcfg
    (State.memoryOk_of_unwritten rfl rfl)

/-- The invariant does not mention the values host reads have returned. -/
theorem State.inv_output {s : State} (h : s.Inv) (v : HostData) : (s.output v).Inv := h

/-- Nor does it mention what the outside does next. -/
theorem State.inv_setInputs {s : State} (h : s.Inv) (l : List Input) : (s.setInputs l).Inv := h

/-- One round of `wait` (30_encoding.md R77). -/
theorem State.inv_poll {s : State} (h : s.Inv) : s.poll.Inv := by
  unfold State.poll
  split
  · exact State.inv_setInputs (State.inv_output h _) _
  · exact State.inv_output h _

/-- Every input keeps the invariant. -/
theorem State.inv_afterInput {s : State} (h : s.Inv) (i : Input) : (s.afterInput i).Inv := by
  have ⟨hcfg, hmem, _⟩ := h
  cases i with
  | readReg i => exact State.inv_output h _
  | readMem sp a => exact State.inv_output h _
  | writeReg i v => exact State.inv_writeReg h i v
  | writeMem sp a v => exact State.inv_writeMem h sp a v
  | engine => exact State.inv_engineStep h
  | reset => exact State.inv_resetInput hcfg hmem
  | powerOn => exact State.inv_powerOnReset hcfg
  | wait => exact State.inv_poll h
  | command w => exact State.inv_afterCommand h w

/-- Settles O39, by the cases of a step: an ENGINE step, or the next input. -/
theorem stepKeepsTheInvariant : Obligations.StepKeepsTheInvariant := by
  intro s t h hstep
  rcases step_cases hstep with ⟨-, rfl⟩ | ⟨i, rest, -, rfl⟩
  · exact State.inv_engineStep h
  · exact State.inv_afterInput (State.inv_setInputs h rest) i

/-- Settles O40: `State.reset` is its own reset. -/
theorem resetMeetsTheInvariant : Obligations.ResetMeetsTheInvariant :=
  State.inv_resetInput (s := State.reset) (by decide) State.memoryOk_reset

end Sys2Proof.Machine
end

section
/-! O41: the `STATUS` words the invariant leaves, while a command runs and after it (10_state.md R22;
95_test_vectors.md). -/

namespace Sys2Proof.Machine

/-- The `STATUS` words of a running command: CHKCAP, EMBED before and after its checks, EXTRACT. -/
theorem State.statusWord_of_busy {s : State} (h : s.StatusOk) (hb : s.busy = true) :
    s.statusWord ∈ [0x00000101#32, 0x00000201#32, 0x00000203#32, 0x00000301#32] := by
  obtain ⟨hresult, hop, hcap⟩ := h.1 hb
  rw [State.statusWord, hb, hresult]
  rcases hop with ho | ho | ho
  · have hc : s.cap = false := by simpa [ho] using hcap
    rw [hc, ho]; decide
  · rw [ho]; cases s.cap <;> decide
  · have hc : s.cap = false := by simpa [ho] using hcap
    rw [hc, ho]; decide

/-- The `STATUS` words of an idle block: after reset, and one for each outcome a command can end with; after
`BAD_CMD` the field `OP` can hold anything. -/
theorem State.statusWord_of_idle {s : State} (h : s.StatusOk) (hb : s.busy = false) :
    s.statusWord ∈ [0x00000000#32, 0x00000110#32, 0x00000112#32, 0x00000212#32, 0x00000220#32,
      0x00000250#32, 0x00000310#32, 0x00000330#32, 0x00000350#32]
    ∨ ∃ o : BitVec 4, s.statusWord = 0x00000040#32 ||| (o.setWidth 32 <<< 8) := by
  obtain ⟨hnone, hok, hcapacity, hnotFound, hbadCmd, hbadConfig⟩ := h.2 hb
  rw [State.statusWord, hb]
  cases hr : s.result with
  | none =>
    obtain ⟨ho, hc⟩ := hnone hr
    left; rw [hc, ho]; decide
  | ok =>
    left
    rcases hok hr with ho | ⟨ho, hc⟩ | ⟨ho, hc⟩
    · rw [ho]; cases s.cap <;> decide
    · rw [hc, ho]; decide
    · rw [hc, ho]; decide
  | capacityError =>
    obtain ⟨ho, hc⟩ := hcapacity hr
    left; rw [hc, ho]; decide
  | notFound =>
    obtain ⟨ho, hc⟩ := hnotFound hr
    left; rw [hc, ho]; decide
  | badCmd =>
    have hc := hbadCmd hr
    exact .inr ⟨s.op, by rw [hc]; rfl⟩
  | badConfig =>
    obtain ⟨ho, hc⟩ := hbadConfig hr
    left; rw [hc]
    rcases ho with ho | ho <;> rw [ho] <;> decide

/-- Settles O41: a running command's words, and an idle block's, are all in the list. -/
theorem statusReadsAsAListedWord : Obligations.StatusReadsAsAListedWord := by
  intro s ⟨_, _, hstatus, _⟩
  cases hb : s.busy with
  | true => exact .inl (List.subset_def.1 (by decide) (State.statusWord_of_busy hstatus hb))
  | false => exact (State.statusWord_of_idle hstatus hb).imp_left fun hw => List.subset_def.1 (by decide) hw

end Sys2Proof.Machine
end

section
/-! O15: a power-on leaves nothing written, so every existing byte reads its unknown value (10_state.md R33). -/

namespace Sys2Proof.Machine

/-- An existing byte of a memory in which nothing is written holds its unknown value (93 U4). -/
theorem State.readByte_of_unwritten {s : State} {sp : MemSpace} {a : Nat} (hm : s.mem sp = [])
    (ha : a < memSize s.cfg sp) : s.readByte sp a = Config.powerOnByte s.powerUp sp a := by
  unfold State.readByte
  rw [if_pos ha, hm]
  rfl

/-- Settles O15: both memories are empty after a power-on and in `State.reset`. -/
theorem powerOnLeavesUnknownMemories : Obligations.PowerOnLeavesUnknownMemories := by
  refine ⟨fun s rest hi => ⟨(s.setInputs rest).powerOnReset, ?_, fun sp a ha => ?_, rfl⟩, fun sp a ha => ?_⟩
  · rw [step_cons hi]; rfl
  · exact State.readByte_of_unwritten (by cases sp <;> rfl) ha
  · exact State.readByte_of_unwritten (by cases sp <;> rfl) ha

end Sys2Proof.Machine
end

section
/-! O45: a command reads its state only as acceptance leaves it, and acceptance sets `STATUS` and every internal
register (10_state.md R30; 43_host_access.md R152). -/

namespace Sys2Proof.Machine

/-- States that acceptance makes equal run every command to the same end. -/
theorem State.commandResult_congr {s t : State} (h : ∀ o, t.accept o = s.accept o) (i : Instr) :
    t.commandResult i = s.commandResult i := by
  cases i with
  | chkcap => exact congrArg State.reportCapacity (h 1)
  | embed => exact congrArg State.embedResult (h 2)
  | extract => exact congrArg State.extractResult (h 3)

/-- Settles O45: the two states differ only in what acceptance sets. -/
theorem commandsForgetEarlierCommands : Obligations.CommandsForgetEarlierCommands := by
  intro i s cap result op phase k sh runcnt hb
  simp only [exec_eq, hb, Bool.false_eq_true, if_false]
  exact congrArg Host.Outcome.next (State.commandResult_congr (fun _ => rfl) i)

end Sys2Proof.Machine
end

section
/-! O46: the frame of every command at both levels (20_memory.md R63; 41_embed.md R110; 42_extract.md R132). A
command, and each of its ENGINE steps, touches no operand at all, or is EMBED and writes PIX, or is EXTRACT and
writes MSG and `MSG_LEN`. -/

namespace Sys2Proof.Machine

/-- What command `i` leaves of `s` in `t`, a whole command or one of its ENGINE steps. -/
def State.Framed (i : Instr) (s t : State) : Prop :=
  t.pixelCount = s.pixelCount ∧ t.bitCount = s.bitCount ∧ t.cfg = s.cfg ∧ t.powerUp = s.powerUp
  ∧ t.inputs = s.inputs ∧ t.outputs = s.outputs
  ∧ (i ≠ .extract → t.msgLen = s.msgLen ∧ t.msg = s.msg)
  ∧ (i ≠ .embed → t.pix = s.pix)
  ∧ (∀ a, 3 * s.pixelCount.toNat ≤ a → t.readByte .pix a = s.readByte .pix a)

/-- What command `i`, run whole from `s`, leaves in its end state `t`, by the outcome of `t`. -/
def State.CommandFramed (i : Instr) (s t : State) : Prop :=
  State.Framed i s t
  ∧ (∀ a, s.framedBits ≤ a → t.readByte .pix a = s.readByte .pix a)
  ∧ (∀ a, s.wholeChunks ≤ a → t.readByte .msg a = s.readByte .msg a)
  ∧ (t.result ≠ .ok → t.pix = s.pix)
  ∧ (i = .extract → t.result = .ok →
      ∀ a, t.msgLen.toNat + 4 ≤ a → t.readByte .msg a = s.readByte .msg a)
  ∧ (t.result = .badConfig → t.msgLen = s.msgLen ∧ t.msg = s.msg)

/-- What one ENGINE step of command `i` leaves: but for the operands it writes, all bytes except those the cursor
names. -/
def State.StepFramed (i : Instr) (s t : State) : Prop :=
  State.Framed i s t
  ∧ (∀ a, a ≠ s.k.toNat → t.readByte .pix a = s.readByte .pix a)
  ∧ (∀ a, a ≠ s.k.toNat / 8 → t.readByte .msg a = s.readByte .msg a)

/-- `t` has every operand of `s`: at most `STATUS` and the internal registers differ. -/
def State.Untouched (s t : State) : Prop :=
  s.SameOperands t ∧ t.msgLen = s.msgLen ∧ t.msg = s.msg ∧ t.pix = s.pix

/-- A memory that is unchanged reads as before. -/
theorem State.SameOperands.readByte_eq {s t : State} (h : s.SameOperands t) {sp : MemSpace}
    (hmem : t.mem sp = s.mem sp) (a : Nat) : t.readByte sp a = s.readByte sp a := by
  obtain ⟨hcfg, hpower, _⟩ := h
  exact State.readByte_congr hcfg hpower hmem a

/-! ## The three ways to keep a frame -/

section
variable {s t : State}

/-- The frame, from the operands no command writes and the parts that depend on the command. -/
theorem State.SameOperands.framed (h : s.SameOperands t) {i : Instr}
    (hmsg : i ≠ .extract → t.msgLen = s.msgLen ∧ t.msg = s.msg) (hpix : i ≠ .embed → t.pix = s.pix)
    (hread : ∀ a, 3 * s.pixelCount.toNat ≤ a → t.readByte .pix a = s.readByte .pix a) :
    State.Framed i s t := by
  obtain ⟨hcfg, hpower, hcount, hbits, hinputs, houtputs⟩ := h
  exact ⟨hcount, hbits, hcfg, hpower, hinputs, houtputs, hmsg, hpix, hread⟩

/-- EMBED may write PIX below `3 * PIXEL_COUNT`. -/
theorem State.SameOperands.framed_embed (h : s.SameOperands t) (hlen : t.msgLen = s.msgLen)
    (hmsg : t.msg = s.msg)
    (hread : ∀ a, 3 * s.pixelCount.toNat ≤ a → t.readByte .pix a = s.readByte .pix a) :
    State.Framed .embed s t :=
  h.framed (fun _ => ⟨hlen, hmsg⟩) (fun hne => absurd rfl hne) hread

/-- EXTRACT may write `MSG_LEN` and MSG. -/
theorem State.SameOperands.framed_extract (h : s.SameOperands t) (hpix : t.pix = s.pix) :
    State.Framed .extract s t :=
  h.framed (fun hne => absurd rfl hne) (fun _ => hpix) fun a _ => h.readByte_eq (sp := .pix) hpix a

/-- With no operand touched every command keeps its frame. -/
theorem State.Untouched.framed (h : s.Untouched t) (i : Instr) : State.Framed i s t := by
  obtain ⟨hsame, hlen, hmsg, hpix⟩ := h
  exact hsame.framed (fun _ => ⟨hlen, hmsg⟩) (fun _ => hpix) fun a _ => hsame.readByte_eq (sp := .pix) hpix a

/-- And so does a whole command, whatever its outcome. -/
theorem State.Untouched.commandFramed (h : s.Untouched t) (i : Instr) : State.CommandFramed i s t := by
  have hframed := h.framed i
  obtain ⟨hsame, hlen, hmsg, hpix⟩ := h
  have hreadMsg := hsame.readByte_eq (sp := .msg) hmsg
  exact ⟨hframed, fun a _ => hsame.readByte_eq (sp := .pix) hpix a, fun a _ => hreadMsg a, fun _ => hpix,
    fun _ _ a _ => hreadMsg a, fun _ => ⟨hlen, hmsg⟩⟩

/-- And an ENGINE step. -/
theorem State.Untouched.stepFramed (h : s.Untouched t) (i : Instr) : State.StepFramed i s t := by
  have hframed := h.framed i
  obtain ⟨hsame, _, hmsg, hpix⟩ := h
  exact ⟨hframed, fun a _ => hsame.readByte_eq (sp := .pix) hpix a,
    fun a _ => hsame.readByte_eq (sp := .msg) hmsg a⟩

end

/-! ## Whole commands -/

/-- A whole EMBED that ends `OK` and wrote PIX only below `B`, where `B` fits `3 * PIXEL_COUNT`. -/
theorem State.SameOperands.commandFramed_embed {s t : State} (h : s.SameOperands t)
    (hlen : t.msgLen = s.msgLen) (hmsg : t.msg = s.msg) (hfit : s.framedBits ≤ 3 * s.pixels)
    (hread : ∀ a, s.framedBits ≤ a → t.readByte .pix a = s.readByte .pix a) (hr : t.result = .ok) :
    State.CommandFramed .embed s t :=
  ⟨h.framed_embed hlen hmsg fun a ha => hread a (le_trans hfit ha), hread,
    fun a _ => h.readByte_eq (sp := .msg) hmsg a, fun hne => absurd hr hne, fun he => absurd he (by decide),
    fun _ => ⟨hlen, hmsg⟩⟩

/-- A whole EXTRACT that passed its check and wrote MSG only below some `n`: no more than the whole chunks, and,
if it ends `OK`, than its new `MSG_LEN + 4`. -/
theorem State.SameOperands.commandFramed_extract {s t : State} (h : s.SameOperands t) (hpix : t.pix = s.pix)
    {n : Nat} (hread : ∀ a, n ≤ a → t.readByte .msg a = s.readByte .msg a) (hn : n ≤ s.wholeChunks)
    (hok : t.result = .ok → n ≤ t.msgLen.toNat + 4) (hr : t.result ≠ .badConfig) :
    State.CommandFramed .extract s t :=
  ⟨h.framed_extract hpix, fun a _ => h.readByte_eq (sp := .pix) hpix a, fun a ha => hread a (le_trans hn ha),
    fun _ => hpix, fun _ hr a ha => hread a (le_trans (hok hr) ha), fun hbad => absurd hbad hr⟩

/-- An EMBED that fits writes PIX below `B`. -/
theorem State.commandFramed_walk {s : State} (hw : s.pix.wf) (hN : s.pixels ≤ s.cfg.pixCap)
    (hfit : s.framedBits ≤ 3 * s.pixels) :
    State.CommandFramed .embed s ((((s.accept 2).setCap true).toRun.embedWalk s.framedBits).raise .ok) := by
  refine State.SameOperands.commandFramed_embed
    (State.sameOperands_embedWalk ((s.accept 2).setCap true).toRun s.framedBits) (by simp) (by simp) hfit
    (fun a ha => ?_) rfl
  exact (State.readByte_walk_accept hw hN hfit (le_refl _) a).trans (if_neg (Nat.not_lt.2 ha))

/-- The new `MSG_LEN` of an EXTRACT that stops at chunk `e` of the whole ones fits its register. -/
theorem State.matchedAt_msgLen_toNat {s : State} (t : State) {e : Nat} (he : e < s.wholeChunks) :
    (t.matchedAt e).msgLen.toNat = e - 3 := by
  have he32 : e < 3 * s.pixelCount.toNat / 8 := he
  exact (BitVec.toNat_ofNat _ _).trans (Nat.mod_eq_of_lt (by omega))

/-- An EXTRACT that stops at chunk `e` writes MSG below `e + 1`. -/
theorem State.commandFramed_matchedAt {s : State} (hm : s.msg.wf) (hN : s.pixels ≤ s.cfg.pixCap) {e : Nat}
    (he : e < s.wholeChunks) (h3 : 3 ≤ e) :
    State.CommandFramed .extract s (((s.accept 3).toRun.appendChunks (e + 1)).matchedAt e) := by
  refine State.SameOperands.commandFramed_extract (n := e + 1)
    (State.sameOperands_appendChunks (s.accept 3).toRun (e + 1)) (by simp [State.matchedAt]) (fun a ha => ?_) he
    (fun _ => ?_) (by simp [State.matchedAt])
  · rw [State.readByte_matchedAt, State.readByte_chunks_accept hm hN he, if_neg (Nat.not_lt.2 ha)]
  · rw [State.matchedAt_msgLen_toNat _ he]
    omega

/-- An EXTRACT that finds no terminator writes MSG below `C`. -/
theorem State.commandFramed_exhausted {s : State} (hm : s.msg.wf) (hN : s.pixels ≤ s.cfg.pixCap) :
    State.CommandFramed .extract s ((s.accept 3).toRun.appendChunks s.wholeChunks).exhausted := by
  refine State.SameOperands.commandFramed_extract (n := s.wholeChunks)
    (State.sameOperands_appendChunks (s.accept 3).toRun s.wholeChunks) (by simp [State.exhausted])
    (fun a ha => ?_) (le_refl _) (by simp [State.exhausted]) (by simp [State.exhausted])
  rw [State.readByte_exhausted, State.readByte_chunks_accept (n := s.wholeChunks) hm hN (le_refl _),
    if_neg (Nat.not_lt.2 ha)]

/-- Acceptance and the end of a command touch no operand. -/
theorem State.untouched_accept_raise (s : State) (o : BitVec 4) (r : ResultCode) :
    s.Untouched ((s.accept o).raise r) :=
  ⟨s.sameOperands_accept o, rfl, rfl, rfl⟩

/-- Every command an idle block runs whole keeps its frame. -/
theorem State.commandFramed_commandResult {s : State} (hm : s.msg.wf) (hw : s.pix.wf) (i : Instr) :
    State.CommandFramed i s (s.commandResult i) := by
  cases i with
  | chkcap =>
    have huntouched : s.Untouched (s.accept 1).reportCapacity := s.untouched_accept_raise 1 .ok
    exact huntouched.commandFramed _
  | embed =>
    rw [State.commandResult]
    rcases (s.accept 2).embedResult_cases with ⟨_, h⟩ | ⟨_, _, h⟩ | ⟨hN, hfit, h⟩ <;> rw [h]
    · exact (s.untouched_accept_raise 2 .badConfig).commandFramed _
    · exact (s.untouched_accept_raise 2 .capacityError).commandFramed _
    · exact State.commandFramed_walk hw hN hfit
  | extract =>
    rw [State.commandResult]
    rcases State.extractResult_cases (s := s.accept 3) hm with ⟨_, h⟩ | ⟨hN, e, he, ⟨h3, _⟩, _, h⟩ | ⟨hN, _, h⟩ <;>
      rw [h]
    · exact (s.untouched_accept_raise 3 .badConfig).commandFramed _
    · exact State.commandFramed_matchedAt hm hN he h3
    · exact State.commandFramed_exhausted hm hN

/-! ## ENGINE steps -/

/-- The channel at the cursor, below `3 * PIXEL_COUNT`, is the one byte a step of EMBED's walk writes. -/
theorem State.stepFramed_embedChannel {s : State} (hw : s.pix.wf) (hk : s.k.toNat < 3 * s.pixels) :
    State.StepFramed .embed s (s.embedChannel s.k.toNat) := by
  have hread (a : Nat) (ha : a ≠ s.k.toNat) :
      (s.embedChannel s.k.toNat).readByte .pix a = s.readByte .pix a :=
    (State.readByte_embedChannel hw _ a).trans (if_neg fun h => ha h.1)
  have hsame := s.sameOperands_embedChannel s.k.toNat
  have hmsg : (s.embedChannel s.k.toNat).msg = s.msg := by rw [State.embedChannel_eq]
  have hlen : (s.embedChannel s.k.toNat).msgLen = s.msgLen := by rw [State.embedChannel_eq]
  exact ⟨hsame.framed_embed hlen hmsg fun a ha => hread a (Nat.ne_of_gt (Nat.lt_of_lt_of_le hk ha)), hread,
    fun a _ => hsame.readByte_eq (sp := .msg) hmsg a⟩

/-- A complete chunk is stored at its own number; nothing else of MSG changes (42_extract.md R133). -/
theorem State.readByte_completeChunk_of_ne {s : State} (hm : s.msg.wf) {j a : Nat} (ha : a ≠ j) :
    (s.completeChunk j).readByte .msg a = s.readByte .msg a := by
  have hwrite : (s.writeByte .msg j s.sh).readByte .msg a = s.readByte .msg a :=
    (State.readByte_writeByte (sp := .msg) hm j a s.sh).trans (if_neg fun h => ha h.1)
  unfold State.completeChunk
  dsimp only
  split <;> simpa using hwrite

/-- Storing a chunk leaves PIX. -/
@[simp] theorem State.completeChunk_pix (s : State) (j : Nat) : (s.completeChunk j).pix = s.pix := by
  unfold State.completeChunk
  dsimp only
  split <;> simp [State.matchedAt]

/-- The byte at `K div 8` is the one byte of MSG the eighth channel of a chunk writes. -/
theorem State.stepFramed_completeChunk {s : State} (hm : s.msg.wf) :
    State.StepFramed .extract s (s.collect.completeChunk (s.k.toNat / 8)) := by
  have hsame := s.sameOperands_collect.trans (s.collect.sameOperands_completeChunk (s.k.toNat / 8))
  have hpix : (s.collect.completeChunk (s.k.toNat / 8)).pix = s.pix := State.completeChunk_pix _ _
  exact ⟨hsame.framed_extract hpix, fun a _ => hsame.readByte_eq (sp := .pix) hpix a,
    fun a ha => State.readByte_completeChunk_of_ne (s := s.collect) hm ha⟩

/-- The step that reports exhaustion clears `MSG_LEN` and leaves both memories. -/
theorem State.stepFramed_exhausted (s : State) : State.StepFramed .extract s s.exhausted :=
  ⟨s.sameOperands_exhausted.framed_extract rfl, fun a _ => s.readByte_exhausted a .pix,
    fun a _ => s.readByte_exhausted a .msg⟩

/-- An ENGINE step of EMBED keeps its frame. -/
theorem stepFramed_embedEngineStep {s : State} (h : s.Inv) (hb : s.busy = true) (ho : s.op = 2) :
    State.StepFramed .embed s (embedEngineStep s) := by
  obtain ⟨_, ⟨_, _, hw, _⟩, _, _, _, hrun, _⟩ := h
  have hchannel (hp : s.phase = .run) : State.StepFramed .embed s (s.embedChannel s.k.toNat) := by
    obtain ⟨_, hfit, hk, _⟩ := hrun hb ho hp
    exact State.stepFramed_embedChannel hw (Nat.lt_of_lt_of_le hk hfit)
  rcases embedEngineStep_cases s with ⟨_, _, he⟩ | ⟨_, _, _, he⟩ | ⟨_, _, _, he⟩ | ⟨hp, _, he⟩ | ⟨hp, _, he⟩ <;>
    rw [he]
  · exact State.Untouched.stepFramed ⟨s.sameOperands_raise _, rfl, rfl, rfl⟩ _
  · exact State.Untouched.stepFramed ⟨s.sameOperands_raise _, rfl, rfl, rfl⟩ _
  · exact State.Untouched.stepFramed ⟨.refl s, rfl, rfl, rfl⟩ _
  · exact hchannel hp
  · exact hchannel hp

/-- An ENGINE step of EXTRACT keeps its frame. -/
theorem stepFramed_extractEngineStep {s : State} (hm : s.msg.wf) :
    State.StepFramed .extract s (extractEngineStep s) := by
  rcases extractEngineStep_cases s with ⟨_, _, he⟩ | ⟨_, _, he⟩ | ⟨_, _, he⟩ | ⟨_, _, _, he⟩ | ⟨_, _, _, he⟩ <;>
    rw [he]
  · exact State.Untouched.stepFramed ⟨s.sameOperands_raise _, rfl, rfl, rfl⟩ _
  · exact State.Untouched.stepFramed ⟨.refl s, rfl, rfl, rfl⟩ _
  · exact s.stepFramed_exhausted
  · exact State.stepFramed_completeChunk hm
  · exact State.Untouched.stepFramed ⟨s.sameOperands_collect, rfl, rfl, rfl⟩ _

/-- An ENGINE step keeps the frame of the running command. -/
theorem State.stepFramed_engineStep {s : State} (h : s.Inv) {i : Instr} (hb : s.busy = true)
    (ho : s.op = opOf i) : State.StepFramed i s s.engineStep := by
  cases i with
  | chkcap =>
    rw [State.engineStep_chkcap hb ho]
    exact State.Untouched.stepFramed ⟨s.sameOperands_raise .ok, rfl, rfl, rfl⟩ _
  | embed => rw [State.engineStep_embed hb ho]; exact stepFramed_embedEngineStep h hb ho
  | extract =>
    obtain ⟨_, ⟨hm, _⟩, _⟩ := h
    rw [State.engineStep_extract hb ho]; exact stepFramed_extractEngineStep hm

/-- What `exec` answers keeps the frame of its command: a busy block stays as it is. -/
theorem exec_commandFramed {s : State} (hm : s.msg.wf) (hw : s.pix.wf) (i : Instr) :
    ∃ t, exec i s = .next t ∧ State.CommandFramed i s t := by
  refine ⟨_, exec_eq i s, ?_⟩
  split
  · exact State.Untouched.commandFramed ⟨.refl s, rfl, rfl, rfl⟩ i
  · exact State.commandFramed_commandResult hm hw i

/-- Settles O46: the frame of the whole command, and of each of its ENGINE steps. -/
theorem commandsWriteOnlyTheirLocations : Obligations.CommandsWriteOnlyTheirLocations := by
  intro i s h
  have ⟨_, ⟨hm, _, hw, _⟩, _⟩ := h
  obtain ⟨t, hexec, hframed, hbits, hchunks, hend, hok, hconfig⟩ := exec_commandFramed hm hw i
  exact ⟨⟨t, hexec, hframed, hbits, hchunks, fun _ => hend, fun _ => hok, fun _ => hconfig⟩,
    State.stepFramed_engineStep h⟩

end Sys2Proof.Machine
end

section
/-! O1, O2, O3: the decoder accepts a word exactly when the encoder makes it, and rejects the others by name
(30_encoding.md R70 to R74). -/

namespace Sys2Proof

/-- What `Laws.CommandWord` says of each command, for all of them. -/
theorem commandWord (i : Instr) : Laws.CommandWord.Statement i := by
  cases i with
  | chkcap => exact Laws.CommandWord.chkcap
  | embed => exact Laws.CommandWord.embed
  | extract => exact Laws.CommandWord.extract

/-- The decoder of command words is the encoder's inverse. -/
theorem decode_eq_ok_iff_eq_encode (w : Word) (i : Instr) : decode w = .ok i ↔ w = encode i := by
  rw [decode_eq_ok_iff, ofOp_eq_some_iff]
  constructor
  · rintro ⟨hrsvd, hop⟩
    rw [← rsvd_append_op w, hrsvd, hop, encode]
  · rintro rfl
    obtain ⟨-, hrsvd, hop, -⟩ := commandWord i
    exact ⟨hrsvd, hop⟩

/-- Decoding what was encoded. -/
theorem decode_encode (i : Instr) : decode (encode i) = .ok i :=
  (decode_eq_ok_iff_eq_encode _ i).2 rfl

/-- The encoder makes three words. -/
theorem exists_eq_encode_iff (w : Word) : (∃ i, w = encode i) ↔ w = 1#32 ∨ w = 2#32 ∨ w = 3#32 := by
  constructor
  · rintro ⟨i, rfl⟩
    cases i with
    | chkcap => exact .inl rfl
    | embed => exact .inr (.inl rfl)
    | extract => exact .inr (.inr rfl)
  · rintro (h | h | h)
    · exact ⟨.chkcap, h⟩
    · exact ⟨.embed, h⟩
    · exact ⟨.extract, h⟩

/-- A word whose `RSVD` is not 0 is rejected for that, whatever its `OP` (30_encoding.md R73). -/
theorem decode_of_reservedBits {w : Word} (h : rsvdField w ≠ 0) : decode w = .error .reservedBits := by
  rw [decode, if_pos h]

/-- With `RSVD` 0 a word is rejected for an `OP` outside the opcode map (30_encoding.md R73). -/
theorem decode_of_illegalOp {w : Word} (hrsvd : rsvdField w = 0) (hop : ofOp (opField w) = none) :
    decode w = .error (.illegalOp (opField w)) := by
  rw [decode, if_neg (not_not_intro hrsvd), hop]

/-- The decoder of the opcode table's words takes the number's low 32 bits as a command word. -/
theorem decodeTableWord_eq_some_iff (n : Nat) (i : Instr) :
    decodeTableWord 32 n = some i ↔ decode (BitVec.ofNat 32 (n % 2 ^ 32)) = .ok i := by
  have hlt : n % 2 ^ 32 < 2 ^ 32 := Nat.mod_lt _ (by decide)
  rw [decodeTableWord, if_pos hlt]
  cases decode (BitVec.ofNat 32 (n % 2 ^ 32)) <;> simp

/-- Settles O1: the legal words are the encoder's, which are 1, 2 and 3. -/
theorem legalCommandWordsAreOneTwoThree : Obligations.LegalCommandWordsAreOneTwoThree := by
  have hlegal (w : Word) : (∃ i, decode w = .ok i) ↔ w = 1#32 ∨ w = 2#32 ∨ w = 3#32 := by
    simp only [decode_eq_ok_iff_eq_encode, exists_eq_encode_iff]
  have hmatch (w : Word) (i : Instr) : decode w = .ok i ↔ w &&& 0xFFFFFFFF#32 = encode i := by
    rw [decode_eq_ok_iff_eq_encode, show w &&& 0xFFFFFFFF#32 = w from BitVec.and_allOnes]
  refine ⟨fun w => (hlegal w).trans ?_, hlegal, fun w => hmatch w .chkcap, fun w => hmatch w .embed,
    fun w => hmatch w .extract⟩
  simp only [← BitVec.toNat_inj, BitVec.toNat_ofNat]
  omega

/-- Settles O2, from the decoder as the encoder's inverse. -/
theorem encodeAndDecodeAgree : Obligations.EncodeAndDecodeAgree := by
  refine ⟨fun i _ => decode_encode i, fun w i h => ((decode_eq_ok_iff_eq_encode w i).1 h).symm, fun n i => ?_⟩
  rw [decodeTableWord_eq_some_iff, decode_eq_ok_iff_eq_encode, ← BitVec.toNat_inj, BitVec.toNat_ofNat,
    Nat.mod_mod]

/-- Settles O3: the legal words are encodings, and each other word is rejected for the field that is wrong. -/
theorem sampleWordsDecode : Obligations.SampleWordsDecode :=
  ⟨decode_encode .chkcap, decode_encode .embed, decode_encode .extract, decode_of_illegalOp rfl rfl,
    decode_of_illegalOp rfl rfl, decode_of_illegalOp rfl rfl, decode_of_reservedBits (by decide),
    decode_of_reservedBits (by decide)⟩

end Sys2Proof
end

section
/-! O47: the load lines are byte writes from address 0, and for MSG the write of `MSG_LEN` (30_encoding.md R77). -/

namespace Sys2Proof.Machine

/-- A load of PIX changes nothing but PIX. -/
theorem State.storeAt_pix_eq (s : State) (a : Nat) (l : List Byte) :
    s.storeAt .pix a l = { s with pix := (s.storeAt .pix a l).pix } := by
  have hmsg : (s.storeAt .pix a l).msg = s.msg := State.mem_storeAt_of_ne (sq := .msg) (by decide) a l
  rw [State.storeAt_eq, hmsg]

/-- A load of MSG changes nothing but MSG. -/
theorem State.storeAt_msg_eq (s : State) (a : Nat) (l : List Byte) :
    s.storeAt .msg a l = { s with msg := (s.storeAt .msg a l).msg } := by
  have hpix : (s.storeAt .msg a l).pix = s.pix := State.mem_storeAt_of_ne (sq := .pix) (by decide) a l
  rw [State.storeAt_eq, hpix]

/-- What a load from address 0 leaves at a location that exists: its byte there, or beyond its bytes the old one. -/
theorem State.readByte_storeAt_zero {s : State} {sp : MemSpace} (hm : (s.mem sp).wf) (l : List Byte) {a : Nat}
    (ha : a < memSize s.cfg sp) : (s.storeAt sp 0 l).readByte sp a = l.getD a (s.readByte sp a) := by
  rw [State.readByte_storeAt hm, if_pos ⟨Nat.zero_le a, ha⟩, Nat.sub_zero]

/-- A write of `MSG_LEN` to an idle block (43_host_access.md R151). -/
theorem State.writeReg_msgLen {s : State} (hb : s.busy = false) (v : Word) :
    s.writeReg 3 v = { s with msgLen := v } :=
  State.whenIdle_of_idle hb _

/-- The host steps of `ldpix`, in a run of the machine. -/
theorem core_run_ldpix {s : State} {rest : List Input} {bytes : List Byte} (hb : s.busy = false)
    (hi : s.inputs = storeBytes .pix 0 bytes ++ rest) :
    Host.Core.run Sys2Proof.core bytes.length s = .next ((s.storeAt .pix 0 bytes).setInputs rest) :=
  (core_run_storeBytes hb hi 0).trans (core_run_zero _)

/-- The host steps that load MSG with `codes` and write their number to `MSG_LEN`. -/
theorem core_run_loadMsg {s : State} {rest : List Input} {codes : List Byte} {n : Word} (hb : s.busy = false)
    (hi : s.inputs = storeBytes .msg 0 codes ++ [.writeReg 3 n] ++ rest) :
    Host.Core.run Sys2Proof.core (codes.length + 1) s
      = .next { (s.storeAt .msg 0 codes).setInputs rest with msgLen := n } := by
  have hidle : (s.storeAt .msg 0 codes).busy = false := by rw [State.storeAt_eq]; exact hb
  have hstep : step ((s.storeAt .msg 0 codes).setInputs (.writeReg 3 n :: rest))
      = .next { (s.storeAt .msg 0 codes).setInputs rest with msgLen := n } := by
    rw [step_cons rfl, State.consume_eq]
    exact congrArg _ (State.writeReg_msgLen (s := (s.storeAt .msg 0 codes).setInputs rest) hidle n)
  rw [core_run_storeBytes hb (by simpa using hi) 1, core_run_succ 0 hstep, core_run_zero]

/-- The two lines that load MSG, said once: they leave `codes` in MSG and their number in `MSG_LEN`. -/
theorem exists_core_run_loadMsg {s : State} {rest : List Input} {codes : List Byte} {n : Word}
    (hb : s.busy = false) (hm : s.msg.wf) (hi : s.inputs = storeBytes .msg 0 codes ++ [.writeReg 3 n] ++ rest) :
    ∃ t : State, Host.Core.run Sys2Proof.core (codes.length + 1) s = .next t
      ∧ t = { s with inputs := rest, msg := t.msg, msgLen := n }
      ∧ ∀ a < memSize s.cfg .msg, t.readByte .msg a = codes.getD a (s.readByte .msg a) := by
  refine ⟨_, core_run_loadMsg hb hi, ?_, fun a ha => ?_⟩
  · rw [State.storeAt_msg_eq]; rfl
  · rw [← State.readByte_storeAt_zero (sp := .msg) hm codes ha]
    exact State.readByte_congr rfl rfl rfl a

/-- Settles O47, line by line: `ldmsg` loads the codes of its characters as `ldmsgb` loads its bytes. -/
theorem loadLinesStoreTheirBytes : Obligations.LoadLinesStoreTheirBytes := by
  rintro s rest hb ⟨hmsg, -, hpix, -⟩
  refine ⟨fun bytes _ hi => ?ldpix, fun bytes _ hi => exists_core_run_loadMsg hb hmsg hi, fun text _ hi => ?ldmsg⟩
  case ldpix =>
    refine ⟨_, core_run_ldpix hb hi, ?_, fun a ha => ?_⟩
    · rw [State.storeAt_pix_eq]; rfl
    · rw [State.readByte_setInputs]
      exact State.readByte_storeAt_zero (sp := .pix) hpix bytes ha
  case ldmsg =>
    have hload := exists_core_run_loadMsg hb hmsg hi
    rwa [List.length_map] at hload

end Sys2Proof.Machine
end

section
/-! O49: an `expect` line states the value a host read would return (30_encoding.md R77; log 16). -/

namespace Sys2Proof.Machine

/-- Right of the word just read is the value the read returned, and no other. -/
theorem State.meets_lastWord_output (s : State) (x v : Word) :
    (s.output (.word x)).meets (.lastWord v) = (x == v) := by
  simp [State.meets]

/-- The same of the byte just read. -/
theorem State.meets_lastByte_output (s : State) (x v : Byte) :
    (s.output (.byte x)).meets (.lastByte v) = (x == v) := by
  simp [State.meets]

/-- A read of a register does not depend on what the outside does next. -/
@[simp] theorem State.readReg_setInputs (s : State) (l : List Input) (i : Nat) :
    (s.setInputs l).readReg i = s.readReg i := rfl

/-- A host read of a register. -/
theorem step_readReg {s : State} {i : Nat} {rest : List Input} (h : s.inputs = .readReg i :: rest) :
    step s = .next ((s.setInputs rest).output (.word (s.readReg i))) := by
  rw [step_cons h]; rfl

/-- A host read of a byte. -/
theorem step_readMem {s : State} {sp : MemSpace} {a : Nat} {rest : List Input}
    (h : s.inputs = .readMem sp a :: rest) :
    step s = .next ((s.setInputs rest).output (.byte (s.readByte sp a))) := by
  rw [step_cons h, ← s.readByte_setInputs rest]; rfl

/-- Settles O49: an `expect` line has no steps to run; a read of a register and one of a byte return the value
that `State.meets` compares. -/
theorem expectLinesStateWhatReadsReturn : Obligations.ExpectLinesStateWhatReadsReturn := by
  intro s
  refine ⟨fun e => ⟨rfl, fun hi => ?noStep⟩, fun i v rest hi => ?readReg, fun sp a v rest hi => ?readMem⟩
  case noStep =>
    have hline : s.runLine (.expect e) = s.setInputs [] := State.drain_of_nil rfl _
    rw [hline, ← hi]; rfl
  case readReg =>
    refine ⟨_, step_readReg hi, State.meets_lastWord_output _ _ v, ?_⟩
    simp [State.meets]
  case readMem =>
    refine ⟨_, step_readMem hi, State.meets_lastByte_output _ _ v, ?_⟩
    simp [State.meets]

end Sys2Proof.Machine
end

section
/-! O50: the steps a running command has left are bounded (70_reset_and_hazards.md R204), so a `wait` ends; every
other line is as many steps as host steps. -/

namespace Sys2Proof.Machine

/-! ## The end of a running command -/

/-- A bound on the ENGINE steps a running command has left, from its phase and the cursor: one to leave START, one
for each channel PIX can hold, and one to report exhaustion (70_reset_and_hazards.md R204). -/
def State.stepsLeft (s : State) : Nat :=
  if s.busy then
    match s.phase with
    | .start => 2 + 3 * s.cfg.pixCap
    | .run => 1 + 3 * s.cfg.pixCap - s.k.toNat
  else 0

theorem State.stepsLeft_idle {s : State} (hb : s.busy = false) : s.stepsLeft = 0 := by
  simp [State.stepsLeft, hb]

theorem State.stepsLeft_start {s : State} (hb : s.busy = true) (hp : s.phase = .start) :
    s.stepsLeft = 2 + 3 * s.cfg.pixCap := by
  simp [State.stepsLeft, hb, hp]

theorem State.stepsLeft_run {s : State} (hb : s.busy = true) (hp : s.phase = .run) :
    s.stepsLeft = 1 + 3 * s.cfg.pixCap - s.k.toNat := by
  simp [State.stepsLeft, hb, hp]

theorem State.stepsLeft_le (s : State) : s.stepsLeft ≤ 2 + 3 * s.cfg.pixCap := by
  unfold State.stepsLeft
  split
  · split <;> omega
  · exact Nat.zero_le _

/-- While a command goes on, `t` is further than `s`: it has left START, and in the walk or the scan the cursor has
moved on by one. -/
def State.Advances (s t : State) : Prop :=
  t.busy = true → t.phase = .run ∧ (s.phase = .run → t.k = s.k + 1)

/-- The step that ends a command has nothing more to do. -/
theorem State.advances_of_idle {s t : State} (h : t.busy = false) : s.Advances t :=
  fun hb => absurd hb (by simp [h])

/-- Storing a chunk moves neither the phase nor the cursor. -/
@[simp] theorem State.completeChunk_phase (s : State) (j : Nat) : (s.completeChunk j).phase = s.phase := by
  unfold State.completeChunk
  dsimp only
  split <;> simp [State.matchedAt]

@[simp] theorem State.completeChunk_k (s : State) (j : Nat) : (s.completeChunk j).k = s.k := by
  unfold State.completeChunk
  dsimp only
  split <;> simp [State.matchedAt]

/-- An ENGINE step of EMBED ends the command or brings it further. -/
theorem advances_embedEngineStep (s : State) : s.Advances (embedEngineStep s) := by
  rcases embedEngineStep_cases s with ⟨_, _, he⟩ | ⟨_, _, _, he⟩ | ⟨hp, _, _, he⟩ | ⟨_, _, he⟩ | ⟨hp, _, he⟩ <;>
    rw [he]
  · exact State.advances_of_idle rfl
  · exact State.advances_of_idle rfl
  · exact fun _ => ⟨rfl, fun hrun => absurd (hp.symm.trans hrun) (by decide)⟩
  · exact State.advances_of_idle rfl
  · rw [State.embedChannel_eq]
    exact fun _ => ⟨hp, fun _ => rfl⟩

/-- So does an ENGINE step of EXTRACT. -/
theorem advances_extractEngineStep (s : State) : s.Advances (extractEngineStep s) := by
  rcases extractEngineStep_cases s with ⟨_, _, he⟩ | ⟨hp, _, he⟩ | ⟨_, _, he⟩ | ⟨hp, _, _, he⟩ | ⟨hp, _, _, he⟩ <;>
    rw [he]
  · exact State.advances_of_idle rfl
  · exact fun _ => ⟨rfl, fun hrun => absurd (hp.symm.trans hrun) (by decide)⟩
  · exact State.advances_of_idle rfl
  · exact fun _ => ⟨(State.completeChunk_phase _ _).trans hp, fun _ => State.completeChunk_k _ _⟩
  · exact fun _ => ⟨hp, fun _ => rfl⟩

/-- And so does the ENGINE step of whichever command is running. -/
theorem State.advances_engineStep {s : State} (h : s.StatusOk) (hb : s.busy = true) :
    s.Advances s.engineStep := by
  obtain ⟨hbusy, -⟩ := h
  obtain ⟨-, ho | ho | ho, -⟩ := hbusy hb
  · rw [State.engineStep_chkcap hb ho]; exact State.advances_of_idle rfl
  · rw [State.engineStep_embed hb ho]; exact advances_embedEngineStep s
  · rw [State.engineStep_extract hb ho]; exact advances_extractEngineStep s

/-- A running command has a step left: its cursor is within PIX. -/
theorem State.stepsLeft_pos {s : State} (h : s.RangesOk) (hb : s.busy = true) : 0 < s.stepsLeft := by
  obtain ⟨hk, -⟩ := h
  cases hp : s.phase with
  | start => rw [State.stepsLeft_start hb hp]; omega
  | run => rw [State.stepsLeft_run hb hp]; omega

/-- Every ENGINE step of a running command uses one of the steps left. -/
theorem State.stepsLeft_engineStep_lt {s : State} (h : s.Inv) (hb : s.busy = true) :
    s.engineStep.stepsLeft < s.stepsLeft := by
  have ⟨hcfg, _, hstatus, hranges, _⟩ := h
  cases hb' : s.engineStep.busy with
  | false => rw [State.stepsLeft_idle hb']; exact State.stepsLeft_pos hranges hb
  | true =>
    obtain ⟨hp', hcursor⟩ := State.advances_engineStep hstatus hb hb'
    have hcap : s.engineStep.cfg = s.cfg := s.sameOperands_engineStep.1
    rw [State.stepsLeft_run hb' hp', hcap]
    cases hp : s.phase with
    | start => rw [State.stepsLeft_start hb hp]; omega
    | run =>
      obtain ⟨hk, -⟩ := hranges
      have hwrap : (s.k + 1).toNat = s.k.toNat + 1 :=
        BitVec.toNat_add_of_lt (by have := hcfg.2; simp; omega)
      rw [State.stepsLeft_run hb hp, hcursor hp, hwrap]
      omega

/-- As many ENGINE steps as are left end the command. -/
theorem State.engineRun_busy_of_stepsLeft_le {s : State} (h : s.Inv) {n : Nat} (hn : s.stepsLeft ≤ n) :
    (State.engineRun n s).busy = false := by
  induction n generalizing s with
  | zero =>
    have ⟨_, _, _, hranges, _⟩ := h
    by_contra hb
    have hpos := State.stepsLeft_pos hranges (by simpa using hb)
    omega
  | succ n ih =>
    cases hb : s.busy with
    | false => rw [State.engineRun_idle hb]; exact hb
    | true =>
      have hlt := State.stepsLeft_engineStep_lt h hb
      exact ih (State.inv_engineStep h) (by omega)

/-! ## Lines -/

/-- Draining keeps the invariant, as every step does. -/
theorem State.inv_drain {s : State} (h : s.Inv) (n : Nat) : (State.drain n s).Inv := by
  induction n generalizing s with
  | zero => exact h
  | succ n ih =>
    cases hi : s.inputs with
    | nil => rw [State.drain_of_nil hi]; exact h
    | cons i rest =>
      rw [State.drain_cons hi]
      exact ih (State.inv_afterInput (State.inv_setInputs h rest) i)

/-- The steps of a line that is no `wait` are its host steps. -/
theorem State.runLine_inputs_of_ne_wait (s : State) {line : HostLine} (h : line ≠ .wait) :
    (s.runLine line).inputs = [] :=
  State.drain_inputs_of_no_wait (wait_notMem_expandLine h) (Nat.le_add_right _ _)

/-- The line `wait` is over when the command is. -/
theorem State.runLine_wait_ends {s : State} (h : s.Inv) :
    (s.runLine .wait).inputs = [] ∧ (s.runLine .wait).busy = false := by
  have hend := State.engineRun_busy_of_stepsLeft_le h s.stepsLeft_le
  obtain ⟨o, ho⟩ := State.runLine_wait rfl hend (le_refl _)
  rw [ho]
  exact ⟨rfl, hend⟩

/-- Settles O50: a `wait` by the end of the command, every other line by the number of its host steps. -/
theorem scriptLinesRunToTheirEnd : Obligations.ScriptLinesRunToTheirEnd := by
  intro s line h
  have hinv : (s.runLine line).Inv := State.inv_drain (State.inv_setInputs h _) _
  by_cases hw : line = .wait
  · subst hw
    obtain ⟨hinputs, hidle⟩ := State.runLine_wait_ends h
    exact ⟨hinputs, hinv, fun _ => hidle⟩
  · exact ⟨s.runLine_inputs_of_ne_wait hw, hinv, fun hwait => absurd hwait hw⟩

end Sys2Proof.Machine
end

section
/-! O19, O20: CHKCAP answers the planner's inequality over the natural numbers (40_capacity.md R91), and EMBED decides
its own fit by the same one, so the boundary is exact for both (R96). -/

namespace Sys2Proof.Machine

/-! ## CHKCAP -/

/-- Settles O19: acceptance, then the planner's answer. -/
theorem chkcapReportsTheCapacity : Obligations.ChkcapReportsTheCapacity :=
  ⟨rfl, fun _ hb => execChkcap_idle hb⟩

/-- An idle block's CHKCAP ends `OK` with the planner's answer in `CAP`. -/
theorem exec_chkcap_cap {s : State} (hb : s.busy = false) :
    ∃ t, exec .chkcap s = .next t ∧ t.cap = decide (s.bitCount.toNat ≤ 3 * s.pixelCount.toNat)
      ∧ t.result = .ok := by
  obtain ⟨-, hexec⟩ := chkcapReportsTheCapacity
  exact ⟨_, hexec s hb, rfl, rfl⟩

/-! ## EMBED -/

/-- The walk does not touch `CAP`. -/
@[simp] theorem State.embedWalk_cap (s : State) (n : Nat) : (s.embedWalk n).cap = s.cap := by
  rw [State.embedWalk_eq]

/-- An idle block answers an EMBED whose framed bits exceed its channels with `CAPACITY_ERROR` (41_embed.md R102). -/
theorem exec_embed_capacityError {s : State} (hb : s.busy = false) (hN : s.pixelCount.toNat ≤ s.cfg.pixCap)
    (h : 3 * s.pixelCount.toNat < 8 * (s.msgLen.toNat + 4)) :
    exec .embed s = .next ((s.accept 2).raise .capacityError) := by
  refine (execEmbed_idle hb).trans (congrArg Host.Outcome.next ?_)
  rcases (s.accept 2).embedResult_cases with ⟨hmany, _⟩ | ⟨_, _, hresult⟩ | ⟨_, hfit, _⟩
  · exact absurd hN (Nat.not_le.2 hmany)
  · exact hresult
  · exact absurd hfit (Nat.not_le.2 h)

/-- Settles O20: at equality the inequality of both commands holds, and one bit over it fails. -/
theorem capacityBoundaryIsExact : Obligations.CapacityBoundaryIsExact := by
  intro s hb
  obtain ⟨t, hexec, hcap, hok⟩ := exec_chkcap_cap hb
  refine ⟨fun heq => ⟨t, hexec, ?_, hok⟩, fun hover => ⟨t, hexec, ?_, hok⟩, fun hN heq => ?_, fun hN hover => ?_⟩
  · exact hcap.trans (decide_eq_true heq.le)
  · exact hcap.trans (decide_eq_false (by omega))
  · exact ⟨_, exec_embed_walk hb hN heq.le, by simp, rfl⟩
  · exact ⟨_, exec_embed_capacityError hb hN (by omega), rfl, rfl⟩

end Sys2Proof.Machine
end

section
/-! O21, O22: the checks of EMBED, made before any write but to `STATUS` (41_embed.md R102, R108;
60_exceptions.md R178). -/

namespace Sys2Proof.Machine

/-- An idle block answers an EMBED of more pixels than PIX holds with `BAD_CONFIG` (41_embed.md R108). -/
theorem exec_embed_badConfig {s : State} (hb : s.busy = false) (hN : s.cfg.pixCap < s.pixelCount.toNat) :
    exec .embed s = .next ((s.accept 2).raise .badConfig) := by
  refine (execEmbed_idle hb).trans (congrArg Host.Outcome.next ?_)
  rcases (s.accept 2).embedResult_cases with ⟨_, hresult⟩ | ⟨hfew, _⟩ | ⟨hfew, _⟩
  · exact hresult
  all_goals exact absurd hN (Nat.not_lt.2 hfew)

/-- Settles O21: acceptance, then `BAD_CONFIG`. -/
theorem embedRefusesTooManyPixels : Obligations.EmbedRefusesTooManyPixels :=
  fun _ hb hN => exec_embed_badConfig hb hN

/-- Settles O22: a shortfall is refused as accepted, a fit is walked to its end. -/
theorem embedChecksCapacityFirst : Obligations.EmbedChecksCapacityFirst := by
  intro s hb hN
  refine ⟨fun hshort => exec_embed_capacityError hb hN hshort, fun hfit => ?_⟩
  exact ⟨_, exec_embed_walk hb hN hfit, by simp, rfl, rfl⟩

end Sys2Proof.Machine
end

section
/-! O23, O24: what a whole EMBED leaves in each byte of PIX: below `B` a substituted channel (41_embed.md R105), and
a substitution moves a channel by its LSB at most (R113). -/

namespace Sys2Proof.Machine

/-- The substituted channel, its bit written as a widened one-bit word (41_embed.md R105). -/
theorem substitute_eq_or_ofBool (old : Byte) (b : Bool) :
    substitute old b = (old &&& 0xFE#8) ||| (BitVec.ofBool b).setWidth 8 := by
  cases b <;> rfl

/-- The value of a substituted channel: the old one with its parity replaced. -/
theorem substitute_toNat (old : Byte) (b : Bool) :
    (substitute old b).toNat = 2 * (old.toNat / 2) + b.toNat := by
  revert old b; decide

/-- Settles O23: the walk's frame, and its bytes. -/
theorem embedWritesTheBitStream : Obligations.EmbedWritesTheBitStream := by
  intro s hb hw hN hfit
  refine ⟨_, exec_embed_walk hb hN hfit, ?_, fun a => ?_⟩
  · rw [State.embedWalk_eq]; rfl
  · rw [State.readByte_raise, State.readByte_walk_accept hw hN hfit (le_refl _), substitute_eq_or_ofBool]
    rfl

/-- Whatever EMBED answers, a busy block too, each channel of PIX is the old one with some bit substituted,
possibly the one it held. -/
theorem exec_embed_readByte_eq_substitute {s t : State} (hw : s.pix.wf) (h : exec .embed s = .next t) (a : Nat) :
    ∃ b, t.readByte .pix a = substitute (s.readByte .pix a) b := by
  have hkept : ∃ b, s.readByte .pix a = substitute (s.readByte .pix a) b := ⟨_, (substitute_self _).symm⟩
  rw [exec_eq] at h
  cases h
  split
  · exact hkept
  · rw [State.commandResult]
    rcases (s.accept 2).embedResult_cases with ⟨_, hr⟩ | ⟨_, _, hr⟩ | ⟨_, _, hr⟩ <;> rw [hr]
    · exact hkept
    · exact hkept
    · rw [State.readByte_raise, State.readByte_embedWalk (s := ((s.accept 2).setCap true).toRun) hw]
      split
      · exact ⟨_, rfl⟩
      · exact hkept

/-- Settles O24: a substitution replaces the parity of a channel and nothing above it. -/
theorem embedPerturbsOnlyLsbs : Obligations.EmbedPerturbsOnlyLsbs := by
  intro s t hw h a
  obtain ⟨b, hb⟩ := exec_embed_readByte_eq_substitute hw h a
  have hvalue := substitute_toNat (s.readByte .pix a) b
  have hbit : b.toNat ≤ 1 := b.toNat_le
  rw [hb]
  exact ⟨substitute_xor _ b, by omega, by omega, by omega, by omega⟩

end Sys2Proof.Machine
end

section
/-! O25: the walk over its own result changes nothing, not even the list PIX is kept as: every channel it visits is
listed and holds its bit of the stream already (41_embed.md R113). -/

namespace Sys2Proof.Machine

/-- Channel `a` is listed in PIX, and bit `a` of the stream is its LSB. -/
def State.Carries (s : State) (a : Nat) : Prop :=
  ∃ v, s.pix.byteAt? a = some v ∧ v.getLsbD 0 = s.streamBit a

/-- It depends on PIX and the stream alone. -/
theorem State.Carries.congr {s t : State} {a : Nat} (h : s.Carries a) (hp : t.pix = s.pix)
    (hb : t.streamBit a = s.streamBit a) : t.Carries a := by
  unfold State.Carries
  rwa [hp, hb]

/-- The stream is computed from MSG, which one channel does not change. -/
@[simp] theorem State.streamBit_embedChannel (s : State) (k a : Nat) :
    (s.embedChannel k).streamBit a = s.streamBit a := by
  rw [State.embedChannel_eq]
  exact State.streamBit_congr rfl (fun b => State.readByte_congr rfl rfl rfl b) a

/-- PIX after one channel that exists, as a list. -/
theorem State.pix_embedChannel {s : State} {k : Nat} (hk : k < memSize s.cfg .pix) :
    (s.embedChannel k).pix = s.pix.store k (substitute (s.readByte .pix k) (s.streamBit k)) :=
  State.mem_writeByte (sp := .pix) hk _

/-- One channel of the walk carries its bit. -/
theorem State.carries_embedChannel_self {s : State} (hw : s.pix.wf) {k : Nat} (hk : k < memSize s.cfg .pix) :
    (s.embedChannel k).Carries k := by
  refine ⟨substitute (s.readByte .pix k) (s.streamBit k), ?_, ?_⟩
  · rw [State.pix_embedChannel hk, Memory.byteAt?_store hw, if_pos rfl]
  · rw [substitute_lsb, State.streamBit_embedChannel]

/-- And leaves the others theirs. -/
theorem State.Carries.embedChannel {s : State} (hw : s.pix.wf) {k a : Nat} (hk : k < memSize s.cfg .pix)
    (ha : a ≠ k) (h : s.Carries a) : (s.embedChannel k).Carries a := by
  obtain ⟨v, hv, hbit⟩ := h
  refine ⟨v, ?_, ?_⟩
  · rw [State.pix_embedChannel hk, Memory.byteAt?_store hw, if_neg ha, hv]
  · rw [hbit, State.streamBit_embedChannel]

/-- After the walk every channel visited carries its bit. -/
theorem State.carries_embedWalk {s : State} (hw : s.pix.wf) {n a : Nat} (hn : n ≤ memSize s.cfg .pix)
    (ha : a < n) : (s.embedWalk n).Carries a := by
  induction n with
  | zero => omega
  | succ n ih =>
    have hwn := State.pix_wf_embedWalk hw n
    have hk : n < memSize (s.embedWalk n).cfg .pix := by rw [State.embedWalk_cfg]; omega
    rw [State.embedWalk_succ]
    by_cases h : a = n
    · subst h; exact State.carries_embedChannel_self hwn hk
    · exact State.Carries.embedChannel hwn hk h (ih (by omega) (by omega))

/-- Writing a channel that carries its bit leaves PIX as it is, as a list too. -/
theorem State.Carries.embedChannel_pix {s : State} (hw : s.pix.wf) {k : Nat} (hk : k < memSize s.cfg .pix)
    (h : s.Carries k) : (s.embedChannel k).pix = s.pix := by
  obtain ⟨v, hv, hbit⟩ := h
  have hread : s.readByte .pix k = v := by simp [State.readByte, hk, State.mem, hv]
  rw [State.pix_embedChannel hk, hread, ← hbit, substitute_self, Memory.store_self hw hv]

/-- So does a walk over such channels. -/
theorem State.embedWalk_pix_of_carries {s : State} (hw : s.pix.wf) {n : Nat} (hn : n ≤ memSize s.cfg .pix)
    (h : ∀ a < n, s.Carries a) : (s.embedWalk n).pix = s.pix := by
  induction n with
  | zero => rfl
  | succ n ih =>
    have hp := ih (by omega) fun a ha => h a (by omega)
    have hk : n < memSize (s.embedWalk n).cfg .pix := by rw [State.embedWalk_cfg]; omega
    have hcarries : (s.embedWalk n).Carries n := (h n (by omega)).congr hp (by simp)
    rw [State.embedWalk_succ, hcarries.embedChannel_pix (State.pix_wf_embedWalk hw n) hk, hp]

/-- The walk from its start again, over the PIX it has left, ends where it ended. -/
theorem State.embedWalk_again {s u : State} (hw : s.pix.wf) {n : Nat} (hn : n ≤ memSize s.cfg .pix)
    (hu : u = { s with pix := (s.embedWalk n).pix }) : u.embedWalk n = s.embedWalk n := by
  have hpix : u.pix = (s.embedWalk n).pix := by rw [hu]
  have hcarries (a : Nat) (ha : a < n) : u.Carries a :=
    (State.carries_embedWalk hw hn ha).congr hpix (by rw [State.streamBit_embedWalk, hu]; rfl)
  have hsame : (u.embedWalk n).pix = u.pix :=
    State.embedWalk_pix_of_carries (by rw [hpix]; exact State.pix_wf_embedWalk hw n) (by rw [hu]; exact hn) hcarries
  calc u.embedWalk n
    _ = { u with pix := (u.embedWalk n).pix, k := u.k + BitVec.ofNat 32 n } := u.embedWalk_eq n
    _ = { s with pix := (s.embedWalk n).pix, k := s.k + BitVec.ofNat 32 n } := by rw [hsame, hu]
    _ = s.embedWalk n := (s.embedWalk_eq n).symm

/-- Acceptance of an EMBED after a successful one, up to its walk: as the first time, but for PIX. -/
theorem State.accept_toRun_after_walk (s : State) (n : Nat) :
    (((((((s.accept 2).setCap true).toRun.embedWalk n).raise .ok).accept 2).setCap true).toRun)
      = { ((s.accept 2).setCap true).toRun with pix := (((s.accept 2).setCap true).toRun.embedWalk n).pix } := by
  rw [State.embedWalk_eq]; rfl

/-- The walk does not touch `PIXEL_COUNT`. -/
@[simp] theorem State.embedWalk_pixelCount (s : State) (n : Nat) : (s.embedWalk n).pixelCount = s.pixelCount := by
  rw [State.embedWalk_eq]

/-- Settles O25: only a walk ends `OK`, and a second EMBED is the same walk over its result. -/
theorem embedTwiceIsEmbedOnce : Obligations.EmbedTwiceIsEmbedOnce := by
  intro s t hb hw h hok
  by_cases hN : s.pixelCount.toNat ≤ s.cfg.pixCap
  · by_cases hfit : 8 * (s.msgLen.toNat + 4) ≤ 3 * s.pixelCount.toNat
    · have hsize : 8 * (s.msgLen.toNat + 4) ≤ memSize s.cfg .pix := by simp only [memSize]; omega
      rw [exec_embed_walk hb hN hfit] at h
      cases h
      rw [exec_embed_walk rfl (by simpa using hN) (by simpa using hfit), State.raise_msgLen, State.embedWalk_msgLen]
      exact congrArg (fun u => Host.Outcome.next (u.raise .ok))
        (State.embedWalk_again (s := ((s.accept 2).setCap true).toRun) hw hsize (s.accept_toRun_after_walk _))
    · rw [exec_embed_capacityError hb hN (Nat.not_le.1 hfit)] at h
      cases h; cases hok
  · rw [exec_embed_badConfig hb (Nat.not_le.1 hN)] at h
    cases h; cases hok

end Sys2Proof.Machine
end

section
/-! O26: the state after each ENGINE step of a successful EMBED is the walk up to the cursor (41_embed.md R111,
R112). -/

namespace Sys2Proof.Machine

/-- After the START step, `n` ENGINE steps short of the last are `n` channels of the walk. -/
theorem State.engineRun_embed_within {s : State} (hc : s.cfg.wf) (hN : s.pixelCount.toNat ≤ s.cfg.pixCap)
    (hfit : 8 * (s.msgLen.toNat + 4) ≤ 3 * s.pixelCount.toNat) {n : Nat} (hn : n < 8 * (s.msgLen.toNat + 4)) :
    State.engineRun (1 + n) (s.accept 2) = ((s.accept 2).setCap true).toRun.embedWalk n := by
  have h32 : 8 * (s.msgLen.toNat + 4) ≤ 2 ^ 32 := by have := hc.2; omega
  rw [State.engineRun_add, State.engineRun_one_embed hN hfit]
  exact State.engineRun_embedWalk (u := ((s.accept 2).setCap true).toRun) rfl rfl rfl rfl h32 hn

/-- Settles O26: the end of the run is the whole walk, and what a shorter one has written it keeps. -/
theorem embedStepsFollowTheWalk : Obligations.EmbedStepsFollowTheWalk := by
  intro s hb hc hw hN hfit
  obtain ⟨hrun, -⟩ := State.engineRun_embed hc hN hfit
  refine ⟨_, exec_embed_walk hb hN hfit, hrun, fun n hn => ⟨_, State.engineRun_embed_within hc hN hfit hn, ?_⟩⟩
  have hread := State.readByte_walk_accept hw hN hfit hn.le
  have hend := State.readByte_walk_accept hw hN hfit (le_refl _)
  refine ⟨?_, ?_, ?_, ?_, by simp, by simp, fun a ha => ?_, fun a ha => ?_⟩
  · rw [State.embedWalk_eq]; rfl
  · rw [State.embedWalk_eq]; rfl
  · have h32 : n < 2 ^ 32 := by have := hc.2; omega
    rw [State.embedWalk_k]
    simpa using Nat.mod_eq_of_lt h32
  · rw [State.embedWalk_eq]; rfl
  · rw [State.readByte_raise, hread, hend, if_pos ha, if_pos (by omega)]
  · rw [hread, if_neg (by omega)]

end Sys2Proof.Machine
end

section
/-! O44: the invariant bounds every address of the walk and of the scan, and both counters (41_embed.md R109;
42_extract.md R131; 10_state.md R28). -/

namespace Sys2Proof.Machine

/-- Settles O44: for the two commands in phase RUN by their own part of the invariant, for the cursor by its range. -/
theorem engineAccessesStayInRange : Obligations.EngineAccessesStayInRange := by
  rintro s ⟨⟨_, hcap⟩, _, _, ⟨hk, _⟩, _, hembed, hextract⟩ hb hp
  refine ⟨fun ho => ?_, fun ho hne => ?_, by omega, fun ho => ?_⟩
  · obtain ⟨hN, hfit, hlt, _⟩ := hembed hb ho hp
    have hB : s.framedBits = 8 * (s.msgLen.toNat + 4) := rfl
    omega
  · obtain ⟨hN, hle, _⟩ := hextract hb ho hp
    have hM : s.chunkBits = 8 * (3 * s.pixels / 8) := rfl
    omega
  · obtain ⟨_, _, _, _, _, hrun, _⟩ := hextract hb ho hp
    omega

end Sys2Proof.Machine
end

section
/-! O27: a chunk is the binary number its collected bits spell, the first one the most significant (42_extract.md
R121, R122). -/

namespace Sys2Proof.Machine

/-- Shifting a collected bit in doubles the value and adds the bit, as long as the eight bits hold it. -/
theorem shiftIn_lsbByte_toNat {ch : Byte} (v : Byte) (h : ch.toNat < 128) :
    (shiftIn ch (lsbByte v)).toNat = 2 * ch.toNat + v.toNat % 2 := by
  have hor : 2 * ch.toNat ||| v.toNat % 2 = 2 * ch.toNat + v.toNat % 2 :=
    (Nat.two_pow_add_eq_or_of_lt (i := 1) (by omega) ch.toNat).symm
  simp only [shiftIn, lsbByte, BitVec.toNat_or, BitVec.toNat_shiftLeft, BitVec.toNat_and, Nat.shiftLeft_eq]
  rw [← hor]
  simp [Nat.mul_comm, Nat.mod_eq_of_lt (show 2 * ch.toNat < 256 by omega)]

/-- The value of the first `n` collected bits, each worth twice as much for every bit collected after it. -/
def collectedValue (f : Nat → Byte) (n : Nat) : Nat :=
  ((List.range n).map fun i => (f i).toNat % 2 * 2 ^ (n - 1 - i)).sum

/-- One more bit doubles the value of those before it. -/
theorem collectedValue_succ (f : Nat → Byte) (n : Nat) :
    collectedValue f (n + 1) = 2 * collectedValue f n + (f n).toNat % 2 := by
  have hdouble : ∀ i ∈ List.range n,
      (f i).toNat % 2 * 2 ^ (n + 1 - 1 - i) = 2 * ((f i).toNat % 2 * 2 ^ (n - 1 - i)) := by
    intro i hi
    rw [show n + 1 - 1 - i = n - 1 - i + 1 by have := List.mem_range.1 hi; omega]
    ring
  simp only [collectedValue, List.range_succ, List.map_append, List.sum_append, List.map_congr_left hdouble,
    List.sum_map_mul_left]
  simp

/-- `n` bits are less than `2 ^ n`. -/
theorem collectedValue_lt (f : Nat → Byte) (n : Nat) : collectedValue f n < 2 ^ n := by
  induction n with
  | zero => simp [collectedValue]
  | succ n ih => rw [collectedValue_succ, Nat.pow_succ]; omega

/-- Up to eight bits shifted into 0 have their value. -/
theorem foldl_shiftIn_toNat (f : Nat → Byte) {n : Nat} (hn : n ≤ 8) :
    ((List.range n).foldl (fun ch i => shiftIn ch (lsbByte (f i))) 0).toNat = collectedValue f n := by
  induction n with
  | zero => rfl
  | succ n ih =>
    have hfit : collectedValue f n < 2 ^ 7 :=
      lt_of_lt_of_le (collectedValue_lt f n) (Nat.pow_le_pow_right (by omega) (by omega))
    have ih := ih (by omega)
    rw [List.range_succ, List.foldl_append, List.foldl_cons, List.foldl_nil, shiftIn_lsbByte_toNat _ (by omega), ih,
      collectedValue_succ]

/-- Settles O27: a chunk is eight such bits. -/
theorem chunkIsMostSignificantBitFirst : Obligations.ChunkIsMostSignificantBitFirst :=
  fun s j => foldl_shiftIn_toNat (fun i => s.readByte .pix (8 * j + i)) (le_refl 8)

end Sys2Proof.Machine
end

section
/-! O28: the configuration check of EXTRACT, made before any read of PIX (42_extract.md R130). -/

namespace Sys2Proof.Machine

/-- Settles O28: acceptance, then `BAD_CONFIG`. -/
theorem extractRefusesTooManyPixels : Obligations.ExtractRefusesTooManyPixels :=
  fun _ hb hN => exec_extract_refused hb hN

end Sys2Proof.Machine
end

section
/-! The first terminator of a sequence of characters, of which the chunks of PIX and the Framed Payload of an EMBED
are two (42_extract.md R124, R125). -/

namespace Sys2Proof.Machine

/-- Four characters 0x23 end at index `e` of `f`. `State.closesAt` is this of the chunks, `State.framedClosesAt` of the
Framed Payload. -/
abbrev TerminatorEnds (f : Nat → Byte) (e : Nat) : Prop := 3 ≤ e ∧ ∀ i < 4, f (e - i) = hashChar

/-- `e` is the least index at which they do. -/
structure FirstTerminator (f : Nat → Byte) (e : Nat) : Prop where
  ends : TerminatorEnds f e
  least : ∀ d < e, ¬ TerminatorEnds f d

/-- Whether a terminator ends at `e` depends on the characters up to `e`. -/
theorem TerminatorEnds.congr {f g : Nat → Byte} {e : Nat} (h : TerminatorEnds f e) (hfg : ∀ j ≤ e, g j = f j) :
    TerminatorEnds g e := by
  obtain ⟨h3, hall⟩ := h
  exact ⟨h3, fun i hi => (hfg _ (Nat.sub_le e i)).trans (hall i hi)⟩

/-- And so does whether it is the first. -/
theorem FirstTerminator.congr {f g : Nat → Byte} {e : Nat} (h : FirstTerminator f e) (hfg : ∀ j ≤ e, g j = f j) :
    FirstTerminator g e :=
  ⟨h.ends.congr hfg, fun d hd hg => h.least d hd (hg.congr fun j hj => (hfg j (by omega)).symm)⟩

/-- There is but one first. -/
theorem FirstTerminator.unique {f : Nat → Byte} {d e : Nat} (hd : FirstTerminator f d) (he : FirstTerminator f e) :
    d = e := by
  rcases Nat.lt_trichotomy d e with h | h | h
  · exact absurd hd.ends (he.least d h)
  · exact h
  · exact absurd he.ends (hd.least e h)

/-- Where a terminator ends, a first one ends there or before. -/
theorem TerminatorEnds.exists_first {f : Nat → Byte} {n : Nat} (h : TerminatorEnds f n) :
    ∃ e ≤ n, FirstTerminator f e := by
  have hex : ∃ e, TerminatorEnds f e := ⟨n, h⟩
  exact ⟨Nat.find hex, Nat.find_min' hex h, Nat.find_spec hex, fun _ hd => Nat.find_min hex hd⟩

end Sys2Proof.Machine
end

section
/-! O29, O30, O31: the two ends of an EXTRACT within the capacity, each an equation of the result level with what it
leaves in every byte of MSG (42_extract.md R125, R126), and that they depend on the pixels alone (R136). -/

namespace Sys2Proof.Machine

@[simp] theorem State.matchedAt_result (s : State) (e : Nat) : (s.matchedAt e).result = .ok := rfl
@[simp] theorem State.matchedAt_msgLen (s : State) (e : Nat) : (s.matchedAt e).msgLen = BitVec.ofNat 32 (e - 3) := rfl
@[simp] theorem State.exhausted_result (s : State) : s.exhausted.result = .notFound := rfl
@[simp] theorem State.exhausted_msgLen (s : State) : s.exhausted.msgLen = 0 := rfl

/-- An EXTRACT ends with the first terminator of its chunks. -/
theorem exec_extract_matched {s : State} (hb : s.busy = false) (hm : s.msg.wf)
    (hN : s.pixelCount.toNat ≤ s.cfg.pixCap) {e : Nat} (he : e < 3 * s.pixelCount.toNat / 8)
    (hfirst : FirstTerminator s.chunk e) :
    exec .extract s = .next (((s.accept 3).toRun.appendChunks (e + 1)).matchedAt e) := by
  rcases exec_extract_cases hb hm hN with ⟨d, _, hcl, hleast, hexec⟩ | ⟨hnone, _⟩
  · rw [hexec, FirstTerminator.unique ⟨hcl, hleast⟩ hfirst]
  · exact absurd hfirst.ends (hnone e he)

/-- Without a terminator it ends in exhaustion. -/
theorem exec_extract_exhausted {s : State} (hb : s.busy = false) (hm : s.msg.wf)
    (hN : s.pixelCount.toNat ≤ s.cfg.pixCap) (hnone : ∀ d < 3 * s.pixelCount.toNat / 8, ¬ s.closesAt d) :
    exec .extract s
      = .next ((s.accept 3).toRun.appendChunks (3 * s.pixelCount.toNat / 8)).exhausted := by
  rcases exec_extract_cases hb hm hN with ⟨d, hd, hcl, _⟩ | ⟨_, hexec⟩
  · exact absurd hcl (hnone d hd)
  · exact hexec

/-- MSG after an EXTRACT that ended at chunk `e`. -/
theorem State.readByte_matchedAt_chunks {s : State} (hm : s.msg.wf) (hN : s.pixelCount.toNat ≤ s.cfg.pixCap)
    {e : Nat} (he : e < 3 * s.pixelCount.toNat / 8) (a : Nat) :
    (((s.accept 3).toRun.appendChunks (e + 1)).matchedAt e).readByte .msg a
      = if a ≤ e then s.chunk a else s.readByte .msg a := by
  rw [State.readByte_matchedAt, State.readByte_chunks_accept hm hN he]
  simp only [Nat.lt_succ_iff]

/-- MSG after an EXTRACT without a terminator. -/
theorem State.readByte_exhausted_chunks {s : State} (hm : s.msg.wf) (hN : s.pixelCount.toNat ≤ s.cfg.pixCap)
    (a : Nat) :
    ((s.accept 3).toRun.appendChunks (3 * s.pixelCount.toNat / 8)).exhausted.readByte .msg a
      = if a < 3 * s.pixelCount.toNat / 8 then s.chunk a else s.readByte .msg a := by
  rw [State.readByte_exhausted, State.readByte_chunks_accept hm hN (le_refl _)]

/-- Settles O29: the state at the match, its frame and its bytes. -/
theorem extractStopsAtTheFirstTerminator : Obligations.ExtractStopsAtTheFirstTerminator := by
  intro s e hb hm hN he h3 hc3 hc2 hc1 hc0 hleast
  have hfirst : FirstTerminator s.chunk e :=
    ⟨(s.closesAt_iff e).2 ⟨h3, hc3, hc2, hc1, hc0⟩, fun d hd hcl => hleast d hd ((s.closesAt_iff d).1 hcl)⟩
  refine ⟨_, exec_extract_matched hb hm hN he hfirst, ?_, State.readByte_matchedAt_chunks hm hN he⟩
  rw [State.appendChunks_eq]; rfl

/-- Settles O30: the state at exhaustion; three chunks are too few for a terminator, and no chunk is no write. -/
theorem extractReportsNotFound : Obligations.ExtractReportsNotFound := by
  refine ⟨fun s hb hm hN hfew => ?_, fun s hb hm hN hnone => ?_⟩
  · have hnone : ∀ d < 3 * s.pixelCount.toNat / 8, ¬ s.closesAt d := fun d hd ⟨h3, _⟩ => by omega
    refine ⟨_, exec_extract_exhausted hb hm hN hnone, rfl, rfl, fun hzero => ?_⟩
    rw [hzero]; rfl
  · have hnone' : ∀ d < 3 * s.pixelCount.toNat / 8, ¬ s.closesAt d :=
      fun d hd hcl => hnone d hd ((s.closesAt_iff d).1 hcl)
    refine ⟨_, exec_extract_exhausted hb hm hN hnone', ?_, State.readByte_exhausted_chunks hm hN⟩
    rw [State.appendChunks_eq]; rfl

/-- A refused EXTRACT leaves the same `STATUS`, whatever the block held. -/
theorem State.statusWord_refused (s s' : State) :
    ((s'.accept 3).raise .badConfig).statusWord = ((s.accept 3).raise .badConfig).statusWord := rfl

/-- So does one that ended at a terminator. -/
theorem State.statusWord_matchedAt_chunks (s s' : State) (n e : Nat) :
    (((s'.accept 3).toRun.appendChunks n).matchedAt e).statusWord
      = (((s.accept 3).toRun.appendChunks n).matchedAt e).statusWord := by
  rw [State.appendChunks_eq, (s.accept 3).toRun.appendChunks_eq]; rfl

/-- And one without. -/
theorem State.statusWord_exhausted_chunks (s s' : State) (n : Nat) :
    ((s'.accept 3).toRun.appendChunks n).exhausted.statusWord
      = ((s.accept 3).toRun.appendChunks n).exhausted.statusWord := by
  rw [State.appendChunks_eq, (s.accept 3).toRun.appendChunks_eq]; rfl

/-- Settles O31: equal pixels are equal chunks, so both runs end alike, for each of the three outcomes. -/
theorem extractDependsOnPixelsAlone : Obligations.ExtractDependsOnPixelsAlone := by
  intro s s' t t' hb hb' hm hm' hcfg hcount hpix h h'
  have hchunk : ∀ j, s'.chunk j = s.chunk j := State.chunk_congr hpix
  by_cases hN : s.pixelCount.toNat ≤ s.cfg.pixCap
  · have hN' : s'.pixelCount.toNat ≤ s'.cfg.pixCap := by rwa [hcount, hcfg]
    rcases exec_extract_cases hb hm hN with ⟨e, he, hcl, hleast, hexec⟩ | ⟨hnone, hexec⟩
    · have he' : e < 3 * s'.pixelCount.toNat / 8 := by rwa [hcount]
      have hexec' := exec_extract_matched hb' hm' hN' he' (FirstTerminator.congr ⟨hcl, hleast⟩ fun j _ => hchunk j)
      cases hexec.symm.trans h
      cases hexec'.symm.trans h'
      refine ⟨by simp, State.statusWord_matchedAt_chunks s s' _ e, fun _ => by simp, fun _ j hj => ?_,
        fun hbad => by simp at hbad⟩
      have hlen := State.matchedAt_msgLen_toNat (s := s) ((s.accept 3).toRun.appendChunks (e + 1)) he
      have hje : j ≤ e := by have h3 := hcl.1; omega
      rw [State.readByte_matchedAt_chunks hm hN he, State.readByte_matchedAt_chunks hm' hN' he', if_pos hje,
        if_pos hje, hchunk]
    · have hexec' := exec_extract_exhausted hb' hm' hN' fun d hd hcl =>
        hnone d (by rwa [hcount] at hd) (TerminatorEnds.congr hcl fun j _ => (hchunk j).symm)
      cases hexec.symm.trans h
      cases hexec'.symm.trans h'
      refine ⟨by simp, ?_, fun _ => by simp, fun hbad => by simp at hbad, fun _ j hj => ?_⟩
      · rw [hcount]; exact State.statusWord_exhausted_chunks s s' _
      · rw [State.readByte_exhausted_chunks hm hN, State.readByte_exhausted_chunks hm' hN', hcount, if_pos hj,
          if_pos hj, hchunk]
  · have hN' : s'.cfg.pixCap < s'.pixelCount.toNat := by rw [hcount, hcfg]; omega
    cases (exec_extract_refused hb (Nat.not_le.1 hN)).symm.trans h
    cases (exec_extract_refused hb' hN').symm.trans h'
    exact ⟨rfl, State.statusWord_refused s s', fun hle => absurd hle hN, fun hbad => (nomatch hbad),
      fun hbad => nomatch hbad⟩

end Sys2Proof.Machine
end

section
/-! O32: while an EXTRACT runs, `n` ENGINE steps after the START step are `n` channels collected, `n` div 8 chunks of
them complete (42_extract.md R133, R134). -/

namespace Sys2Proof.Machine

/-- Before the step that ends the command is the only time the block is busy. -/
theorem State.EndsAfter.lt_of_busy {u t : State} {m n : Nat} (h : u.EndsAfter n t)
    (hbusy : (State.engineRun m u).busy = true) : m < n := by
  obtain ⟨hrun, hend, -⟩ := h
  by_contra hle
  have hn := State.engineRun_busy_of_le hbusy (Nat.not_lt.1 hle)
  rw [hrun, hend] at hn
  cases hn

/-- A busy EXTRACT has passed no terminator and no more than the whole chunks. -/
theorem State.extract_busy_bounds {s : State} (hc : s.cfg.wf) (hb : s.busy = false) (hm : s.msg.wf)
    (hN : s.pixelCount.toNat ≤ s.cfg.pixCap) {n : Nat}
    (hbusy : (State.engineRun (1 + n) (s.accept 3)).busy = true) :
    n ≤ 8 * (3 * s.pixelCount.toNat / 8) ∧ ∀ d < n / 8, ¬ s.closesAt d := by
  rcases exec_extract_cases hb hm hN with ⟨e, he, hcl, hleast, _⟩ | ⟨hnone, _⟩
  · have hlt := (State.endsAfter_extract_matched hc hN he hcl hleast).lt_of_busy hbusy
    exact ⟨by omega, fun d hd => hleast d (by omega)⟩
  · have hlt := (State.endsAfter_extract_exhausted hc hN hnone).lt_of_busy hbusy
    exact ⟨by omega, fun d hd => hnone d (by omega)⟩

/-- No channel of a chunk collected is the state before it. -/
theorem State.collected_zero {t : State} {j : Nat} (hk : t.k = BitVec.ofNat 32 (8 * j)) : t.collected j 0 = t := by
  rw [State.collected, Nat.add_zero, ← hk]; rfl

/-- `n` ENGINE steps after the START step, with no terminator before chunk `n` div 8: its chunks and the channels of
the next one. -/
theorem State.engineRun_extract_channels {s : State} (hc : s.cfg.wf) (hN : s.pixelCount.toNat ≤ s.cfg.pixCap)
    {n : Nat} (hn : n ≤ 8 * (3 * s.pixelCount.toNat / 8)) (hnone : ∀ d < n / 8, ¬ s.closesAt d) :
    State.engineRun (1 + n) (s.accept 3)
      = ((s.accept 3).toRun.appendChunks (n / 8)).collected (n / 8) (n % 8) := by
  by_cases hlast : n / 8 < 3 * s.pixelCount.toNat / 8
  · have hrun := State.engineRun_extract_within hN hc hlast (i := n % 8) (by omega) hnone
    rwa [Nat.div_add_mod] at hrun
  · have hrun := State.engineRun_extract_chunks hN hc (j := n / 8) (by omega) hnone
    rw [show n % 8 = 0 by omega, State.collected_zero (State.appendChunks_k rfl _), ← hrun]
    congr 1
    omega

/-- Collecting channels writes no memory. -/
@[simp] theorem State.readByte_collected (t : State) (j i : Nat) (sp : MemSpace) (a : Nat) :
    (t.collected j i).readByte sp a = t.readByte sp a :=
  State.readByte_congr rfl rfl (by cases sp <;> rfl) a

/-- Nor does it, or a chunk appended before it, write more than MSG and the internal registers. -/
theorem State.collected_appendChunks_eq (s : State) (c j i : Nat) :
    (s.appendChunks c).collected j i = { s with
      msg := (s.appendChunks c).msg, k := BitVec.ofNat 32 (8 * j + i), sh := ((s.appendChunks c).collected j i).sh,
      runcnt := (s.appendChunks c).runcnt } := by
  unfold State.collected
  rw [State.appendChunks_eq]

/-- Settles O32, by the chunks complete and the channels of the next one. -/
theorem extractStepsFollowTheChunks : Obligations.ExtractStepsFollowTheChunks := by
  intro s n hb hc hm hN hbusy
  obtain ⟨hn, hnone⟩ := State.extract_busy_bounds hc hb hm hN hbusy
  have hcap := hc.2
  refine ⟨_, State.engineRun_extract_channels hc hN hn hnone, ?_, ?_, ?_, ?_, ?_, fun a => ?_⟩
  · rw [State.collected_appendChunks_eq]; rfl
  · rw [State.collected_k _ (by omega), Nat.div_add_mod]
  · rw [State.collected_appendChunks_eq]; rfl
  · rw [State.collected_appendChunks_eq]; rfl
  · rw [State.collected_appendChunks_eq]; rfl
  · rw [State.readByte_collected, State.readByte_chunks_accept hm hN (by omega)]

end Sys2Proof.Machine
end

section
/-! O33, O34: after a successful EMBED the chunks are the Framed Payload, so EXTRACT ends where a terminator first ends
in it (42_extract.md R137); where that is, the payload decides (R138). -/

namespace Sys2Proof.Machine

/-! ## Framing a payload -/

/-- The `l` characters of `p`, then the terminator (41_embed.md R101). -/
def framed (p : Nat → Byte) (l : Nat) : Nat → Byte := fun j => if j < l then p j else hashChar

theorem framed_of_lt {p : Nat → Byte} {l j : Nat} (h : j < l) : framed p l j = p j := if_pos h

theorem framed_of_le {p : Nat → Byte} {l j : Nat} (h : l ≤ j) : framed p l j = hashChar := if_neg (Nat.not_lt.2 h)

/-- The Framed Payload of an EMBED is such a sequence. -/
theorem State.framedByte_eq (s : State) : s.framedByte = framed (s.readByte .msg) s.msgLen.toNat := rfl

/-- The terminator added ends a framed payload, at the latest. -/
theorem terminatorEnds_framed (p : Nat → Byte) (l : Nat) : TerminatorEnds (framed p l) (l + 3) :=
  ⟨by omega, fun _ _ => framed_of_le (by omega)⟩

/-- Within the payload a terminator is four characters 0x23 of it. -/
theorem terminatorEnds_framed_iff_of_lt {p : Nat → Byte} {l j : Nat} (h : j + 4 ≤ l) :
    TerminatorEnds (framed p l) (j + 3)
      ↔ p j = hashChar ∧ p (j + 1) = hashChar ∧ p (j + 2) = hashChar ∧ p (j + 3) = hashChar := by
  constructor
  · rintro ⟨-, hall⟩
    have hp (i : Nat) (hi : i < 4) : p (j + 3 - i) = hashChar := by
      have hchar := hall i hi
      rwa [framed_of_lt (by omega)] at hchar
    exact ⟨hp 3 (by omega), hp 2 (by omega), hp 1 (by omega), hp 0 (by omega)⟩
  · rintro ⟨h0, h1, h2, h3⟩
    refine ⟨by omega, fun i hi => ?_⟩
    rw [framed_of_lt (by omega)]
    obtain rfl | rfl | rfl | rfl : i = 0 ∨ i = 1 ∨ i = 2 ∨ i = 3 := by omega
    all_goals assumption

/-- A terminator that ends beyond the payload but before the one added takes in its last character. -/
theorem TerminatorEnds.last_eq {p : Nat → Byte} {l e : Nat} (h : TerminatorEnds (framed p l) e) (hle : l ≤ e)
    (hlt : e < l + 3) {r : Nat} (hr : r < l) (her : e + r < l + 3) : p (l - 1 - r) = hashChar := by
  obtain ⟨h3, hall⟩ := h
  have hwindow := hall (e - (l - 1 - r)) (by omega)
  rwa [show e - (e - (l - 1 - r)) = l - 1 - r by omega, framed_of_lt (by omega)] at hwindow

/-- The payloads that are not ambiguous: without four 0x23 in a row, and not ending in 0x23. -/
theorem forall_not_terminatorEnds_framed_iff (p : Nat → Byte) (l : Nat) :
    (∀ e < l + 3, ¬ TerminatorEnds (framed p l) e)
      ↔ (∀ j, j + 4 ≤ l →
          ¬ (p j = hashChar ∧ p (j + 1) = hashChar ∧ p (j + 2) = hashChar ∧ p (j + 3) = hashChar))
        ∧ (0 < l → p (l - 1) ≠ hashChar) := by
  constructor
  · refine fun hnone => ⟨fun j hj hfour => ?_, fun hpos hlast => ?_⟩
    · exact hnone (j + 3) (by omega) ((terminatorEnds_framed_iff_of_lt hj).2 hfour)
    · refine hnone (l + 2) (by omega) ⟨by omega, fun i hi => ?_⟩
      by_cases hi3 : i = 3
      · rw [framed_of_lt (by omega), ← hlast]; congr 1; omega
      · exact framed_of_le (by omega)
  · rintro ⟨hfour, hlast⟩ e he hends
    have h3 := hends.1
    by_cases hle : l ≤ e
    · exact hlast (by omega) (hends.last_eq hle he (r := 0) (by omega) (by omega))
    · obtain ⟨j, rfl⟩ := Nat.exists_eq_add_of_le' h3
      exact hfour j (by omega) ((terminatorEnds_framed_iff_of_lt (by omega)).1 hends)

/-- A payload without a terminator that ends in exactly `r` characters 0x23, 1 to 3: these and the first of those
added are the first terminator. -/
theorem firstTerminator_framed_of_trailing {p : Nat → Byte} {l r : Nat} (hr1 : 1 ≤ r) (hr3 : r ≤ 3) (hrl : r ≤ l)
    (hnone : ∀ e < l, ¬ TerminatorEnds (framed p l) e) (htrail : ∀ i < r, p (l - 1 - i) = hashChar)
    (hbefore : r < l → p (l - 1 - r) ≠ hashChar) : FirstTerminator (framed p l) (l + 3 - r) := by
  refine ⟨⟨by omega, fun i hi => ?_⟩, fun d hd hends => ?_⟩
  · by_cases hin : l + 3 - r - i < l
    · rw [framed_of_lt hin, ← htrail (i + r - 4) (by omega)]
      congr 1; omega
    · exact framed_of_le (Nat.not_lt.1 hin)
  · by_cases hdl : d < l
    · exact hnone d hdl hends
    · have h3 := hends.1
      exact hbefore (by omega) (hends.last_eq (Nat.not_lt.1 hdl) (by omega) (by omega) (by omega))

/-! ## EXTRACT after EMBED -/

/-- The chunks after a successful EMBED are the Framed Payload: bit `7 - i` of chunk `j` is bit `8 * j + i` of the
stream (41_embed.md R103). -/
theorem State.chunk_walk_accept {s : State} (hw : s.pix.wf) (hN : s.pixelCount.toNat ≤ s.cfg.pixCap)
    (hfit : 8 * (s.msgLen.toNat + 4) ≤ 3 * s.pixelCount.toNat) {j : Nat} (hj : j < s.msgLen.toNat + 4) :
    ((((s.accept 2).setCap true).toRun.embedWalk (8 * (s.msgLen.toNat + 4))).raise .ok).chunk j = s.framedByte j := by
  refine (State.eq_chunk fun i hi => ?_).symm
  rw [State.readByte_raise, State.readByte_walk_accept hw hN hfit (le_refl _), if_pos (by omega), substitute_lsb,
    State.streamBit, show (8 * j + i) / 8 = j by omega, show (8 * j + i) % 8 = i by omega]

/-- What EXTRACT ends with on pixels that begin with a framed payload: `OK` at the payload's first terminator, and up
to it the payload in MSG. -/
theorem exec_extract_framed {u : State} {p : Nat → Byte} {l : Nat} (hb : u.busy = false) (hm : u.msg.wf)
    (hN : u.pixelCount.toNat ≤ u.cfg.pixCap) (hfit : 8 * (l + 4) ≤ 3 * u.pixelCount.toNat)
    (hchunk : ∀ j < l + 4, u.chunk j = framed p l j) :
    ∃ e v, e ≤ l + 3 ∧ FirstTerminator (framed p l) e ∧ exec .extract u = .next v ∧ v.result = .ok
      ∧ v.msgLen.toNat = e - 3 ∧ ∀ j ≤ e, v.readByte .msg j = framed p l j := by
  obtain ⟨e, he, hfirst⟩ := (terminatorEnds_framed p l).exists_first
  have heC : e < 3 * u.pixelCount.toNat / 8 := by omega
  refine ⟨e, _, he, hfirst, exec_extract_matched hb hm hN heC (hfirst.congr fun j hj => hchunk j (by omega)),
    State.matchedAt_result _ _, State.matchedAt_msgLen_toNat (s := u) _ heC, fun j hj => ?_⟩
  rw [State.readByte_matchedAt_chunks hm hN heC, if_pos hj, hchunk j (by omega)]

/-- EMBED, then EXTRACT with any MSG and `MSG_LEN` in between: it ends `OK` at the first terminator of the Framed
Payload, which MSG holds up to there. -/
theorem exec_extract_after_embed {s : State} (m : Memory) (n : Word) (hb : s.busy = false) (hw : s.pix.wf) (hm : m.wf)
    (hN : s.pixelCount.toNat ≤ s.cfg.pixCap) (hfit : 8 * (s.msgLen.toNat + 4) ≤ 3 * s.pixelCount.toNat) :
    ∃ t v e, exec .embed s = .next t ∧ exec .extract { t with msg := m, msgLen := n } = .next v
      ∧ (∀ j < s.msgLen.toNat + 4, t.chunk j = s.framedByte j) ∧ v.result = .ok ∧ e ≤ s.msgLen.toNat + 3
      ∧ FirstTerminator s.framedByte e ∧ v.msgLen.toNat = e - 3 ∧ ∀ j ≤ e, v.readByte .msg j = s.framedByte j := by
  have hchunk (j : Nat) (hj : j < s.msgLen.toNat + 4) := State.chunk_walk_accept hw hN hfit hj
  have hembed := exec_embed_walk hb hN hfit
  set t := (((s.accept 2).setCap true).toRun.embedWalk (8 * (s.msgLen.toNat + 4))).raise .ok with ht
  have hcount : t.pixelCount = s.pixelCount := by simp [ht]
  have hcfg : t.cfg = s.cfg := by simp [ht]
  obtain ⟨e, v, he, hfirst, hexec, hok, hlen, hmsg⟩ :=
    exec_extract_framed (u := { t with msg := m, msgLen := n }) (p := s.readByte .msg) (l := s.msgLen.toNat) rfl hm
      (by rw [← hcount, ← hcfg] at hN; exact hN) (by rw [← hcount] at hfit; exact hfit) hchunk
  exact ⟨t, v, e, hembed, hexec, hchunk, hok, he, hfirst, hlen, hmsg⟩

/-- Settles O33: the length and bytes come back exactly if the first terminator is the one EMBED added. -/
theorem roundTripOfUnambiguousPayloads : Obligations.RoundTripOfUnambiguousPayloads := by
  intro s m l hb hw hm hN hfit
  obtain ⟨t, v, e, hembed, hextract, hchunk, hok, he, hfirst, hlen, hmsg⟩ :=
    exec_extract_after_embed m l hb hw hm hN hfit
  refine ⟨t, v, hembed, hextract, hchunk, hok, by omega, ⟨fun ⟨hsame, _⟩ => ?_, fun hnone => ?_⟩,
    forall_not_terminatorEnds_framed_iff _ _⟩
  · have h3 := hfirst.ends.1
    rw [hsame] at hlen
    rw [show s.msgLen.toNat + 3 = e by omega]
    exact hfirst.least
  · have hlast : e = s.msgLen.toNat + 3 := by
      by_contra hne
      exact hnone e (by omega) hfirst.ends
    refine ⟨BitVec.eq_of_toNat_eq (by omega), fun j hj => ?_⟩
    rw [hmsg j (by omega), State.framedByte_eq, framed_of_lt hj]

/-- Settles O34: there is one first terminator, and each case names it. -/
theorem framingAmbiguityCutsThePayload : Obligations.FramingAmbiguityCutsThePayload := by
  intro s m l hb hw hm hN hfit
  obtain ⟨t, v, e, hembed, hextract, -, hok, -, hfirst, hlen, hmsg⟩ :=
    exec_extract_after_embed m l hb hw hm hN hfit
  have hcut {d : Nat} (hd : FirstTerminator s.framedByte d) :
      v.msgLen.toNat = d - 3 ∧ ∀ j < d - 3, v.readByte .msg j = s.framedByte j := by
    obtain rfl := hfirst.unique hd
    exact ⟨hlen, fun j hj => hmsg j (by omega)⟩
  have hpayload {j : Nat} (hj : j < s.msgLen.toNat) : s.framedByte j = s.readByte .msg j := framed_of_lt hj
  refine ⟨t, v, hembed, hextract, hok, fun d hends hleast _ => hcut ⟨hends, hleast⟩, fun d hd hends hleast => ?_,
    fun r hr1 hr3 hrl hnone htrail hbefore => ?_⟩
  · obtain ⟨hd3, hbytes⟩ := hcut ⟨hends, hleast⟩
    exact ⟨hd3, fun j hj => (hbytes j hj).trans (hpayload (by omega))⟩
  · obtain ⟨hd3, hbytes⟩ := hcut (firstTerminator_framed_of_trailing (l := s.msgLen.toNat) hr1 hr3 hrl hnone htrail hbefore)
    exact ⟨by omega, fun j hj => (hbytes j (by omega)).trans (hpayload (by omega))⟩

end Sys2Proof.Machine
end

section
/-! O52: the source's calls, line by line: a command and its `wait` are the result level, a read-back returns the bytes,
and `extract` on pixels that begin with a framed message returns it (43_host_access.md R159; 42_extract.md R137). -/

namespace Sys2Proof.Machine

/-! ## A command and its `wait` -/

/-- A command of an idle block is its acceptance. -/
theorem State.runLine_cmd {s : State} (hb : s.busy = false) (i : Instr) :
    s.runLine (.cmd i) = (s.setInputs []).accept (opOf i) := by
  obtain ⟨hdecode, -⟩ := encodeAndDecodeAgree
  rw [s.runLine_step (i := .writeReg 0 (encode i)) rfl (by simp)]
  show (s.setInputs []).whenIdle ((s.setInputs []).writeCmd (encode i)) = _
  rw [State.whenIdle_of_idle (by simpa using hb), State.writeCmd, hdecode i (by cases i <;> rfl)]

/-- The line `setn` in an idle block. -/
theorem State.runLine_setn {s : State} (hb : s.busy = false) (n : Word) :
    s.runLine (.setn n) = { s with pixelCount := n, inputs := [] } := by
  rw [s.runLine_step (i := .writeReg 2 n) rfl (by simp)]
  exact State.whenIdle_of_idle (s := s.setInputs []) hb _

/-- The ENGINE steps a `wait` allows end an accepted command where the result level does. -/
theorem State.engineRun_accept_of_exec {s t : State} (h : s.Inv) (hb : s.busy = false) {i : Instr}
    (hexec : exec i s = .next t) :
    State.engineRun (2 + 3 * s.cfg.pixCap) (s.accept (opOf i)) = t ∧ t.busy = false := by
  have ⟨hcfg, ⟨hmsg, _⟩, _⟩ := h
  obtain ⟨n, t', hexec', hrun, hend, hbusy⟩ := stepLevelReachesTheResultLevel i s hb hcfg hmsg
  cases hexec.symm.trans hexec'
  have hstop := State.engineRun_busy_of_stepsLeft_le (State.inv_accept h i) (s.accept (opOf i)).stepsLeft_le
  rw [State.accept_cfg] at hstop
  have hle : n ≤ 2 + 3 * s.cfg.pixCap := by
    by_contra hlt
    rw [hbusy _ (Nat.not_le.1 hlt)] at hstop
    cases hstop
  obtain ⟨k, hk⟩ := Nat.exists_eq_add_of_le hle
  rw [hk, State.engineRun_add, hrun, State.engineRun_idle hend]
  exact ⟨rfl, hend⟩

/-- The lines of a command and its `wait` in an idle block: the end state of the result level, its `STATUS` the word the
HOST has read last. -/
theorem State.runLines_command {s t : State} (h : s.Inv) (hb : s.busy = false) {i : Instr}
    (hexec : exec i s = .next t) :
    ∃ o, s.runLines [.cmd i, .wait] = t.withOutside [] (.word t.statusWord :: o) := by
  obtain ⟨hrun, hend⟩ := State.engineRun_accept_of_exec h hb hexec
  rw [State.runLines_cons, State.runLines_cons, State.runLines_nil, State.runLine_cmd hb]
  refine State.runLine_wait (t := t.withOutside [] s.outputs) ?_ hend (le_refl _)
  rw [← hrun]
  exact State.engineRun_withOutside (s.accept (opOf i)) [] s.outputs _

/-- A command an idle block runs whole keeps the invariant. -/
theorem State.inv_of_exec {s t : State} (h : s.Inv) (hb : s.busy = false) {i : Instr} (hexec : exec i s = .next t) :
    t.Inv := by
  have ht : s.commandResult i = t := by simpa [exec_eq, hb] using hexec
  exact ht ▸ State.inv_commandResult h hb i

/-- Lines keep the invariant. -/
theorem State.inv_runLines {s : State} (h : s.Inv) (lines : List HostLine) : (s.runLines lines).Inv := by
  induction lines generalizing s with
  | nil => exact h
  | cons line rest ih =>
    obtain ⟨-, hinv, -⟩ := scriptLinesRunToTheirEnd s line h
    exact ih hinv

/-! ## Returns -/

/-- What `embed` returns after an `OK`: the pixels in PIX, which the read-back leaves. -/
theorem State.embedReturn_ok {t : State} (hok : t.result = .ok) (o : List HostData) (n : Nat) :
    ∃ o', (t.withOutside [] (.word t.statusWord :: o)).embedReturn n
      = (.pixels ((List.range (3 * n)).map (t.readByte .pix)), t.withOutside [] o') := by
  have hresult : resultOf (t.withOutside [] (.word t.statusWord :: o)).lastWord = ResultCode.ok.code := by
    rw [← hok]; exact resultOf_statusWord t
  rw [State.embedReturn, if_pos hresult, State.lastBytes_readBack rfl, State.runLines_readBack rfl]
  exact ⟨_, rfl⟩

/-- What `extract` returns after an `OK`: the `MSG_LEN` characters in MSG. -/
theorem State.extractReturn_ok {t : State} (hok : t.result = .ok) (o : List HostData) :
    ((t.withOutside [] (.word t.statusWord :: o)).extractReturn).1
      = .payload ((List.range t.msgLen.toNat).map (t.readByte .msg)) := by
  have hresult : resultOf (t.withOutside [] (.word t.statusWord :: o)).lastWord = ResultCode.ok.code := by
    rw [← hok]; exact resultOf_statusWord t
  rw [State.extractReturn, if_pos hresult, State.runLine_step _ (i := .readReg 3) rfl (by simp), State.payloadReturn]
  exact congrArg CallReturn.payload (State.lastBytes_readBack rfl .msg _)

/-! ## The message as a framed payload -/

/-- Character `j` of the Framed Payload of a message is that of the sequence it lists. -/
theorem framedChar_eq (message : List Byte) (j : Nat) :
    framedChar message j = framed (fun i => message.getD i 0) message.length j := by
  by_cases h : j < message.length
  · rw [framed_of_lt h]; simp [framedChar, h]
  · rw [framed_of_le (Nat.not_lt.1 h)]; simp [framedChar, Nat.not_lt.1 h]

/-- A list is its elements in order. -/
theorem map_getD_range (l : List Byte) (d : Byte) : (List.range l.length).map (fun i => l.getD i d) = l :=
  List.ext_getElem (by simp) fun i _ h => by simp [h]

/-- A message that holds no four consecutive 0x23 and does not end in 0x23. -/
def Unambiguous (message : List Byte) : Prop :=
  ∀ e < message.length + 3, ¬ TerminatorEnds (framed (fun i => message.getD i 0) message.length) e

/-! ## Pixels and messages given as lists -/

/-- An idle block of configuration `c` with the `n` pixels of `channels` in PIX and their number in `PIXEL_COUNT`. -/
structure State.HoldsPixels (w : State) (c : Config) (channels : List Byte) (n : Nat) : Prop where
  inv : w.Inv
  idle : w.busy = false
  cfg : w.cfg = c
  length : channels.length = 3 * n
  fits : n ≤ c.pixCap
  count : w.pixelCount.toNat = n
  bytes : ∀ a < 3 * n, w.readByte .pix a = channels.getD a 0

/-- MSG begins with `message`, and `MSG_LEN` is its length. -/
structure State.HoldsMessage (w : State) (message : List Byte) : Prop where
  count : w.msgLen.toNat = message.length
  bytes : ∀ j < message.length, w.readByte .msg j = message.getD j 0

/-- The whole chunks are those of the list (42_extract.md R122). -/
theorem State.HoldsPixels.chunk {w : State} {c : Config} {channels : List Byte} {n : Nat}
    (h : w.HoldsPixels c channels n) {j : Nat} (hj : 8 * (j + 1) ≤ 3 * n) : w.chunk j = listChunk channels j := by
  refine (State.eq_chunk fun i hi => ?_).symm
  rw [h.bytes _ (by omega)]
  exact State.foldl_shiftIn_bit (fun i => channels.getD (8 * j + i) 0) 0 8 (le_refl 8) hi

/-- The Framed Payload is that of the list (41_embed.md R101). -/
theorem State.HoldsMessage.framedByte {w : State} {message : List Byte} (h : w.HoldsMessage message) (j : Nat) :
    w.framedByte j = framedChar message j := by
  rw [State.framedByte_eq, framedChar_eq, h.count]
  by_cases hj : j < message.length
  · rw [framed_of_lt hj, framed_of_lt hj, h.bytes j hj]
  · rw [framed_of_le (Nat.not_lt.1 hj), framed_of_le (Nat.not_lt.1 hj)]

/-- The outside's lists do not matter. -/
theorem State.HoldsPixels.withOutside {w : State} {c : Config} {channels : List Byte} {n : Nat}
    (h : w.HoldsPixels c channels n) (l : List Input) (o : List HostData) :
    (w.withOutside l o).HoldsPixels c channels n :=
  ⟨h.inv, h.idle, h.cfg, h.length, h.fits, h.count, h.bytes⟩

/-- The lines with which a call loads its pixels, in an idle block. -/
theorem State.runLines_loadPixels_eq {s : State} (hb : s.busy = false) (channels : List Byte) (n : Word) :
    s.runLines [.ldpix channels, .setn n]
      = { s with pix := (s.storeAt .pix 0 channels).pix, pixelCount := n, inputs := [] } := by
  have hidle : ((s.storeAt .pix 0 channels).setInputs []).busy = false := by rw [State.storeAt_eq]; exact hb
  rw [State.runLines_cons, State.runLines_cons, State.runLines_nil, State.runLine_ldpix hb, State.runLine_setn hidle,
    State.storeAt_pix_eq]
  rfl

/-- They leave the pixels in PIX. -/
theorem State.holdsPixels_load {s : State} (h : s.Inv) (hb : s.busy = false) {channels : List Byte} {n : Nat}
    (hlen : channels.length = 3 * n) (hN : n ≤ s.cfg.pixCap) :
    (s.runLines [.ldpix channels, .setn (BitVec.ofNat 32 (channels.length / 3))]).HoldsPixels s.cfg channels n := by
  have hinv := State.inv_runLines h [.ldpix channels, .setn (BitVec.ofNat 32 (channels.length / 3))]
  have ⟨⟨_, hcap⟩, ⟨_, _, hpix, _⟩, _⟩ := h
  have hn : channels.length / 3 = n := by omega
  rw [hn, State.runLines_loadPixels_eq hb] at hinv ⊢
  refine ⟨hinv, hb, rfl, hlen, hN, ?_, fun a ha => ?_⟩
  · exact (BitVec.toNat_ofNat _ _).trans (Nat.mod_eq_of_lt (by omega))
  · have hread := State.readByte_storeAt_zero (sp := .pix) hpix channels (lt_pixSize_of_lt hN ha)
    rw [State.storeAt_pix_eq] at hread
    have hin : a < channels.length := by omega
    refine hread.trans ?_
    simp [hin]

/-- The line `ldmsgb` then leaves a message that fits MSG there. -/
theorem State.HoldsPixels.loadMessage {w : State} {c : Config} {channels : List Byte} {n : Nat}
    (h : w.HoldsPixels c channels n) {message : List Byte} (hL : message.length ≤ memSize c .msg) :
    (w.runLine (.ldmsgb message)).HoldsPixels c channels n ∧ (w.runLine (.ldmsgb message)).HoldsMessage message := by
  obtain ⟨-, hinv, -⟩ := scriptLinesRunToTheirEnd w (.ldmsgb message) h.inv
  have ⟨⟨_, hcap⟩, ⟨hmsg, _⟩, _⟩ := h.inv
  rw [← h.cfg] at hL
  rw [State.runLine_ldmsgb h.idle, State.storeAt_msg_eq] at hinv ⊢
  refine ⟨⟨hinv, h.idle, h.cfg, h.length, h.fits, h.count, h.bytes⟩, ?_, fun j hj => ?_⟩
  · simp only [memSize] at hL
    exact (BitVec.toNat_ofNat _ _).trans (Nat.mod_eq_of_lt (by omega))
  · have hread := State.readByte_storeAt_zero (sp := .msg) hmsg message (lt_of_lt_of_le hj hL)
    rw [State.storeAt_msg_eq] at hread
    refine hread.trans ?_
    simp [hj]

/-! ## The calls -/

/-- A command and its `wait` end the lines of `embed`. -/
theorem State.callEmbed_eq (s : State) (channels message : List Byte) :
    s.callEmbed channels message
      = (((s.runLines [.ldpix channels, .setn (BitVec.ofNat 32 (channels.length / 3))]).runLine
          (.ldmsgb message)).runLines [.cmd .embed, .wait]).embedReturn (channels.length / 3) := by
  rw [State.callEmbed, embedCall]
  simp only [State.runLines_cons, State.runLines_nil]

/-- And those of `extract`. -/
theorem State.callExtract_eq (s : State) (channels : List Byte) :
    s.callExtract channels
      = ((s.runLines [.ldpix channels, .setn (BitVec.ofNat 32 (channels.length / 3))]).runLines
          [.cmd .extract, .wait]).extractReturn := by
  rw [State.callExtract, extractCall]
  simp only [State.runLines_cons, State.runLines_nil]

/-- A successful EMBED leaves an idle block of the same configuration and pixel count, whose chunks begin with the
framed message. -/
theorem State.exists_exec_embed_holdsPixels {w : State} {c : Config} {channels message : List Byte} {n : Nat}
    (h : w.HoldsPixels c channels n) (hm : w.HoldsMessage message) (hfit : 8 * (message.length + 4) ≤ 3 * n) :
    ∃ t, exec .embed w = .next t ∧ t.result = .ok
      ∧ t.HoldsPixels c ((List.range (3 * n)).map (t.readByte .pix)) n
      ∧ ∀ j < message.length + 4, t.chunk j = framedChar message j := by
  have ⟨_, ⟨_, _, hpix, _⟩, _⟩ := h.inv
  have hN : w.pixelCount.toNat ≤ w.cfg.pixCap := by rw [h.count, h.cfg]; exact h.fits
  have hfit' : 8 * (w.msgLen.toNat + 4) ≤ 3 * w.pixelCount.toNat := by rwa [hm.count, h.count]
  have hexec := exec_embed_walk h.idle hN hfit'
  refine ⟨_, hexec, rfl, ⟨State.inv_of_exec h.inv h.idle hexec, rfl, ?_, by simp, h.fits, ?_, fun a ha => by simp [ha]⟩,
    fun j hj => ?_⟩
  · simpa using h.cfg
  · simpa using h.count
  · rw [State.chunk_walk_accept hpix hN hfit' (by rwa [hm.count]), hm.framedByte]

/-- `embed` of a message that fits returns pixels whose chunks begin with the framed message, and leaves them in
PIX. -/
theorem State.exists_callEmbed_eq {s : State} (h : s.Inv) (hb : s.busy = false) {channels message : List Byte} {n : Nat}
    (hlen : channels.length = 3 * n) (hN : n ≤ s.cfg.pixCap) (hfit : 8 * (message.length + 4) ≤ 3 * n) :
    ∃ pixels t, s.callEmbed channels message = (.pixels pixels, t) ∧ t.HoldsPixels s.cfg pixels n
      ∧ ∀ j < message.length + 4, listChunk pixels j = framedChar message j := by
  have hL : message.length ≤ memSize s.cfg .msg := by simp only [memSize]; omega
  obtain ⟨hpix, hmsg⟩ := (State.holdsPixels_load h hb hlen hN).loadMessage hL
  obtain ⟨t, hexec, hok, ht, hchunk⟩ := State.exists_exec_embed_holdsPixels hpix hmsg hfit
  obtain ⟨o, hrun⟩ := State.runLines_command hpix.inv hpix.idle hexec
  obtain ⟨o', hreturn⟩ := State.embedReturn_ok hok o n
  refine ⟨_, t.withOutside [] o', ?_, ht.withOutside [] o', fun j hj => ?_⟩
  · rw [State.callEmbed_eq, hrun, show channels.length / 3 = n by omega, hreturn]
  · rw [← ht.chunk (by omega), hchunk j hj]

/-- EXTRACT of pixels whose chunks begin with a framed, unambiguous message returns the message. -/
theorem State.HoldsPixels.extractReturn {w : State} {c : Config} {channels message : List Byte} {n : Nat}
    (h : w.HoldsPixels c channels n) (hfit : 8 * (message.length + 4) ≤ 3 * n) (hmessage : Unambiguous message)
    (hchunk : ∀ j < message.length + 4, listChunk channels j = framedChar message j) :
    ((w.runLines [.cmd .extract, .wait]).extractReturn).1 = .payload message := by
  have ⟨_, ⟨hmsg, _⟩, _⟩ := h.inv
  obtain ⟨e, v, he, hfirst, hexec, hok, hlen, hbytes⟩ := exec_extract_framed
    (p := fun i => message.getD i 0) (l := message.length) h.idle hmsg (by rw [h.count, h.cfg]; exact h.fits)
    (by rwa [h.count]) fun j hj => by rw [h.chunk (by omega), hchunk j hj, framedChar_eq]
  have hlast : e = message.length + 3 := by
    by_contra hne
    exact hmessage e (by omega) hfirst.ends
  have hread : ∀ j ∈ List.range message.length, v.readByte .msg j = message.getD j 0 := fun j hj => by
    have hj := List.mem_range.1 hj
    rw [hbytes j (by omega), framed_of_lt hj]
  obtain ⟨o, hrun⟩ := State.runLines_command h.inv h.idle hexec
  rw [hrun, State.extractReturn_ok hok, hlen, hlast, Nat.add_sub_cancel, List.map_congr_left hread, map_getD_range]

/-- Settles O52: what `embed` returns and leaves holds the framed message, which `extract` finds again wherever the
pixels are. -/
theorem sourceRoundTrip : Obligations.SourceRoundTrip := by
  intro s u channels message n h hb hu hub hcfg hlen hN hfit hfour hend
  have hmessage : Unambiguous message := (forall_not_terminatorEnds_framed_iff _ _).2 ⟨hfour, hend⟩
  obtain ⟨pixels, t, hcall, ht, hchunk⟩ := State.exists_callEmbed_eq h hb hlen hN hfit
  refine ⟨pixels, by rw [hcall], ?_, ?_⟩
  · rw [State.callExtract_eq]
    exact (State.holdsPixels_load hu hub ht.length (by rwa [hcfg])).extractReturn hfit hmessage hchunk
  · rw [hcall]
    exact ht.extractReturn hfit hmessage hchunk

end Sys2Proof.Machine
end

section
/-! O4, O6, O9: what the host port makes of a command word and of a register write, index by index
(43_host_access.md R151, R152). -/

namespace Sys2Proof.Machine

/-- The step of the next input, as a state: what `State.afterInput` says, with that input taken off. -/
theorem step_afterInput {s : State} {i : Input} {rest : List Input} (h : s.inputs = i :: rest) :
    step s = .next ((s.setInputs rest).afterInput i) :=
  (step_cons h).trans (State.consume_eq _ i)

/-- A host write of a register. -/
theorem step_writeReg {s : State} {i : Nat} {v : Word} {rest : List Input} (h : s.inputs = .writeReg i v :: rest) :
    step s = .next ((s.setInputs rest).writeReg i v) :=
  step_afterInput h

/-! ## Command words -/

/-- A legal word written to `CMD` of an idle block is accepted (43_host_access.md R152). -/
theorem State.writeReg_cmd_of_ok {s : State} (hb : s.busy = false) {w : Word} {i : Instr} (h : decode w = .ok i) :
    s.writeReg 0 w = s.accept (opOf i) := by
  refine (State.whenIdle_of_idle hb _).trans ?_
  rw [State.writeCmd, h]

/-- An illegal one is rejected (43_host_access.md R152). -/
theorem State.writeReg_cmd_of_error {s : State} (hb : s.busy = false) {w : Word} {e : DecodeError}
    (h : decode w = .error e) : s.writeReg 0 w = s.rejectCommand w := by
  refine (State.whenIdle_of_idle hb _).trans ?_
  rw [State.writeCmd, h]

/-- The operation code of a legal word is its low four bits (30_encoding.md R70). -/
theorem opOf_eq_of_decode {w : Word} {i : Instr} (h : decode w = .ok i) : opOf i = BitVec.ofNat 4 (w.toNat % 16) := by
  obtain rfl := (decode_eq_ok_iff_eq_encode w i).1 h
  cases i <;> rfl

/-- Settles O4: the step takes the word off, and the decoder names the command. -/
theorem stepRunsDecodedCommand : Obligations.StepRunsDecodedCommand := by
  intro s w i rest hi hdecode _
  rw [step_cons hi, State.consume, State.command, hdecode]

/-- Settles O6: the word decodes, so it is accepted with its low four bits as `OP`. -/
theorem legalWordStartsItsCommand : Obligations.LegalWordStartsItsCommand := by
  intro s w rest hb hrsvd hop hi
  obtain ⟨hlegal, -⟩ := legalCommandWordsAreOneTwoThree
  obtain ⟨i, hdecode⟩ := (hlegal w).2 ⟨hrsvd, hop⟩
  rw [step_writeReg hi, State.writeReg_cmd_of_ok (s := s.setInputs rest) hb hdecode, ← opOf_eq_of_decode hdecode]
  rfl

/-! ## Register writes -/

/-- While `BUSY` is 1 a register write is ignored (43_host_access.md R155). -/
theorem State.writeReg_of_busy {s : State} (hb : s.busy = true) (i : Nat) (v : Word) : s.writeReg i v = s :=
  State.whenIdle_of_busy hb _

/-- So is, at any time, a write of `STATUS` or of a reserved index (43_host_access.md R151, R156). -/
theorem State.writeReg_of_readOnly (s : State) {i : Nat} (h : i = 1 ∨ 5 ≤ i) (v : Word) : s.writeReg i v = s := by
  rcases h with rfl | h
  · exact s.whenIdle_self
  · obtain ⟨k, rfl⟩ := Nat.exists_eq_add_of_le' h
    exact s.whenIdle_self

/-- A write of `PIXEL_COUNT` to an idle block (43_host_access.md R151). -/
theorem State.writeReg_pixelCount {s : State} (hb : s.busy = false) (v : Word) :
    s.writeReg 2 v = { s with pixelCount := v } :=
  State.whenIdle_of_idle hb _

/-- A write of `BIT_COUNT` to an idle block (43_host_access.md R151). -/
theorem State.writeReg_bitCount {s : State} (hb : s.busy = false) (v : Word) :
    s.writeReg 4 v = { s with bitCount := v } :=
  State.whenIdle_of_idle hb _

/-- Settles O9, index by index. -/
theorem registerWritesStoreOrAreIgnored : Obligations.RegisterWritesStoreOrAreIgnored := by
  intro s i v rest hi
  rw [step_writeReg hi]
  refine ⟨?pixelCount, ?msgLen, ?bitCount, ?cmd, fun h => ?readOnly, fun hb => ?busy⟩
  case pixelCount =>
    rintro hb rfl
    rw [State.writeReg_pixelCount (s := s.setInputs rest) hb]; rfl
  case msgLen =>
    rintro hb rfl
    rw [State.writeReg_msgLen (s := s.setInputs rest) hb]; rfl
  case bitCount =>
    rintro hb rfl
    rw [State.writeReg_bitCount (s := s.setInputs rest) hb]; rfl
  case cmd =>
    rintro hb rfl
    exact ⟨fun j hj => by rw [State.writeReg_cmd_of_ok (s := s.setInputs rest) hb hj],
      fun e he => by rw [State.writeReg_cmd_of_error (s := s.setInputs rest) hb he]⟩
  case readOnly => rw [State.writeReg_of_readOnly _ h]
  case busy => rw [State.writeReg_of_busy (s := s.setInputs rest) hb]

end Sys2Proof.Machine
end

section
/-! O7: while `BUSY` is 1 every host write is ignored, at both levels (43_host_access.md R155; 60_exceptions.md
R178). -/

namespace Sys2Proof.Machine

/-- While `BUSY` is 1 a memory write is ignored. -/
theorem State.writeMem_of_busy {s : State} (hb : s.busy = true) (sp : MemSpace) (a : Nat) (v : Byte) :
    s.writeMem sp a v = s :=
  State.whenIdle_of_busy hb _

/-- So is a command word at the result level. -/
theorem State.afterCommand_of_busy {s : State} (hb : s.busy = true) (w : Word) : s.afterCommand w = s := by
  rw [State.afterCommand, if_pos hb]

/-- One round of `wait` while `BUSY` is 1: a read of `STATUS`, and another round after an ENGINE step. -/
theorem State.poll_of_busy {s : State} (hb : s.busy = true) :
    s.poll = s.withOutside (.engine :: .wait :: s.inputs) (.word s.statusWord :: s.outputs) := by
  rw [State.poll, if_pos hb]; rfl

/-- The last round of `wait`: a read of `STATUS`. -/
theorem State.poll_of_idle {s : State} (hb : s.busy = false) :
    s.poll = s.withOutside s.inputs (.word s.statusWord :: s.outputs) := by
  rw [State.poll, if_neg (by simp [hb])]; rfl

/-- While `BUSY` is 1 only an ENGINE step, a reset and a power-on change the block. -/
theorem State.block_afterInput_of_busy {s : State} (hb : s.busy = true) {i : Input} (hengine : i ≠ .engine)
    (hreset : i ≠ .reset) (hpower : i ≠ .powerOn) : (s.afterInput i).block = s.block := by
  cases i with
  | readReg i => rfl
  | readMem sp a => rfl
  | writeReg i v => exact congrArg State.block (State.writeReg_of_busy hb i v)
  | writeMem sp a v => exact congrArg State.block (State.writeMem_of_busy hb sp a v)
  | engine => exact absurd rfl hengine
  | reset => exact absurd rfl hreset
  | powerOn => exact absurd rfl hpower
  | wait => exact (congrArg State.block (State.poll_of_busy hb)).trans rfl
  | command w => exact congrArg State.block (State.afterCommand_of_busy hb w)

/-- Settles O7, kind of input by kind of input. -/
theorem busyIgnoresEveryHostWrite : Obligations.BusyIgnoresEveryHostWrite := by
  intro s hb
  refine ⟨fun i v rest hi => ?_, fun sp a v rest hi => ?_, fun w rest hi => ?_, fun i => ?_,
    fun i rest t hi hengine hreset hpower hstep => ?_⟩
  · rw [step_writeReg hi, State.writeReg_of_busy (s := s.setInputs rest) hb]
  · exact (step_afterInput hi).trans (congrArg _ (State.writeMem_of_busy (s := s.setInputs rest) hb sp a v))
  · exact (step_afterInput hi).trans (congrArg _ (State.afterCommand_of_busy (s := s.setInputs rest) hb w))
  · rw [exec_eq, if_pos hb]
  · cases (step_afterInput hi).symm.trans hstep
    exact State.block_afterInput_of_busy (s := s.setInputs rest) hb hengine hreset hpower

end Sys2Proof.Machine
end

section
/-! O8: what a register read returns (43_host_access.md R150; 10_state.md R22), and that an EXTRACT writes `MSG_LEN` in
its last step alone (42_extract.md R134). -/

namespace Sys2Proof.Machine

/-- The `STATUS` word as a number: its fields are apart (10_state.md R22). -/
theorem State.statusWord_eq_ofNat (s : State) :
    s.statusWord
      = BitVec.ofNat 32 (s.busy.toNat + 2 * s.cap.toNat + 16 * s.result.code.toNat + 256 * s.op.toNat) := by
  unfold State.statusWord
  generalize s.busy = b, s.cap = c, s.result.code = r, s.op = o
  revert b c r o
  decide

/-- A read of a register, by its index. -/
theorem State.readReg_eq_ite (s : State) (i : Nat) :
    s.readReg i = if i = 1 then s.statusWord else if i = 2 then s.pixelCount else if i = 3 then s.msgLen
      else if i = 4 then s.bitCount else 0 := by
  match i with
  | 0 | 1 | 2 | 3 | 4 => rfl
  | _ + 5 => rfl

/-- A chunk that does not end the command leaves `MSG_LEN` as it was. -/
theorem State.completeChunk_msgLen {s : State} {j : Nat} (h : (s.completeChunk j).busy = true) :
    (s.completeChunk j).msgLen = s.msgLen := by
  unfold State.completeChunk at h ⊢
  dsimp only at h ⊢
  split at h
  · exact absurd h (by simp [State.matchedAt])
  · next hne => rw [if_neg hne]; simp

/-- So does every ENGINE step of EXTRACT that does not end it. -/
theorem extractEngineStep_msgLen {s : State} (h : (extractEngineStep s).busy = true) :
    (extractEngineStep s).msgLen = s.msgLen := by
  rcases extractEngineStep_cases s with ⟨_, _, he⟩ | ⟨_, _, he⟩ | ⟨_, _, he⟩ | ⟨_, _, _, he⟩ | ⟨_, _, _, he⟩ <;>
    rw [he] at h ⊢
  · rfl
  · rfl
  · exact absurd h (by simp [State.exhausted])
  · exact State.completeChunk_msgLen h
  · rfl

/-- Settles O8: the value of each index, and the ENGINE step of EXTRACT. -/
theorem registerReadsReturnCurrentValues : Obligations.RegisterReadsReturnCurrentValues := by
  refine ⟨fun s i rest hi => ?_, fun s hb ho hbusy => ?_⟩
  · rw [step_readReg hi, State.readReg_eq_ite, State.statusWord_eq_ofNat]; rfl
  · rw [State.engineStep_extract hb ho] at hbusy ⊢
    exact extractEngineStep_msgLen hbusy

end Sys2Proof.Machine
end

section
/-! O10, O11, O12: accesses of the two memories, and of locations that do not exist (43_host_access.md R153, R154,
R156). -/

namespace Sys2Proof.Machine

/-- Each memory of a block in order is canonical. -/
theorem State.MemoryOk.wf {s : State} (h : s.MemoryOk) (sp : MemSpace) : (s.mem sp).wf := by
  obtain ⟨hmsg, -, hpix, -⟩ := h
  cases sp with
  | msg => exact hmsg
  | pix => exact hpix

/-- An existing byte holds what is listed for it. -/
theorem State.readByte_of_mem {s : State} {sp : MemSpace} (hm : (s.mem sp).wf) {a : Nat} {v : Byte}
    (ha : a < memSize s.cfg sp) (h : (a, v) ∈ s.mem sp) : s.readByte sp a = v := by
  rw [State.readByte, if_pos ha, (Memory.byteAt?_eq_some_iff hm).2 h, Option.getD_some]

/-- An existing byte that is not listed holds its unknown value (10_state.md R33). -/
theorem State.readByte_of_forall_notMem {s : State} {sp : MemSpace} (hm : (s.mem sp).wf) {a : Nat}
    (ha : a < memSize s.cfg sp) (h : ∀ v, (a, v) ∉ s.mem sp) :
    s.readByte sp a = Config.powerOnByte s.powerUp sp a := by
  have hnone : (s.mem sp).byteAt? a = none :=
    Option.eq_none_iff_forall_ne_some.2 fun v hv => h v ((Memory.byteAt?_eq_some_iff hm).1 hv)
  rw [State.readByte, if_pos ha, hnone, Option.getD_none]

/-- Settles O10: a listed byte, and one that is not. -/
theorem memoryReadsReturnCurrentByte : Obligations.MemoryReadsReturnCurrentByte := by
  intro s sp a rest hm hi ha
  rw [step_readMem hi]
  refine ⟨fun v hv => ?_, fun hnone => ?_⟩
  · rw [State.readByte_of_mem (hm.wf sp) ha hv]; rfl
  · rw [State.readByte_of_forall_notMem (hm.wf sp) ha hnone]; rfl

/-- A host write of a byte. -/
theorem step_writeMem {s : State} {sp : MemSpace} {a : Nat} {v : Byte} {rest : List Input}
    (h : s.inputs = .writeMem sp a v :: rest) : step s = .next ((s.setInputs rest).writeMem sp a v) :=
  step_afterInput h

/-- To an idle block it is a byte write (43_host_access.md R154). -/
theorem step_writeMem_of_idle {s : State} {sp : MemSpace} {a : Nat} {v : Byte} {rest : List Input}
    (h : s.inputs = .writeMem sp a v :: rest) (hb : s.busy = false) :
    step s = .next ((s.writeByte sp a v).setInputs rest) := by
  rw [step_writeMem h, ← State.writeByte_setInputs]
  exact congrArg _ (State.whenIdle_of_idle (s := s.setInputs rest) hb _)

/-- A byte write changes nothing but the two memories. -/
theorem State.writeByte_eq (s : State) (sp : MemSpace) (a : Nat) (v : Byte) :
    s.writeByte sp a v = { s with msg := (s.writeByte sp a v).msg, pix := (s.writeByte sp a v).pix } :=
  s.storeAt_eq sp a [v]

/-- An existing byte reads as what has just been written there. -/
theorem State.readByte_writeByte_self {s : State} {sp : MemSpace} (hm : (s.mem sp).wf) {a : Nat}
    (ha : a < memSize s.cfg sp) (v : Byte) : (s.writeByte sp a v).readByte sp a = v := by
  rw [State.readByte_writeByte hm, if_pos ⟨rfl, ha⟩]

/-- Every other byte of both memories reads as before. -/
theorem State.readByte_writeByte_of_ne_location {s : State} {sp sq : MemSpace} {a b : Nat} (hm : (s.mem sp).wf)
    (h : (sq, b) ≠ (sp, a)) (v : Byte) : (s.writeByte sp a v).readByte sq b = s.readByte sq b := by
  by_cases hsp : sq = sp
  · subst hsp
    have hba : b ≠ a := fun e => h (by rw [e])
    rw [State.readByte_writeByte hm, if_neg fun hand => hba hand.1]
  · exact State.readByte_writeByte_of_ne hsp a b v

/-- Settles O11: the byte write of an idle block, its frame and its bytes; a busy one ignores it. -/
theorem memoryWritesStoreOneByte : Obligations.MemoryWritesStoreOneByte := by
  intro s sp a v rest hi ha
  refine ⟨fun hb hm => ⟨_, step_writeMem_of_idle hi hb, ?_, ?_, fun sq b hne => ?_⟩, fun hb => ?_⟩
  · rw [State.writeByte_eq]; rfl
  · rw [State.readByte_setInputs, State.readByte_writeByte_self (hm.wf sp) ha]
  · rw [State.readByte_setInputs, State.readByte_writeByte_of_ne_location (hm.wf sp) hne]
  · rw [step_writeMem hi, State.writeMem_of_busy (s := s.setInputs rest) hb]

/-- A read of a byte that does not exist returns 0. -/
theorem step_readMem_of_size_le {s : State} {sp : MemSpace} {a : Nat} {rest : List Input}
    (h : s.inputs = .readMem sp a :: rest) (ha : memSize s.cfg sp ≤ a) :
    step s = .next { s with inputs := rest, outputs := .byte 0 :: s.outputs } := by
  rw [step_readMem h, State.readByte_of_size_le ha]; rfl

/-- A write there is ignored, whatever `BUSY` is. -/
theorem step_writeMem_of_size_le {s : State} {sp : MemSpace} {a : Nat} {v : Byte} {rest : List Input}
    (h : s.inputs = .writeMem sp a v :: rest) (ha : memSize s.cfg sp ≤ a) : step s = .next (s.setInputs rest) := by
  rw [step_writeMem h, State.writeMem, State.writeByte_of_size_le (s := s.setInputs rest) ha, State.whenIdle_self]

/-- Settles O12, space by space; above the Pixel Sequence PIX is memory like below it. -/
theorem absentLocationsReadZeroIgnoreWrites : Obligations.AbsentLocationsReadZeroIgnoreWrites := by
  intro s rest
  refine ⟨fun i h5 hi => ?_, fun i v h5 hi => ?_, fun a ha hi => step_readMem_of_size_le hi ha,
    fun a v ha hi => step_writeMem_of_size_le hi ha, fun a ha hi => step_readMem_of_size_le hi ha,
    fun a v ha hi => step_writeMem_of_size_le hi ha, fun a v hm hb _ ha hi => ?_⟩
  · obtain ⟨k, rfl⟩ := Nat.exists_eq_add_of_le' h5
    rw [step_readReg hi]; rfl
  · rw [step_writeReg hi, State.writeReg_of_readOnly _ (.inr h5)]
  · obtain ⟨t, hstep, -, hread, -⟩ := (memoryWritesStoreOneByte s .pix a v rest hi ha).1 hb hm
    exact ⟨t, hstep, hread⟩

end Sys2Proof.Machine
end

section
/-! O13, O37, O38, O48: the ENGINE steps exactly while `BUSY` is 1, so a command ends, and a host that waits sees it end
(43_host_access.md R157, R158). -/

namespace Sys2Proof.Machine

/-! ## ENGINE steps -/

/-- An ENGINE step scheduled by the outside. -/
theorem step_engine {s : State} {rest : List Input} (h : s.inputs = .engine :: rest) :
    step s = .next (s.setInputs rest).engineStep :=
  step_afterInput h

/-- Settles O13: an ENGINE step of a running command uses one of the steps it has left. -/
theorem engineStepsExactlyWhileBusy : Obligations.EngineStepsExactlyWhileBusy := by
  refine ⟨fun s hi => step_nil hi, fun s rest hi => step_engine hi, fun s hb => State.engineStep_idle hb,
    fun s h hb hsame => ?_⟩
  have hlt := State.stepsLeft_engineStep_lt h hb
  rw [hsame] at hlt
  exact absurd hlt (lt_irrefl _)

/-- Settles O37: the steps left are at most `2 + 3 * PIX_CAP`. -/
theorem runningCommandEnds : Obligations.RunningCommandEnds := by
  intro s h
  exact ⟨s.stepsLeft, s.stepsLeft_le, State.engineRun_busy_of_stepsLeft_le h (le_refl _)⟩

/-! ## `wait` -/

/-- The round of `wait` that sees `BUSY = 1`. -/
theorem step_wait_of_busy {s : State} {rest : List Input} (h : s.inputs = .wait :: rest) (hb : s.busy = true) :
    step s = .next (s.withOutside (.engine :: .wait :: rest) (.word s.statusWord :: s.outputs)) :=
  (step_afterInput h).trans (congrArg _ (State.poll_of_busy (s := s.setInputs rest) hb))

/-- The round of `wait` that sees `BUSY = 0`. -/
theorem step_wait_of_idle {s : State} {rest : List Input} (h : s.inputs = .wait :: rest) (hb : s.busy = false) :
    step s = .next (s.withOutside rest (.word s.statusWord :: s.outputs)) :=
  (step_afterInput h).trans (congrArg _ (State.poll_of_idle (s := s.setInputs rest) hb))

/-- A whole `wait`, once the ENGINE has ended in `t`: the HOST has read its `STATUS`, and nothing else has happened. -/
theorem core_run_wait {s t : State} {rest : List Input} {m : Nat} (ht : State.engineRun m s = t) (hb : t.busy = false)
    (hi : s.inputs = .wait :: rest) :
    ∃ n o, Host.Core.run Sys2Proof.core n s = .next (t.withOutside rest (.word t.statusWord :: o)) := by
  induction m generalizing s t with
  | zero =>
    subst ht
    exact ⟨1, s.outputs, (core_run_succ 0 (step_wait_of_idle hi hb)).trans (core_run_zero _)⟩
  | succ m ih =>
    cases hs : s.busy with
    | false =>
      rw [State.engineRun_idle hs] at ht
      exact ih ((State.engineRun_idle hs m).trans ht) hb hi
    | true =>
      have hengine := step_engine
        (s := s.withOutside (.engine :: .wait :: rest) (.word s.statusWord :: s.outputs)) rfl
      have hround := s.engineStep_withOutside (.wait :: rest) (.word s.statusWord :: s.outputs)
      obtain ⟨n, o, hrun⟩ := ih
        (s := s.engineStep.withOutside (.wait :: rest) (.word s.statusWord :: s.outputs))
        (t := t.withOutside (.wait :: rest) (.word s.statusWord :: s.outputs))
        (by rw [State.engineRun_withOutside, ← ht]; rfl) hb rfl
      refine ⟨n + 2, o, ?_⟩
      rw [core_run_succ _ (step_wait_of_busy hi hs), core_run_succ _ (hengine.trans (congrArg _ hround)), hrun]
      rfl

/-- Settles O38: the steps the command has left are enough. -/
theorem waitReturnsWhenTheCommandHasEnded : Obligations.WaitReturnsWhenTheCommandHasEnded := by
  intro s rest h hi
  have hend := State.engineRun_busy_of_stepsLeft_le h (le_refl s.stepsLeft)
  obtain ⟨n, o, hrun⟩ := core_run_wait rfl hend hi
  exact ⟨n, s.stepsLeft, _, hrun, rfl, hend, rfl, rfl⟩

/-! ## `check_capacity` -/

/-- The first three host steps of `check_capacity(b, n)` on an idle block: the operands, and acceptance of CHKCAP. -/
theorem core_run_checkCapacityCall {s : State} {b n : Word} {rest : List Input} (hb : s.busy = false)
    (hi : s.inputs = expandScript (checkCapacityCall b n) ++ rest) (m : Nat) :
    Host.Core.run Sys2Proof.core (m + 3) s
      = Host.Core.run Sys2Proof.core m
          (({ s with bitCount := b, pixelCount := n, inputs := .wait :: rest } : State).accept 1) := by
  obtain ⟨-, -, hbits, -⟩ := registerWritesStoreOrAreIgnored s 4 b
    (.writeReg 2 n :: .writeReg 0 (encode .chkcap) :: .wait :: rest) hi
  obtain ⟨hpixels, -⟩ := registerWritesStoreOrAreIgnored
    { s with bitCount := b, inputs := .writeReg 2 n :: .writeReg 0 (encode .chkcap) :: .wait :: rest } 2 n _ rfl
  obtain ⟨-, -, -, hcmd, -⟩ := registerWritesStoreOrAreIgnored
    { s with bitCount := b, pixelCount := n, inputs := .writeReg 0 (encode .chkcap) :: .wait :: rest } 0 _ _ rfl
  obtain ⟨haccept, -⟩ := hcmd hb rfl
  rw [core_run_succ _ (hbits hb rfl), core_run_succ _ (hpixels hb rfl),
    core_run_succ _ (haccept .chkcap (decode_encode .chkcap))]
  rfl

/-- The word `STATUS` reads as after a CHKCAP (95_test_vectors.md). -/
theorem State.statusWord_reportCapacity (s : State) :
    (s.accept 1).reportCapacity.statusWord
      = if s.bitCount.toNat ≤ 3 * s.pixelCount.toNat then 0x112 else 0x110 := by
  rw [State.statusWord_eq_ofNat]
  by_cases h : s.bitCount.toNat ≤ 3 * s.pixelCount.toNat
  · have hcap : (s.accept 1).reportCapacity.cap = true := decide_eq_true h
    rw [hcap, if_pos h]; rfl
  · have hcap : (s.accept 1).reportCapacity.cap = false := decide_eq_false h
    rw [hcap, if_neg h]; rfl

/-- Settles O48: CHKCAP is one ENGINE step, and the `wait` reads its `STATUS`. -/
theorem checkCapacityCallAnswersThePlanner : Obligations.CheckCapacityCallAnswersThePlanner := by
  intro s b n rest hb hi
  set u : State := { s with bitCount := b, pixelCount := n, inputs := .wait :: rest }
  obtain ⟨hone, hend, -⟩ := u.endsAfter_chkcap
  obtain ⟨m, o, hrun⟩ := core_run_wait hone hend rfl
  refine ⟨m + 3, _, (core_run_checkCapacityCall hb hi m).trans hrun, rfl, rfl, rfl, rfl, rfl, rfl, rfl, ?_⟩
  rw [State.statusWord_reportCapacity]
  rfl

end Sys2Proof.Machine
end

section
/-! O51: what each source call returns, by the outcome its `wait` has read (43_host_access.md R159): the lines of a call
leave its operands in the block, and then the result level of its command says the outcome. -/

namespace Sys2Proof.Machine

/-! ## Returns, by the outcome read -/

/-- The outcome the HOST finds in the `STATUS` word a `wait` has read. -/
theorem State.resultOf_lastWord (t : State) (o : List HostData) :
    resultOf (t.withOutside [] (.word t.statusWord :: o)).lastWord = t.result.code :=
  resultOf_statusWord t

/-- The return of `check_capacity` is the field `CAP` of that word. -/
theorem State.checkCapacityReturn_eq (t : State) (o : List HostData) :
    ((t.withOutside [] (.word t.statusWord :: o)).checkCapacityReturn).1 = .bool t.cap :=
  congrArg CallReturn.bool (capOf_statusWord t)

/-- What `embed` returns after a `CAPACITY_ERROR`. -/
theorem State.embedReturn_capacityError {t : State} (h : t.result = .capacityError) (o : List HostData) (n : Nat) :
    (t.withOutside [] (.word t.statusWord :: o)).embedReturn n
      = (.capacityError, t.withOutside [] (.word t.statusWord :: o)) := by
  rw [State.embedReturn, State.resultOf_lastWord, h, if_neg (by decide), if_pos rfl]

/-- What `embed` returns after a `BAD_CONFIG` (log 17). -/
theorem State.embedReturn_badConfig {t : State} (h : t.result = .badConfig) (o : List HostData) (n : Nat) :
    ((t.withOutside [] (.word t.statusWord :: o)).embedReturn n).1 = .otherOutcome 5 := by
  rw [State.embedReturn, State.resultOf_lastWord, h, if_neg (by decide), if_neg (by decide)]; rfl

/-- What `extract` returns after a `NOT_FOUND`. -/
theorem State.extractReturn_notFound {t : State} (h : t.result = .notFound) (o : List HostData) :
    ((t.withOutside [] (.word t.statusWord :: o)).extractReturn).1 = .notFound := by
  rw [State.extractReturn, State.resultOf_lastWord, h, if_neg (by decide), if_pos rfl]

/-- What `extract` returns after a `BAD_CONFIG` (log 17). -/
theorem State.extractReturn_badConfig {t : State} (h : t.result = .badConfig) (o : List HostData) :
    ((t.withOutside [] (.word t.statusWord :: o)).extractReturn).1 = .otherOutcome 5 := by
  rw [State.extractReturn, State.resultOf_lastWord, h, if_neg (by decide), if_neg (by decide)]; rfl

/-! ## `check_capacity` -/

/-- The line `setbits` in an idle block. -/
theorem State.runLine_setbits {s : State} (hb : s.busy = false) (b : Word) :
    s.runLine (.setbits b) = { s with bitCount := b, inputs := [] } := by
  rw [s.runLine_step (i := .writeReg 4 b) rfl (by simp)]
  exact State.writeReg_bitCount (s := s.setInputs []) hb b

/-- The operand lines of `check_capacity` in an idle block. -/
theorem State.runLines_capacityOperands {s : State} (hb : s.busy = false) (b n : Word) :
    s.runLines [.setbits b, .setn n] = { s with bitCount := b, pixelCount := n, inputs := [] } := by
  rw [State.runLines_cons, State.runLines_cons, State.runLines_nil, State.runLine_setbits hb]
  exact State.runLine_setn (s := { s with bitCount := b, inputs := [] }) hb n

/-- `check_capacity(b, n)` returns the planner's answer (40_capacity.md R90). -/
theorem State.callCheckCapacity_return {s : State} (h : s.Inv) (hb : s.busy = false) (b n : Word) :
    (s.callCheckCapacity b n).1 = .bool (decide (b.toNat ≤ 3 * n.toNat)) := by
  have hinv := State.inv_runLines h [.setbits b, .setn n]
  have hcall : s.runLines (checkCapacityCall b n)
      = (s.runLines [.setbits b, .setn n]).runLines [.cmd .chkcap, .wait] :=
    State.runLines_append s [.setbits b, .setn n] [.cmd .chkcap, .wait]
  rw [State.runLines_capacityOperands hb] at hinv hcall
  obtain ⟨t, hexec, hcap, -⟩ := exec_chkcap_cap (s := { s with bitCount := b, pixelCount := n, inputs := [] }) hb
  obtain ⟨o, hrun⟩ := State.runLines_command hinv hb hexec
  rw [State.callCheckCapacity, hcall, hrun, State.checkCapacityReturn_eq, hcap]

/-! ## `embed` -/

/-- The line `ldmsgb` in an idle block, as an update of MSG and `MSG_LEN`. -/
theorem State.runLine_ldmsgb_eq {s : State} (hb : s.busy = false) (message : List Byte) :
    s.runLine (.ldmsgb message)
      = { s with
          msg := (s.storeAt .msg 0 message).msg, msgLen := BitVec.ofNat 32 message.length, inputs := [] } := by
  rw [State.runLine_ldmsgb hb, State.storeAt_msg_eq]

/-- It leaves the pixels where they are, also with a message that does not fit MSG. -/
theorem State.HoldsPixels.ldmsgb {w : State} {c : Config} {channels : List Byte} {n : Nat}
    (h : w.HoldsPixels c channels n) (message : List Byte) :
    (w.runLine (.ldmsgb message)).HoldsPixels c channels n := by
  obtain ⟨-, hinv, -⟩ := scriptLinesRunToTheirEnd w (.ldmsgb message) h.inv
  rw [State.runLine_ldmsgb_eq h.idle] at hinv ⊢
  exact ⟨hinv, h.idle, h.cfg, h.length, h.fits, h.count, h.bytes⟩

/-- An EMBED that does not fit the pixels the block holds is reported as `CapacityError`, and leaves them as they are
(41_embed.md R102). -/
theorem State.HoldsPixels.embedReturn_capacityError {w : State} {c : Config} {channels : List Byte} {n : Nat}
    (h : w.HoldsPixels c channels n) (hshort : 3 * n < 8 * (w.msgLen.toNat + 4)) (m : Nat) :
    ∃ t, (w.runLines [.cmd .embed, .wait]).embedReturn m = (.capacityError, t)
      ∧ ∀ a < 3 * n, t.readByte .pix a = channels.getD a 0 := by
  have hexec := exec_embed_capacityError h.idle (by rw [h.count, h.cfg]; exact h.fits)
    (by rw [h.count]; exact hshort)
  obtain ⟨o, hrun⟩ := State.runLines_command h.inv h.idle hexec
  rw [hrun, State.embedReturn_capacityError rfl]
  exact ⟨_, rfl, h.bytes⟩

/-- `embed` of a message that does not fit the pixels returns `CapacityError` and leaves them in PIX. -/
theorem State.callEmbed_capacityError {s : State} (h : s.Inv) (hb : s.busy = false) {channels message : List Byte}
    {n : Nat} (hlen : channels.length = 3 * n) (hL : message.length < 2 ^ 32) (hN : n ≤ s.cfg.pixCap)
    (hshort : 3 * n < 8 * (message.length + 4)) :
    (s.callEmbed channels message).1 = .capacityError
      ∧ ∀ a < 3 * n, (s.callEmbed channels message).2.readByte .pix a = channels.getD a 0 := by
  have hload := State.holdsPixels_load h hb hlen hN
  have hcount : (BitVec.ofNat 32 message.length).toNat = message.length :=
    (BitVec.toNat_ofNat _ _).trans (Nat.mod_eq_of_lt hL)
  rw [← hcount] at hshort
  obtain ⟨t, hreturn, hbytes⟩ := (hload.ldmsgb message).embedReturn_capacityError
    (by rw [State.runLine_ldmsgb_eq hload.idle]; exact hshort) (channels.length / 3)
  rw [State.callEmbed_eq, hreturn]
  exact ⟨rfl, hbytes⟩

/-- The channels `embed` returns: the given ones, with the bit stream of the framed message in the LSBs of the first
(41_embed.md R103, R105). -/
def embeddedChannel (channels message : List Byte) (k : Nat) : Byte :=
  if k < 8 * (message.length + 4) then
    substitute (channels.getD k 0) ((framedChar message (k / 8)).getLsbD (7 - k % 8))
  else channels.getD k 0

/-- A block that holds pixels and a message that fits them ends EMBED with these channels in PIX. -/
theorem State.HoldsPixels.exists_exec_embed {w : State} {c : Config} {channels message : List Byte} {n : Nat}
    (h : w.HoldsPixels c channels n) (hm : w.HoldsMessage message) (hfit : 8 * (message.length + 4) ≤ 3 * n) :
    ∃ t, exec .embed w = .next t ∧ t.result = .ok
      ∧ ∀ a < 3 * n, t.readByte .pix a = embeddedChannel channels message a := by
  have ⟨_, ⟨_, _, hpix, _⟩, _⟩ := h.inv
  have hN : w.pixelCount.toNat ≤ w.cfg.pixCap := by rw [h.count, h.cfg]; exact h.fits
  have hfit' : 8 * (w.msgLen.toNat + 4) ≤ 3 * w.pixelCount.toNat := by rwa [hm.count, h.count]
  refine ⟨_, exec_embed_walk h.idle hN hfit', rfl, fun a ha => ?_⟩
  rw [State.readByte_raise, State.readByte_walk_accept hpix hN hfit' (le_refl _), hm.count, h.bytes a ha,
    State.streamBit, hm.framedByte, embeddedChannel]

/-- `embed` of a message that fits returns them. -/
theorem State.callEmbed_pixels {s : State} (h : s.Inv) (hb : s.busy = false) {channels message : List Byte} {n : Nat}
    (hlen : channels.length = 3 * n) (hN : n ≤ s.cfg.pixCap) (hfit : 8 * (message.length + 4) ≤ 3 * n) :
    (s.callEmbed channels message).1 = .pixels ((List.range (3 * n)).map (embeddedChannel channels message)) := by
  have hL : message.length ≤ memSize s.cfg .msg := by simp only [memSize]; omega
  obtain ⟨hpix, hmsg⟩ := (State.holdsPixels_load h hb hlen hN).loadMessage hL
  obtain ⟨t, hexec, hok, hbytes⟩ := hpix.exists_exec_embed hmsg hfit
  obtain ⟨o, hrun⟩ := State.runLines_command hpix.inv hpix.idle hexec
  obtain ⟨o', hreturn⟩ := State.embedReturn_ok hok o n
  rw [State.callEmbed_eq, hrun, show channels.length / 3 = n by omega, hreturn]
  exact congrArg CallReturn.pixels (List.map_congr_left fun a ha => hbytes a (List.mem_range.1 ha))

/-- The lines that load pixels leave their number in `PIXEL_COUNT`, whether they fit PIX or not. -/
theorem State.runLines_loadPixels_count {s : State} (hb : s.busy = false) {channels : List Byte} {n : Nat}
    (hlen : channels.length = 3 * n) (hn : n < 2 ^ 32) :
    (s.runLines [.ldpix channels, .setn (BitVec.ofNat 32 (channels.length / 3))]).busy = false
      ∧ (s.runLines [.ldpix channels, .setn (BitVec.ofNat 32 (channels.length / 3))]).cfg = s.cfg
      ∧ (s.runLines [.ldpix channels, .setn (BitVec.ofNat 32 (channels.length / 3))]).pixelCount.toNat = n := by
  rw [State.runLines_loadPixels_eq hb, show channels.length / 3 = n by omega]
  exact ⟨hb, rfl, (BitVec.toNat_ofNat _ _).trans (Nat.mod_eq_of_lt hn)⟩

/-- `embed` of more pixels than PIX holds returns the code of `BAD_CONFIG` (41_embed.md R108; log 17). -/
theorem State.callEmbed_badConfig {s : State} (h : s.Inv) (hb : s.busy = false) {channels : List Byte} {n : Nat}
    (message : List Byte) (hlen : channels.length = 3 * n) (hN : s.cfg.pixCap < n) (hn : n < 2 ^ 32) :
    (s.callEmbed channels message).1 = .otherOutcome 5 := by
  obtain ⟨hidle, hcfg, hcount⟩ := State.runLines_loadPixels_count hb hlen hn
  have hload := State.inv_runLines h [.ldpix channels, .setn (BitVec.ofNat 32 (channels.length / 3))]
  obtain ⟨-, hinv, -⟩ := scriptLinesRunToTheirEnd _ (.ldmsgb message) hload
  rw [← hcfg, ← hcount] at hN
  rw [State.callEmbed_eq]
  rw [State.runLine_ldmsgb_eq hidle] at hinv ⊢
  obtain ⟨o, hrun⟩ := State.runLines_command hinv hidle (exec_embed_badConfig hidle hN)
  rw [hrun, State.embedReturn_badConfig rfl]

/-! ## `extract` -/

/-- `extract` returns the characters before the first terminator (42_extract.md R124, R125). -/
theorem State.callExtract_payload {s : State} (h : s.Inv) (hb : s.busy = false) {channels : List Byte} {n e : Nat}
    (hlen : channels.length = 3 * n) (hN : n ≤ s.cfg.pixCap) (he : e < 3 * n / 8)
    (hfirst : FirstTerminator (listChunk channels) e) :
    (s.callExtract channels).1 = .payload ((List.range (e - 3)).map (listChunk channels)) := by
  have hpix := State.holdsPixels_load h hb hlen hN
  rw [State.callExtract_eq]
  set w := s.runLines [.ldpix channels, .setn (BitVec.ofNat 32 (channels.length / 3))]
  have ⟨_, ⟨hmsg, _⟩, _⟩ := hpix.inv
  have hchunk (j : Nat) (hj : j ≤ e) : w.chunk j = listChunk channels j := hpix.chunk (by omega)
  have hN' : w.pixelCount.toNat ≤ w.cfg.pixCap := by rw [hpix.count, hpix.cfg]; exact hN
  have he' : e < 3 * w.pixelCount.toNat / 8 := by rwa [hpix.count]
  have hexec := exec_extract_matched hpix.idle hmsg hN' he' (hfirst.congr hchunk)
  obtain ⟨o, hrun⟩ := State.runLines_command hpix.inv hpix.idle hexec
  rw [hrun, State.extractReturn_ok rfl, State.matchedAt_msgLen_toNat (s := w) _ he']
  refine congrArg CallReturn.payload (List.map_congr_left fun j hj => ?_)
  have hje : j ≤ e := by have := List.mem_range.1 hj; omega
  rw [State.readByte_matchedAt_chunks hmsg hN' he', if_pos hje, hchunk j hje]

/-- `extract` of pixels without a terminator returns `NotFound` (42_extract.md R126). -/
theorem State.callExtract_notFound {s : State} (h : s.Inv) (hb : s.busy = false) {channels : List Byte} {n : Nat}
    (hlen : channels.length = 3 * n) (hN : n ≤ s.cfg.pixCap)
    (hnone : ∀ d < 3 * n / 8, ¬ listClosesAt channels d) : (s.callExtract channels).1 = .notFound := by
  have hpix := State.holdsPixels_load h hb hlen hN
  rw [State.callExtract_eq]
  set w := s.runLines [.ldpix channels, .setn (BitVec.ofNat 32 (channels.length / 3))]
  have ⟨_, ⟨hmsg, _⟩, _⟩ := hpix.inv
  have hnone' (d : Nat) (hd : d < 3 * w.pixelCount.toNat / 8) : ¬ w.closesAt d := fun hcl => by
    rw [hpix.count] at hd
    exact hnone d hd (TerminatorEnds.congr hcl fun j hj => (hpix.chunk (by omega)).symm)
  have hexec := exec_extract_exhausted hpix.idle hmsg (by rw [hpix.count, hpix.cfg]; exact hN) hnone'
  obtain ⟨o, hrun⟩ := State.runLines_command hpix.inv hpix.idle hexec
  rw [hrun, State.extractReturn_notFound rfl]

/-- `extract` of more pixels than PIX holds returns the code of `BAD_CONFIG` (42_extract.md R130; log 17). -/
theorem State.callExtract_badConfig {s : State} (h : s.Inv) (hb : s.busy = false) {channels : List Byte} {n : Nat}
    (hlen : channels.length = 3 * n) (hN : s.cfg.pixCap < n) (hn : n < 2 ^ 32) :
    (s.callExtract channels).1 = .otherOutcome 5 := by
  obtain ⟨hidle, hcfg, hcount⟩ := State.runLines_loadPixels_count hb hlen hn
  have hinv := State.inv_runLines h [.ldpix channels, .setn (BitVec.ofNat 32 (channels.length / 3))]
  rw [← hcfg, ← hcount] at hN
  obtain ⟨o, hrun⟩ := State.runLines_command hinv hidle (exec_extract_refused hidle hN)
  rw [State.callExtract_eq, hrun, State.extractReturn_badConfig rfl]

/-- Settles O51, call by call and outcome by outcome. -/
theorem sourceCallsReturnByOutcome : Obligations.SourceCallsReturnByOutcome := by
  intro s h hb
  refine ⟨fun b n => State.callCheckCapacity_return h hb b n, fun channels message n hlen hL => ?embed,
    fun channels n hlen => ?extract⟩
  case embed =>
    exact ⟨fun hN hshort => State.callEmbed_capacityError h hb hlen hL hN hshort,
      fun hN hfit => State.callEmbed_pixels h hb hlen hN hfit,
      fun hN hn => State.callEmbed_badConfig h hb message hlen hN hn⟩
  case extract =>
    exact ⟨fun hN => ⟨fun e he hends hleast => State.callExtract_payload h hb hlen hN he ⟨hends, hleast⟩,
        fun hnone => State.callExtract_notFound h hb hlen hN hnone⟩,
      fun hN hn => State.callExtract_badConfig h hb hlen hN hn⟩

end Sys2Proof.Machine
end

section
/-! O5: an illegal command word raises `BAD_CMD` in the write itself, at both levels (60_exceptions.md R173). -/

namespace Sys2Proof.Machine

/-- `OP` as a number, the low four bits of the word (30_encoding.md R70). -/
theorem opField_eq_ofNat (w : Word) : opField w = BitVec.ofNat 4 (w.toNat % 16) :=
  BitVec.eq_of_toNat_eq (by simp [opField])

/-- A word whose fields are not those of a legal one is rejected (30_encoding.md R72, R73). -/
theorem exists_decode_eq_error {w : Word}
    (h : w.toNat / 16 ≠ 0 ∨ ¬ (w.toNat % 16 = 1 ∨ w.toNat % 16 = 2 ∨ w.toNat % 16 = 3)) :
    ∃ e, decode w = .error e := by
  obtain ⟨hlegal, -⟩ := legalCommandWordsAreOneTwoThree
  cases hw : decode w with
  | error e => exact ⟨e, rfl⟩
  | ok i =>
    obtain ⟨hrsvd, hop⟩ := (hlegal w).1 ⟨i, hw⟩
    exact absurd h (not_or.2 ⟨not_not_intro hrsvd, not_not_intro hop⟩)

/-- At the result level too an idle block rejects an illegal word (43_host_access.md R152). -/
theorem State.afterCommand_of_error {s : State} (hb : s.busy = false) {w : Word} {e : DecodeError}
    (h : decode w = .error e) : s.afterCommand w = s.rejectCommand w := by
  rw [State.afterCommand, hb, h]; rfl

/-- Settles O5: the word does not decode, so the write of either level is its rejection. -/
theorem illegalWordRaisesBadCmd : Obligations.IllegalWordRaisesBadCmd := by
  intro s w rest hb hillegal hi
  obtain ⟨e, he⟩ := exists_decode_eq_error hillegal
  have hreject : step s = .next ((s.setInputs rest).rejectCommand w) := by
    rcases hi with hi | hi
    · rw [step_writeReg hi, State.writeReg_cmd_of_error (s := s.setInputs rest) hb he]
    · exact (step_afterInput hi).trans (congrArg _ (State.afterCommand_of_error (s := s.setInputs rest) hb he))
  rw [hreject, ← opField_eq_ofNat]
  rfl

end Sys2Proof.Machine
end

section
/-! O42: the fields of `STATUS` are written by command acceptance, by ENGINE steps of a running command, and by a reset
alone (60_exceptions.md R180). -/

namespace Sys2Proof.Machine

/-- `t` has the `STATUS` fields of `s`. -/
def State.SameStatus (s t : State) : Prop :=
  t.busy = s.busy ∧ t.cap = s.cap ∧ t.result = s.result ∧ t.op = s.op

theorem State.SameStatus.refl (s : State) : s.SameStatus s := ⟨rfl, rfl, rfl, rfl⟩

/-- The `STATUS` word is made of its fields alone (10_state.md R22). -/
theorem State.SameStatus.statusWord_eq {s t : State} (h : s.SameStatus t) : t.statusWord = s.statusWord := by
  obtain ⟨hbusy, hcap, hresult, hop⟩ := h
  simp only [State.statusWord, hbusy, hcap, hresult, hop]

/-- Busy gating chooses between the old state and the new one. -/
theorem State.SameStatus.whenIdle {s t : State} (h : s.SameStatus t) : s.SameStatus (s.whenIdle t) := by
  unfold State.whenIdle
  split
  · exact .refl s
  · exact h

/-- A byte write. -/
theorem State.sameStatus_writeByte (s : State) (sp : MemSpace) (a : Nat) (v : Byte) :
    s.SameStatus (s.writeByte sp a v) := by
  simp [State.SameStatus]

/-- A register write, but for `CMD` (43_host_access.md R151). -/
theorem State.sameStatus_writeReg (s : State) {i : Nat} (h : i ≠ 0) (v : Word) : s.SameStatus (s.writeReg i v) := by
  refine State.SameStatus.whenIdle ?_
  split
  · exact absurd rfl h
  all_goals exact ⟨rfl, rfl, rfl, rfl⟩

/-- One round of `wait` (30_encoding.md R77). -/
theorem State.sameStatus_poll (s : State) : s.SameStatus s.poll := by
  unfold State.poll
  split <;> exact ⟨rfl, rfl, rfl, rfl⟩

/-- An ENGINE step while `BUSY` is 0 (43_host_access.md R157). -/
theorem State.sameStatus_engineStep {s : State} (hb : s.busy = false) : s.SameStatus s.engineStep := by
  rw [State.engineStep_idle hb]; exact .refl s

/-- Every input to an idle block but a command word, a reset and a power-on. -/
theorem State.sameStatus_afterInput {s : State} (hb : s.busy = false) {i : Input}
    (hcmd : ∀ w, i ≠ .writeReg 0 w) (hcommand : ∀ w, i ≠ .command w) (hreset : i ≠ .reset)
    (hpower : i ≠ .powerOn) : s.SameStatus (s.afterInput i) := by
  cases i with
  | readReg i => exact .refl s
  | readMem sp a => exact .refl s
  | writeReg i v => exact s.sameStatus_writeReg (fun h => hcmd v (by rw [h])) v
  | writeMem sp a v => exact (s.sameStatus_writeByte sp a v).whenIdle
  | engine => exact State.sameStatus_engineStep hb
  | reset => exact absurd rfl hreset
  | powerOn => exact absurd rfl hpower
  | wait => exact s.sameStatus_poll
  | command w => exact absurd rfl (hcommand w)

/-- Settles O42, by the cases of a step: an ENGINE step of an idle block, or the next input. -/
theorem outcomeStaysUntilTheNextCommand : Obligations.OutcomeStaysUntilTheNextCommand := by
  intro s t hb hstep hcmd hreset
  have hsame : s.SameStatus t := by
    rcases step_cases hstep with ⟨_, rfl⟩ | ⟨i, rest, hi, rfl⟩
    · exact State.sameStatus_engineStep hb
    · simp only [hi, ne_eq, List.cons.injEq, not_and] at hcmd hreset
      exact State.sameStatus_afterInput (s := s.setInputs rest) hb (fun w h => (hcmd w rest).1 h rfl)
        (fun w h => (hcmd w rest).2 h rfl) (fun h => (hreset rest).1 h rfl) fun h => (hreset rest).2 h rfl
  have ⟨hbusy, hfields⟩ := hsame
  exact ⟨hsame.statusWord_eq, hbusy.trans hb, hfields⟩

end Sys2Proof.Machine
end

section
/-! O43: an EMBED whose walk has started ends with `OK` after the bits that are left, and shows no outcome before that
(60_exceptions.md R179; 41_embed.md R111). -/

namespace Sys2Proof.Machine

/-- The block is in the channel walk of an EMBED, with `n + 1` bits of the stream to write. -/
def State.WalksFor (s : State) (n : Nat) : Prop :=
  s.Inv ∧ s.busy = true ∧ s.op = 2 ∧ s.phase = .run ∧ s.k.toNat + (n + 1) = s.framedBits

/-- The step that writes the last bit ends the command with `OK`. -/
theorem State.WalksFor.engineStep_eq_raise_ok {s : State} (h : s.WalksFor 0) :
    s.engineStep = (s.embedChannel s.k.toNat).raise .ok := by
  obtain ⟨-, hb, ho, hp, hk⟩ := h
  have hlast : s.k.toNat = s.framedBits - 1 := by omega
  rw [State.engineStep_embed hb ho, embedEngineStep, hp]
  exact if_pos hlast

/-- Every step before it writes one bit, and the walk goes on. -/
theorem State.WalksFor.walksFor_engineStep {s : State} {n : Nat} (h : s.WalksFor (n + 1)) :
    s.engineStep.WalksFor n := by
  obtain ⟨hinv, hb, ho, hp, hk⟩ := h
  have hinv' := State.inv_engineStep hinv
  have hchannel : s.engineStep = s.embedChannel s.k.toNat := by
    have hbefore : s.k.toNat ≠ s.framedBits - 1 := by omega
    rw [State.engineStep_embed hb ho, embedEngineStep, hp]
    exact if_neg hbefore
  obtain ⟨-, -, hrange, -⟩ := engineAccessesStayInRange s hinv hb hp
  have hcursor : (s.k + 1).toNat = s.k.toNat + 1 := BitVec.toNat_add_of_lt hrange
  rw [hchannel, State.embedChannel_eq] at hinv' ⊢
  refine ⟨hinv', hb, ho, hp, ?_⟩
  have hbits : s.k.toNat + 1 + (n + 1) = s.framedBits := by omega
  rwa [← hcursor] at hbits

/-- So the walk ends with `OK` after as many steps as it has bits to write. -/
theorem State.WalksFor.exists_endsAfter {s : State} {n : Nat} (h : s.WalksFor n) :
    ∃ t, s.EndsAfter (n + 1) t ∧ t.result = .ok := by
  induction n generalizing s with
  | zero =>
    have ⟨_, hb, _⟩ := h
    exact ⟨_, State.endsAfter_succ (n := 0) h.engineStep_eq_raise_ok rfl hb, rfl⟩
  | succ n ih =>
    obtain ⟨t, ⟨hrun, hend, hbusy⟩, hok⟩ := ih h.walksFor_engineStep
    exact ⟨t, State.endsAfter_succ hrun hend (hbusy n (Nat.lt_succ_self n)), hok⟩

/-- Settles O43: the walk ends with `OK`, and under the invariant a busy block shows no outcome. -/
theorem embedWalkOnceStartedEndsWithOk : Obligations.EmbedWalkOnceStartedEndsWithOk := by
  intro s h hb ho hp
  have ⟨_, _, _, _, _, hwalk, _⟩ := h
  obtain ⟨-, -, hlt, -⟩ := hwalk hb ho hp
  obtain ⟨n, hn⟩ := Nat.exists_eq_add_of_lt hlt
  have hleft : 8 * (s.msgLen.toNat + 4) - s.k.toNat = n + 1 := Nat.sub_eq_of_eq_add' hn
  obtain ⟨t, ⟨hrun, hend, hbusy⟩, hok⟩ := State.WalksFor.exists_endsAfter ⟨h, hb, ho, hp, hn.symm⟩
  rw [hleft, hrun]
  refine ⟨hend, hok, fun m hm => ⟨hbusy m hm, ?_⟩⟩
  obtain ⟨_, _, ⟨hstatus, _⟩, _⟩ := State.inv_engineRun h m
  obtain ⟨hnone, _⟩ := hstatus (hbusy m hm)
  exact hnone

end Sys2Proof.Machine
end

section
/-! O14, O16: a reset sets the registers and touches no memory (70_reset_and_hazards.md R190), so what a running command
has written by then stays (R192). -/

namespace Sys2Proof.Machine

/-- A `Reset` step of the outside. -/
theorem step_reset {s : State} {rest : List Input} (h : s.inputs = .reset :: rest) :
    step s = .next (s.setInputs rest).resetInput :=
  step_afterInput h

/-- Settles O14: the step is the reset of the block, and `State.reset` is written out with its values. -/
theorem resetGivesTheResetValues : Obligations.ResetGivesTheResetValues :=
  ⟨fun _ _ hi => step_reset hi, by decide⟩

/-- Settles O16: the bytes are as before the reset, and the invariant of the running command says what they hold. -/
theorem resetInMidCommandKeepsMemories : Obligations.ResetInMidCommandKeepsMemories := by
  intro s rest ⟨_, _, _, _, _, hembed, hextract⟩ hb hp hi
  have hbytes : ∀ sp a, (s.setInputs rest).resetInput.readByte sp a = s.readByte sp a := fun sp a => by
    rw [State.readByte_resetInput, State.readByte_setInputs]
  refine ⟨_, step_reset hi, rfl, rfl, rfl, hbytes, fun ho k hk => ?_, fun ho j hj => ?_⟩
  · obtain ⟨-, -, -, hbits⟩ := hembed hb ho hp
    rw [hbytes, hbits k hk]
  · obtain ⟨-, -, -, hchars, -⟩ := hextract hb ho hp
    rw [hbytes, hchars j hj]

end Sys2Proof.Machine
end

section
/-! O36: the ENGINE steps of each command with each outcome (70_reset_and_hazards.md R204), counted to the end state
that has the outcome. -/

namespace Sys2Proof.Machine

/-- An EMBED of more pixels than PIX holds ends in its START step with `BAD_CONFIG` (41_embed.md R108, R111). -/
theorem State.endsAfter_embed_badConfig {s : State} (hb : s.busy = false) (hN : s.cfg.pixCap < s.pixelCount.toNat) :
    (s.accept 2).EndsAfter 1 ((s.accept 2).raise .badConfig) := by
  have hresult := Host.Outcome.next.inj ((execEmbed_idle hb).symm.trans (exec_embed_badConfig hb hN))
  exact hresult ▸ State.endsAfter_embed_refused (.inl hN)

/-- One whose framed bits exceed its channels ends there with `CAPACITY_ERROR` (41_embed.md R102, R111). -/
theorem State.endsAfter_embed_capacityError {s : State} (hb : s.busy = false)
    (hN : s.pixelCount.toNat ≤ s.cfg.pixCap) (h : 3 * s.pixelCount.toNat < 8 * (s.msgLen.toNat + 4)) :
    (s.accept 2).EndsAfter 1 ((s.accept 2).raise .capacityError) := by
  have hresult := Host.Outcome.next.inj ((execEmbed_idle hb).symm.trans (exec_embed_capacityError hb hN h))
  exact hresult ▸ State.endsAfter_embed_refused (.inr h)

/-- The outcome after the last step is that of the end state. -/
theorem State.EndsAfter.outcome {u t : State} {n : Nat} {r : ResultCode} (h : u.EndsAfter n t) (hr : t.result = r) :
    (State.engineRun n u).busy = false ∧ (State.engineRun n u).result = r
      ∧ ∀ m < n, (State.engineRun m u).busy = true := by
  obtain ⟨rfl, hend, hbusy⟩ := h
  exact ⟨hend, hr, hbusy⟩

/-- Settles O36, outcome by outcome; the bounds hold because no more than `3 * PIX_CAP` channels are walked. -/
theorem engineStepCounts : Obligations.EngineStepCounts := by
  intro s hb hc _ ends
  refine ⟨s.endsAfter_chkcap.outcome rfl, fun hmany => ⟨?_, ?_⟩, fun hN => ⟨fun hover => ?_, fun hfit => ?_,
    fun j hj hcl hleast => ?_, fun hnone => ?_, fun hfit => ?_, ?_⟩⟩
  · exact (State.endsAfter_embed_badConfig hb hmany).outcome rfl
  · exact (State.endsAfter_extract_refused hmany).outcome rfl
  · exact (State.endsAfter_embed_capacityError hb hN hover).outcome rfl
  · exact (State.endsAfter_embed_walk hc hN hfit).outcome rfl
  · exact (State.endsAfter_extract_matched hc hN hj hcl hleast).outcome rfl
  · exact (State.endsAfter_extract_exhausted hc hN hnone).outcome rfl
  · omega
  · omega

end Sys2Proof.Machine
end

section
/-! O17: every state has a defined next state (the end of 93_implementation_defined.md part 1). -/

namespace Sys2Proof.Machine

/-- Settles O17: with no input left the next state is the ENGINE's, and with one it is `State.afterInput`, a total
function. -/
theorem everyStepAnswersANextState : Obligations.EveryStepAnswersANextState := by
  intro s
  cases hi : s.inputs with
  | nil => exact ⟨s.engineStep, step_nil hi⟩
  | cons i rest => exact ⟨(s.setInputs rest).afterInput i, step_afterInput hi⟩

end Sys2Proof.Machine
end
